-- ==== Sys2Proof/Config.lean ====
section
/-! DEFINITION. What this hardware fixes (00_scope.md R8, with the defaults "this hardware takes") and the free
values: what the spec says must not be depended on (93_implementation_defined.md V1). -/

namespace Sys2Proof

/-- The parameters of the block (R8; 93_implementation_defined.md section 4). Everything whose size depends on one takes
them as an argument. -/
structure Params where
  /-- `NODE_CAP`: entries of the tree memory TM. -/
  nodeCap : Nat
  /-- `CNT_W`: width of the counters and of the register data port. -/
  cntW : Nat
  /-- The width of a TM index, ⌈log2 `NODE_CAP`⌉ (10_state.md R26): not independent, the last two fields fix it. -/
  idxW : Nat
  /-- "`NODE_CAP` must be odd and at least 1" (R8). -/
  nodeCap_odd : nodeCap % 2 = 1
  /-- Every index has a number in that width. -/
  nodeCap_le : nodeCap ≤ 2 ^ idxW
  /-- No smaller width has. -/
  idxW_least : 2 ^ idxW < 2 * nodeCap

/-- `STACK_CAP`: entries of the walk stack STK; derived, `(NODE_CAP - 1) / 2` (R8). -/
def Params.stackCap (p : Params) : Nat := (p.nodeCap - 1) / 2

/-- `CODE_MAX`: longest code, in bits; derived, `(NODE_CAP - 1) / 2` (R8). -/
def Params.codeMax (p : Params) : Nat := (p.nodeCap - 1) / 2

/-- The defaults "this hardware takes" (R8). -/
@[reducible] def Params.default : Params where
  nodeCap := 511
  cntW := 64
  idxW := 9
  nodeCap_odd := by decide
  nodeCap_le := by decide
  idxW_least := by decide

@[simp] theorem Params.default_nodeCap : Params.default.nodeCap = 511 := rfl
@[simp] theorem Params.default_cntW : Params.default.cntW = 64 := rfl
@[simp] theorem Params.default_idxW : Params.default.idxW = 9 := rfl
@[simp] theorem Params.default_stackCap : Params.default.stackCap = 255 := rfl
@[simp] theorem Params.default_codeMax : Params.default.codeMax = 255 := rfl

end Sys2Proof

namespace Sys2Proof.Config

/-- `SYM_W`: bits per symbol (R7, R8). -/
def symW : Nat := 8

/-- `CMD_W`: width of a command word (R8, R91). -/
def cmdW : Nat := 16

/-- Free value: whether an entry of TM that no token has written would read as a leaf (R26: "holds no value"; V1: any
value), by the number of entries written and the index. DESIGN CHOICE, safe: log 3. -/
opaque freeIsLeaf : Nat → Nat → Bool

/-- Free value: the `val` of an entry of TM that no token has written, or of an internal node (V1). Safe: log 3. -/
opaque freeVal : Nat → Nat → BitVec 8

/-- Free value: the `right` of an entry of TM that holds none (V1). Safe: log 3. -/
opaque freeRight (width : Nat) : Nat → Nat → BitVec width

end Sys2Proof.Config
end

