-- ==== Sys2Proof/Word.lean ====
section
/-! DEFINITION. The words of the block: all unsigned, bit 0 least significant (00_scope.md R10). -/

namespace Sys2Proof

/-- A byte value 0 to 255: a symbol, a byte of a channel, a command operand (R7, R93). -/
abbrev Byte := BitVec 8

/-- A command word (R91). -/
abbrev CmdWord := BitVec 16

/-- A `CNT_W`-bit counter, and the register data port (R8, R40). -/
abbrev Counter (p : Params := Params.default) := BitVec p.cntW

/-- A TM index, of ⌈log2 `NODE_CAP`⌉ bits: nine by default (R26, R30). -/
abbrev Index (p : Params := Params.default) := BitVec p.idxW

/-- The last value of a counter, `2^CNT_W - 1`: an increment from it faults (R247 (a), R273). -/
def counterMax {p : Params} : Counter p := BitVec.allOnes p.cntW

theorem counter_width : Counter = BitVec 64 := rfl

theorem index_width : Index = BitVec 9 := rfl

theorem cmdWord_width : CmdWord = BitVec Config.cmdW := rfl

theorem byte_width : Byte = BitVec Config.symW := rfl

end Sys2Proof
end

