-- ==== Sys2Proof/Syntax.lean ====
section
/-! DEFINITION. Every row of spec/opcode_table.json: the eighteen commands (format CMD, 30_encoding.md R92), the two
header tokens (format TOKEN, R96, R97) and the two payload bits (format STEP, R98). -/

namespace Sys2Proof

/-- The instructions. A command's operand is the unsigned byte `opd` as it stands (R93). -/
inductive Instr where
  /-- RESET, `opc` 0x01 (R240). -/
  | reset
  /-- OPENW, `opc` 0x10 (R121). -/
  | openw
  /-- WBIT, `opc` 0x11: the bit is `opd[0]`; `opd[7:1]` must be 0 (R92, R122). -/
  | wbit (opd : Byte)
  /-- WBYTE v, `opc` 0x12 (R123). -/
  | wbyte (v : Byte)
  /-- FLUSH, `opc` 0x13 (R124). -/
  | flush
  /-- CLOSEW, `opc` 0x14 (R125). -/
  | closew
  /-- OPENR, `opc` 0x18 (R126). -/
  | openr
  /-- RBIT, `opc` 0x19 (R127). -/
  | rbit
  /-- RBYTE, `opc` 0x1A (R128). -/
  | rbyte
  /-- CLOSER, `opc` 0x1B (R129). -/
  | closer
  /-- TBEGIN, `opc` 0x20 (R173). -/
  | tbegin
  /-- TNODE, `opc` 0x21 (R174). -/
  | tnode
  /-- TLEAF v, `opc` 0x22 (R175). -/
  | tleaf (v : Byte)
  /-- SER, `opc` 0x23 (R176). -/
  | ser
  /-- DESER, `opc` 0x24 (R177). -/
  | deser
  /-- CMAP, `opc` 0x28 (R201). -/
  | cmap
  /-- ENC v, `opc` 0x30 (R210). -/
  | enc (v : Byte)
  /-- DECODE, `opc` 0x38 (R221). -/
  | decode
  /-- The header token `1 v7 … v0` (R96). -/
  | leaf (v : Byte)
  /-- The header token `0` (R97). -/
  | internal
  /-- The payload bit `0`: descend left (R98). -/
  | left
  /-- The payload bit `1`: descend right (R98). -/
  | right
  deriving DecidableEq, Repr

/-- The three formats of spec/opcode_table.json (R90). -/
inductive Format where
  | cmd
  | token
  | step
  deriving DecidableEq, Repr

/-- Which format a row of the table has (R90). -/
def Instr.format : Instr → Format
  | .reset | .openw | .wbit _ | .wbyte _ | .flush | .closew | .openr | .rbit | .rbyte | .closer => .cmd
  | .tbegin | .tnode | .tleaf _ | .ser | .deser | .cmap | .enc _ | .decode => .cmd
  | .leaf _ | .internal => .token
  | .left | .right => .step

end Sys2Proof
end

