-- ==== Sys2Proof/WellFormed.lean ====
section
/-! DEFINITION. Which instructions an encoding exists for: WBIT's operand has its seven upper bits 0 (30_encoding.md
R92, R94). Every other operand is a byte, and every byte is legal (R93, R96). -/

namespace Sys2Proof

/-- `opd[7:1]` is 0 (R92: "bit in `opd[0]`; `opd[7:1]` must be 0"). -/
def bitOperandOk (opd : Byte) : Bool := opd.extractLsb 7 1 == 0#7

/-- The instruction has an encoding. -/
def Instr.wellFormed : Instr → Bool
  | .wbit opd => bitOperandOk opd
  | .reset | .openw | .wbyte _ | .flush | .closew | .openr | .rbit | .rbyte | .closer => true
  | .tbegin | .tnode | .tleaf _ | .ser | .deser | .cmap | .enc _ | .decode => true
  | .leaf _ | .internal | .left | .right => true

end Sys2Proof
end

