-- ==== Sys2Proof/Decode.lean ====
section
/-! DEFINITION. From bits to instructions and back: command words (30_encoding.md R91 to R94), header tokens (R96, R97,
R99, R100) and payload bits (R98). The command encoding and the wire encoding are two encodings (R90): a bit pattern
says what it is only together with the port it stands on. -/

namespace Sys2Proof

/-- `bits8(v)`: the bits of a byte, bit 7 first (00_scope.md R10). -/
def bits8 (v : Byte) : List Bool :=
  [v.getLsbD 7, v.getLsbD 6, v.getLsbD 5, v.getLsbD 4, v.getLsbD 3, v.getLsbD 2, v.getLsbD 1, v.getLsbD 0]

/-- `((v << 1) | b)[7:0]`: the next bit enters at bit 0 (R122, R247 (c)). -/
def shiftIn (v : Byte) (b : Bool) : Byte := (v <<< 1) ||| (BitVec.ofBool b).setWidth 8

/-- `val8(l)`: the byte whose `bits8` is `l`, for a list of exactly eight bits (R10, R100). -/
def val8 (l : List Bool) : Byte := l.foldl shiftIn 0#8

/-- Why a word or a token is not an instruction. -/
inductive Reserved where
  /-- The opcode is in no row of R92 (R94). -/
  | opcode (opc : Byte)
  /-- The operand of a command that takes none is not 0x00 (R94). -/
  | operand (opc opd : Byte)
  /-- WBIT with a bit of `opd[7:1]` set (R94). -/
  | bitOperand (opd : Byte)
  /-- The bits end inside a token: the one malformed header (R101). -/
  | tokenShort
  /-- There are bits after the token: they belong to the next one (R99, R101). -/
  | tokenLong
  deriving DecidableEq, Repr

/-- `opc`, bits 15 to 8 (R91). -/
def opcOf (w : CmdWord) : Byte := w.extractLsb' 8 8

/-- `opd`, bits 7 to 0 (R91). -/
def opdOf (w : CmdWord) : Byte := w.extractLsb' 0 8

/-- A command that takes no operand: `opd` must be 0x00 (R92, R94). -/
def noOperand (opc opd : Byte) (i : Instr) : Except Reserved Instr :=
  if opd = 0#8 then .ok i else .error (.operand opc opd)

/-- WBIT: `opd[7:1]` must be 0 (R92, R94). -/
def bitOperand (opd : Byte) : Except Reserved Instr :=
  if bitOperandOk opd then .ok (.wbit opd) else .error (.bitOperand opd)

/-- The opcode map (R92); everything else is reserved (R94). -/
def decodeCommand (w : CmdWord) : Except Reserved Instr :=
  let opd := opdOf w
  match (opcOf w).toNat with
  | 0x01 => noOperand (opcOf w) opd .reset
  | 0x10 => noOperand (opcOf w) opd .openw
  | 0x11 => bitOperand opd
  | 0x12 => .ok (.wbyte opd)
  | 0x13 => noOperand (opcOf w) opd .flush
  | 0x14 => noOperand (opcOf w) opd .closew
  | 0x18 => noOperand (opcOf w) opd .openr
  | 0x19 => noOperand (opcOf w) opd .rbit
  | 0x1A => noOperand (opcOf w) opd .rbyte
  | 0x1B => noOperand (opcOf w) opd .closer
  | 0x20 => noOperand (opcOf w) opd .tbegin
  | 0x21 => noOperand (opcOf w) opd .tnode
  | 0x22 => .ok (.tleaf opd)
  | 0x23 => noOperand (opcOf w) opd .ser
  | 0x24 => noOperand (opcOf w) opd .deser
  | 0x28 => noOperand (opcOf w) opd .cmap
  | 0x30 => .ok (.enc opd)
  | 0x38 => noOperand (opcOf w) opd .decode
  | _ => .error (.opcode (opcOf w))

/-- A header token (R16). -/
inductive Token where
  | internal
  | leaf (v : Byte)
  deriving DecidableEq, Repr

/-- The token's row of the table (R96, R97). -/
def Token.toInstr : Token → Instr
  | .internal => .internal
  | .leaf v => .leaf v

/-- A token's bits in stream order: `0`, or `1 v7 … v0` (R96, R97). -/
def Token.bits : Token → List Bool
  | .internal => [false]
  | .leaf v => true :: bits8 v

/-- The first token of a bit sequence and the bits after it: the tag bit tells the length (R99); the value's first bit
is bit 7 (R100). None when the bits end before the token does (R101). -/
def takeToken : List Bool → Option (Token × List Bool)
  | [] => none
  | false :: s => some (.internal, s)
  | true :: s => if s.length < 8 then none else some (.leaf (val8 (s.take 8)), s.drop 8)

/-- A payload bit (R98). -/
def decodeStep : Bool → Instr
  | false => .left
  | true => .right

/-- An encoded instruction, with the port it stands on: the command port, the header, the payload (R90). -/
inductive Encoded where
  | word (w : CmdWord)
  | token (bits : List Bool)
  | step (bit : Bool)
  deriving DecidableEq, Repr

/-- The instruction that the bits are, or by name why they are none. -/
def decode : Encoded → Except Reserved Instr
  | .word w => decodeCommand w
  | .token bits =>
    match takeToken bits with
    | none => .error .tokenShort
    | some (t, []) => .ok t.toInstr
    | some (_, _ :: _) => .error .tokenLong
  | .step b => .ok (decodeStep b)

/-- The word with opcode `opc` and operand `opd` (R91). -/
def commandWord (opc opd : Byte) : CmdWord := opc ++ opd

/-- The command word that executes while the instruction runs: its own for a command (R92); DESER's for a header token
and DECODE's for a payload bit, which are fetched inside those commands (R90). -/
def Instr.cmdWord : Instr → CmdWord
  | .reset => commandWord 0x01#8 0#8
  | .openw => commandWord 0x10#8 0#8
  | .wbit opd => commandWord 0x11#8 opd
  | .wbyte v => commandWord 0x12#8 v
  | .flush => commandWord 0x13#8 0#8
  | .closew => commandWord 0x14#8 0#8
  | .openr => commandWord 0x18#8 0#8
  | .rbit => commandWord 0x19#8 0#8
  | .rbyte => commandWord 0x1A#8 0#8
  | .closer => commandWord 0x1B#8 0#8
  | .tbegin => commandWord 0x20#8 0#8
  | .tnode => commandWord 0x21#8 0#8
  | .tleaf v => commandWord 0x22#8 v
  | .ser => commandWord 0x23#8 0#8
  | .deser | .leaf _ | .internal => commandWord 0x24#8 0#8
  | .cmap => commandWord 0x28#8 0#8
  | .enc v => commandWord 0x30#8 v
  | .decode | .left | .right => commandWord 0x38#8 0#8

/-- The encoding of an instruction: a command's word (R92), a token's bits in stream order (R96, R97), a payload bit
(R98). -/
def encode (i : Instr) : Encoded :=
  match i with
  | .leaf v => .token (Token.leaf v).bits
  | .internal => .token Token.internal.bits
  | .left => .step false
  | .right => .step true
  | .reset | .openw | .wbit _ | .wbyte _ | .flush | .closew | .openr | .rbit | .rbyte | .closer => .word i.cmdWord
  | .tbegin | .tnode | .tleaf _ | .ser | .deser | .cmap | .enc _ | .decode => .word i.cmdWord

/-- The bits of spec/opcode_table.json's numbering, put on the port they stand on. The table gives a row its bits and
not its port: one bit is the token INTERNAL or the payload bit RIGHT, sixteen bits are a command word, and a reserved
command word that has the form of a LEAF token is taken for one. DESIGN CHOICE, log 10. -/
def presentTableWord (nbits w : Nat) : Encoded :=
  if nbits ≤ 8 then
    match w with
    | 0 => .token Token.internal.bits
    | 1 => .step true
    | _ => .token []
  else if nbits = 9 then .token ((w / 256 == 1) :: bits8 (BitVec.ofNat 8 w))
  else
    match decodeCommand (BitVec.ofNat 16 w) with
    | .ok _ => .word (BitVec.ofNat 16 w)
    | .error _ => if w / 256 = 1 then .token (Token.leaf (BitVec.ofNat 8 w)).bits else .word (BitVec.ofNat 16 w)

/-- The instruction the decoder reads from bits that spec/opcode_table.json numbers `w`, `nbits` of them. -/
def decodeTableWord (nbits w : Nat) : Option Instr :=
  match decode (presentTableWord nbits w) with
  | .ok i => some i
  | .error _ => none

end Sys2Proof
end

