-- ==== Sys2Proof/Machine/State.lean ====
section
/-! DEFINITION. The state of the block (10_state.md R20: "Nothing else is state"), the environment a model carries
beside it (R39, R50), and the state after reset (R49). Plain data throughout. Every part whose size a
parameter of R8 fixes takes the parameters as an argument; left out, they are this hardware's defaults. -/

namespace Sys2Proof.Machine

variable {p : Params}

/-- Why the machine would stop. No constructor: the block's own faults are taken (60_exceptions.md R275) and give a
next state, and no rule leaves a command without an outcome (00_scope.md R13: "no command hangs, none is undefined").
Safe: nothing raises it. -/
inductive Fault where
  deriving DecidableEq, Repr

/-- Why the model would have no meaning for an instruction. -/
inductive Refusal where
  /-- Raised by exec's arm of an instruction that has no meaning yet. Safe: the model stops. No arm raises it. -/
  | notModelled (mnemonic : String)
  deriving DecidableEq, Repr

/-- The codes of `FAULT.CODE` (60_exceptions.md R260). Codes 13 to 15 are reserved and never recorded. -/
inductive FaultCode where
  | none
  | ioSink
  | ioSource
  | ioSym
  | truncHeader
  | notOpen
  | noTree
  | noCode
  | treeOvf
  | dupSymbol
  | illegalCmd
  | payloadShort
  | countOvf
  deriving DecidableEq, Repr

/-- The packer, writer half of the bit-stream adapter (R21, R22). -/
structure Packer (p : Params) where
  /-- `W.acc`: the buffered bits, the oldest at the top of `acc[cnt-1:0]`. -/
  acc : Byte
  /-- `W.cnt`: how many bits are buffered, 0 to 7. -/
  cnt : Fin 8
  /-- `W.open`. -/
  isOpen : Bool
  /-- `WBITS`: bits accepted since the last OPENW; pad bits are not counted. -/
  wbits : Counter p
  deriving DecidableEq, Repr

/-- The unpacker, reader half of the bit-stream adapter (R23, R24). -/
structure Unpacker (p : Params) where
  /-- `R.buf`: the byte most recently fetched. -/
  buf : Byte
  /-- `R.rem`: how many of its bits are not yet delivered, 0 to 8. -/
  rem : Fin 9
  /-- `R.open`. -/
  isOpen : Bool
  /-- `R.eos`: a bit read has found the source exhausted. -/
  eos : Bool
  /-- `RBITS`: bits delivered since the last OPENR. -/
  rbits : Counter p
  deriving DecidableEq, Repr

/-- An entry of the tree memory (R26): `kind` is the constructor; `val` exists only in a leaf; `right` exists only in
an internal node and only once written. -/
inductive TmEntry (p : Params) where
  | leaf (val : Byte)
  | int (right : Option (Index p))
  deriving DecidableEq, Repr

/-- The three internal memories (20_memory.md R60). What they do not hold does not exist here (log 2). -/
structure Memory (p : Params) where
  /-- `TM`: the entries written since the tree was last cleared, entry 0 first; `nn` is their number (R26, R27). -/
  tm : List (TmEntry p)
  /-- `STK`, most recent entry first; `sp` is their number (R28). -/
  stk : List (Index p)
  /-- `CM`: the valid entries, by byte value strictly rising; `len` is the length of `code`, its first bit first (R29). -/
  cm : List (Byte × List Bool)
  deriving DecidableEq, Repr

/-- The tree, code map and decoder bookkeeping: flags, cursor and path (R27, R29, R30, R31, R35). -/
structure Control (p : Params) where
  /-- `TLOAD`: a host token load is in progress. -/
  tload : Bool
  /-- `TREE_VALID`: TM holds one complete well-formed tree. -/
  treeValid : Bool
  /-- `CMAP_VALID`: CM was built by a completed CMAP from the tree now in TM. -/
  cmapValid : Bool
  /-- `cur`: the decoder's position, a TM index. -/
  cur : Index p
  /-- `MIDTREE`: the last DECODE ended with an incomplete code. -/
  midtree : Bool
  /-- `PATH`, with `plen` its length: the code-map walk's accumulated bit string. -/
  path : List Bool
  deriving DecidableEq, Repr

/-- The symbol counters (R32). -/
structure Counts (p : Params) where
  /-- `ENC_COUNT`: ENC commands completed since the last OPENW. -/
  enc : Counter p
  /-- `DEC_COUNT`: bytes handed to the symbol sink since the last DECODE started. -/
  dec : Counter p
  deriving DecidableEq, Repr

/-- The configuration the host writes (R33). -/
structure Cfg (p : Params) where
  /-- `CFG.LIMIT_EN`: limit mode. -/
  limitEn : Bool
  /-- `DEC_LIMIT`. -/
  decLimit : Counter p
  deriving DecidableEq, Repr

/-- The fault state (R34). -/
structure FaultRecord where
  /-- `FAULTED`. -/
  faulted : Bool
  /-- `FAULT.CODE`. -/
  code : FaultCode
  /-- `FAULT.CMDW`: the command word that was executing. -/
  cmdw : CmdWord
  deriving DecidableEq, Repr

/-- The byte sink (R39) and the environment's part in it (R63, R66). -/
structure Sink where
  /-- `SNK`: the bytes handed to the sink so far. -/
  data : List Byte
  /-- `SNK.attached`. -/
  attached : Bool
  /-- The coming answers to opens and emits, `true` for ok; ok when none is left (log 4). -/
  answers : List Bool
  /-- The content of the sink the host provides at the next open; none: the sink as it stands (log 7). -/
  offered : Option (List Byte)
  deriving DecidableEq, Repr

/-- The byte source (R39) and the environment's part in it (R64, R66). -/
structure Source where
  /-- `SRC`: the bytes, fixed at OPENR. -/
  data : List Byte
  /-- `SRC.pos`: how many have been fetched. -/
  pos : Nat
  /-- `SRC.attached`. -/
  attached : Bool
  /-- The coming answers to opens and to fetches before the end, `true` for ok; ok when none is left (log 4, log 5). -/
  answers : List Bool
  /-- The bytes of the source the host provides at the next open (log 7). -/
  offered : List Byte
  deriving DecidableEq, Repr

/-- The symbol sink (R39, R65). -/
structure SymSink where
  /-- `SYM`: the bytes handed to the symbol sink so far. -/
  data : List Byte
  /-- The coming answers to emits, `true` for ok; ok when none is left (log 4). -/
  answers : List Bool
  deriving DecidableEq, Repr

/-- What a fetch is answered (20_memory.md R64). -/
inductive FetchAnswer where
  | byte (b : Byte)
  | endOfSource
  | fail
  deriving DecidableEq, Repr

/-- A channel transfer or attachment event, with its answer (20_memory.md R63 to R66): what an observer of the channels
sees (00_scope.md R18, log 14). -/
inductive PortEvent where
  | snkOpen (ok : Bool)
  | snkEmit (b : Byte) (ok : Bool)
  | snkRelease
  | srcOpen (ok : Bool)
  | srcFetch (a : FetchAnswer)
  | srcRelease
  | symEmit (b : Byte) (ok : Bool)
  deriving DecidableEq, Repr

/-- What the host and the environment do next (00_scope.md R17, log 6). -/
inductive HostInput (p : Params := Params.default) where
  /-- A word on the command port (R91). -/
  | command (w : CmdWord)
  /-- `WR reg, value` on the register port (R242). -/
  | writeReg (reg : BitVec 4) (value : Counter p)
  /-- `RD reg` on the register port (R241). -/
  | readReg (reg : BitVec 4)
  /-- The reset input between commands (R300). -/
  | resetInput
  /-- A word on the command port, and the reset input in the middle of the command, after `transfers` of its channel
  transfers (R300, R302, log 8). -/
  | resetDuring (w : CmdWord) (transfers : Nat)
  /-- From now on an open of the byte sink attaches to a sink that holds `content` (R66, V7, log 7). -/
  | offerSink (content : List Byte)
  /-- From now on an open of the byte source attaches to a source that holds `content` (R66, log 7). -/
  | offerSource (content : List Byte)
  /-- The host attaches another symbol sink (R65, log 7). -/
  | attachSym (content : List Byte)
  deriving DecidableEq, Repr

/-- The environment beside the block (R39, R50): the three channels, what the host does next, and what has been seen. -/
structure Env (p : Params) where
  snk : Sink
  src : Source
  sym : SymSink
  /-- Every channel event so far, in order (log 14). -/
  trace : List PortEvent
  /-- What the host does next, first first (log 6). -/
  inputs : List (HostInput p)
  /-- The values register reads have returned so far, in order (log 13). -/
  readData : List (Counter p)
  deriving DecidableEq, Repr

/-- The whole state: the block (R20), for the parameters `p` of R8, and the environment beside it (R39). -/
structure State (p : Params := Params.default) where
  /-- The packer. -/
  w : Packer p
  /-- The unpacker. -/
  r : Unpacker p
  /-- `RES`: bit 8 the end-of-stream sentinel, bits 7 to 0 the value read (R25). -/
  res : BitVec 9
  /-- TM, STK, CM. -/
  mem : Memory p
  /-- Flags, cursor, path. -/
  ctl : Control p
  /-- ENC_COUNT, DEC_COUNT. -/
  cnt : Counts p
  /-- CFG, DEC_LIMIT. -/
  cfg : Cfg p
  /-- FAULTED, FAULT. -/
  flt : FaultRecord
  /-- The environment. -/
  env : Env p
  deriving DecidableEq, Repr

/-- What one step answers. -/
abbrev Result (p : Params := Params.default) := Host.Outcome (State p) Fault Refusal

def State.setW (s : State p) (x : Packer p) : State p := { s with w := x }
def State.setR (s : State p) (x : Unpacker p) : State p := { s with r := x }
def State.setRes (s : State p) (x : BitVec 9) : State p := { s with res := x }
def State.setMem (s : State p) (x : Memory p) : State p := { s with mem := x }
def State.setCtl (s : State p) (x : Control p) : State p := { s with ctl := x }
def State.setCnt (s : State p) (x : Counts p) : State p := { s with cnt := x }
def State.setCfg (s : State p) (x : Cfg p) : State p := { s with cfg := x }
def State.setFlt (s : State p) (x : FaultRecord) : State p := { s with flt := x }
def State.setEnv (s : State p) (x : Env p) : State p := { s with env := x }

/-- The packer after reset (R49). -/
def Packer.reset : Packer p := { acc := 0#8, cnt := 0, isOpen := false, wbits := 0#p.cntW }

/-- The unpacker after reset (R49). `buf` is "unspecified" there: DESIGN CHOICE 0, log 1. -/
def Unpacker.reset : Unpacker p := { buf := 0#8, rem := 0, isOpen := false, eos := false, rbits := 0#p.cntW }

/-- The memories after reset: `nn` = 0, `sp` = 0, every `CM[v].valid` = 0 (R49). -/
def Memory.reset : Memory p := { tm := [], stk := [], cm := [] }

/-- The flags, cursor and path after reset (R49). -/
def Control.reset : Control p :=
  { tload := false, treeValid := false, cmapValid := false, cur := 0#p.idxW, midtree := false, path := [] }

/-- The symbol counters after reset (R49). -/
def Counts.reset : Counts p := { enc := 0#p.cntW, dec := 0#p.cntW }

/-- The configuration after reset: naive mode (R44, R45, R49). -/
def Cfg.reset : Cfg p := { limitEn := false, decLimit := 0#p.cntW }

/-- No fault (R49). -/
def FaultRecord.reset : FaultRecord := { faulted := false, code := .none, cmdw := 0#16 }

/-- The environment of a block fresh from reset: empty sinks (95_test_vectors.md, notation), no source yet, nothing
attached (R49), all answers ok, no host input. DESIGN CHOICE, log 4, log 6, log 7. -/
def Env.fresh (p : Params := Params.default) : Env p :=
  { snk := { data := [], attached := false, answers := [], offered := none }
    src := { data := [], pos := 0, attached := false, answers := [], offered := [] }
    sym := { data := [], answers := [] }
    trace := []
    inputs := []
    readData := [] }

/-- The block's reset values (R49) with a given environment, which the block's reset leaves alone (R39). -/
def State.resetWith (e : Env p) : State p :=
  { w := Packer.reset, r := Unpacker.reset, res := 0#9, mem := Memory.reset, ctl := Control.reset
    cnt := Counts.reset, cfg := Cfg.reset, flt := FaultRecord.reset, env := e }

/-- This hardware (R8's defaults) right after reset (R49), nothing placed. -/
def State.reset : State := State.resetWith Env.fresh

end Sys2Proof.Machine
end

