-- ==== Sys2Proof/Machine/Operands.lean ====
section
/-! DEFINITION. Operand forms and result forms: how a command's operand is used (30_encoding.md R93), what RBIT and
RBYTE put into RES (10_state.md R25), how the last byte is padded (20_memory.md R70), and the codes of the faults
(60_exceptions.md R260). -/

namespace Sys2Proof.Machine

variable {p : Params}

/-- WBIT's bit is `opd[0]` (R93: "WBIT uses `opd[0]` only"). -/
def operandBit (opd : Byte) : Bool := opd.getLsbD 0

/-- `RES` after RBIT: the sentinel 0x100, or the bit zero-extended (R25, R127). -/
def bitResult : Option Bool → BitVec 9
  | none => 0x100#9
  | some b => (BitVec.ofBool b).setWidth 9

/-- `RES` after RBYTE: the sentinel 0x100, or the byte zero-extended (R25, R128). -/
def byteResult : Option Byte → BitVec 9
  | none => 0x100#9
  | some v => v.setWidth 9

/-- `(W.acc << (8 - W.cnt))[7:0]`: the buffered bits on top, zeros below (R70, R124). -/
def padByte (acc : Byte) (cnt : Fin 8) : Byte := acc <<< (8 - cnt.val)

/-- The value of `FAULT.CODE` (R260). -/
def FaultCode.toBits : FaultCode → BitVec 4
  | .none => 0#4
  | .ioSink => 1#4
  | .ioSource => 2#4
  | .ioSym => 3#4
  | .truncHeader => 4#4
  | .notOpen => 5#4
  | .noTree => 6#4
  | .noCode => 7#4
  | .treeOvf => 8#4
  | .dupSymbol => 9#4
  | .illegalCmd => 10#4
  | .payloadShort => 11#4
  | .countOvf => 12#4

end Sys2Proof.Machine
end

