-- ==== Sys2Proof/Machine/Flags.lean ====
section
/-! DEFINITION. The status flags as the host sees them and the whole register port (10_state.md R35, R40 to R48), and
the two flag computations of the decoder's stop (45_decoder.md R225). The block has no arithmetic condition codes. -/

namespace Sys2Proof.Machine

variable {p : Params}

/-- `nn`, the register NODES (R27). -/
def State.nn (s : State p) : Nat := s.mem.tm.length

/-- `sp` (R28). -/
def State.sp (s : State p) : Nat := s.mem.stk.length

/-- `STATUS.BUSY`: a read between commands always sees 0 (R41, R48). -/
def State.busy (_ : State p) : Bool := false

/-- STATUS (R41): bits 15 to 9 reserved, then MIDTREE, R_EOS, CMAP_VALID, TREE_VALID, TLOAD, R_OPEN, W_OPEN, FAULTED,
BUSY. -/
def statusWord (s : State p) : BitVec 16 :=
  0#7 ++ BitVec.ofBool s.ctl.midtree ++ BitVec.ofBool s.r.eos ++ BitVec.ofBool s.ctl.cmapValid ++
    BitVec.ofBool s.ctl.treeValid ++ BitVec.ofBool s.ctl.tload ++ BitVec.ofBool s.r.isOpen ++
    BitVec.ofBool s.w.isOpen ++ BitVec.ofBool s.flt.faulted ++ BitVec.ofBool s.busy

/-- FAULT (R42): bits 31 to 24 reserved, CMDW, bits 7 to 4 reserved, CODE. -/
def faultWord (s : State p) : BitVec 32 := 0#8 ++ s.flt.cmdw ++ 0#4 ++ s.flt.code.toBits

/-- CFG (R44): `LIMIT_EN` in bit 0, the other bits read as 0. -/
def cfgWord (s : State p) : Counter p := (BitVec.ofBool s.cfg.limitEn).setWidth p.cntW

/-- NODES (R46): one 9-bit field; wider where 0 to `NODE_CAP` needs more (log 23). -/
def nodesWord (s : State p) : BitVec (max 9 p.idxW) := BitVec.ofNat (max 9 p.idxW) s.nn

/-- `RD reg` (R40, R241): the register's value zero-extended to `CNT_W` bits; 10 to 15 read as 0 (R47). -/
def readReg (s : State p) (reg : BitVec 4) : Counter p :=
  match reg.toNat with
  | 0 => (statusWord s).setWidth p.cntW
  | 1 => (faultWord s).setWidth p.cntW
  | 2 => s.res.setWidth p.cntW
  | 3 => cfgWord s
  | 4 => s.cfg.decLimit
  | 5 => s.cnt.enc
  | 6 => s.cnt.dec
  | 7 => s.w.wbits
  | 8 => s.r.rbits
  | 9 => (nodesWord s).setWidth p.cntW
  | _ => 0#p.cntW

/-- `WR reg, value` (R242): CFG takes bit 0, DEC_LIMIT the whole value, every other write is ignored. -/
def writeReg (s : State p) (reg : BitVec 4) (value : Counter p) : State p :=
  match reg.toNat with
  | 3 => s.setCfg { s.cfg with limitEn := value.getLsbD 0 }
  | 4 => s.setCfg { s.cfg with decLimit := value }
  | _ => s

/-- The counter holds its last value: the next increment faults instead (R247 (a), R273). -/
def atMax (c : Counter p) : Bool := c == counterMax

/-- DECODE's limit is reached (R228): equality of `CNT_W`-bit values, in limit mode only (R247 (f)). -/
def limitReached (s : State p) : Bool := s.cfg.limitEn && s.cnt.dec == s.cfg.decLimit

/-- At end of stream in limit mode fewer symbols came than the host said (R225, R229). -/
def payloadIsShort (s : State p) : Bool := s.cfg.limitEn && s.cnt.dec.ult s.cfg.decLimit

/-- `MIDTREE` at end of stream: the cursor is not at the root (R225). -/
def midtreeAtEos (s : State p) : Bool := s.ctl.cur != 0#p.idxW

end Sys2Proof.Machine
end

