-- ==== Sys2Proof/Machine/Ops.lean ====
section
/-! DEFINITION. The named operations: the channels and their answers (20_memory.md R63 to R66), the packer and unpacker
(40_bitstream.md R122 to R128), the internal memories (R60 to R62) and the acceptor (42_tree_serdes.md R172), fault
entry (60_exceptions.md R275), reset (R240, R300), and the checks every command starts with (R274). -/

namespace Sys2Proof.Machine

variable {p : Params}

/-! ### Micro-steps -/

/-- What a list of micro-steps comes to (60_exceptions.md R276): it completes with a value, or it raises a fault with
the state every micro-step before the fault has left. -/
inductive Micro (p : Params) (α : Type) where
  | ok (s : State p) (a : α)
  | raise (x : FaultCode) (s : State p)
  deriving DecidableEq, Repr

/-- Micro-steps in order: nothing after a fault runs (R11, R275 step 5). -/
def Micro.andThen {α β : Type} (m : Micro p α) (f : State p → α → Micro p β) : Micro p β :=
  match m with
  | .ok s a => f s a
  | .raise x s => .raise x s

/-! ### The channels -/

/-- The sink's answer to the coming open or emit (R63, R66; log 4). -/
def Sink.answer (k : Sink) : Bool := k.answers.headD true

/-- The symbol sink's answer to the coming emit (R65; log 4). -/
def SymSink.answer (k : SymSink) : Bool := k.answers.headD true

/-- The source's answer to the coming open (R66; log 4). -/
def Source.openAnswer (c : Source) : Bool := c.answers.headD true

/-- The source's answer to the coming fetch (R64): `end` exactly at the end of the source, else the next byte or `fail`
(log 4, log 5). -/
def Source.fetchAnswer (c : Source) : FetchAnswer :=
  match c.data[c.pos]? with
  | none => .endOfSource
  | some b => if c.answers.headD true then .byte b else .fail

/-- What a channel event does to the channels (R63 to R66): a failed transfer transfers nothing; an `ok` open attaches
to what the host provides; a release detaches. -/
def Env.effect (e : Env p) : PortEvent → Env p
  | .snkOpen true =>
    { e with snk := { data := e.snk.offered.getD e.snk.data, attached := true, answers := e.snk.answers.tail,
                      offered := none } }
  | .snkOpen false => { e with snk := { e.snk with answers := e.snk.answers.tail } }
  | .snkEmit b true => { e with snk := { e.snk with data := e.snk.data ++ [b], answers := e.snk.answers.tail } }
  | .snkEmit _ false => { e with snk := { e.snk with answers := e.snk.answers.tail } }
  | .snkRelease => { e with snk := { e.snk with attached := false } }
  | .srcOpen true =>
    { e with src := { e.src with data := e.src.offered, pos := 0, attached := true, answers := e.src.answers.tail } }
  | .srcOpen false => { e with src := { e.src with answers := e.src.answers.tail } }
  | .srcFetch (.byte _) => { e with src := { e.src with pos := e.src.pos + 1, answers := e.src.answers.tail } }
  | .srcFetch .endOfSource => e
  | .srcFetch .fail => { e with src := { e.src with answers := e.src.answers.tail } }
  | .srcRelease => { e with src := { e.src with attached := false } }
  | .symEmit b true => { e with sym := { data := e.sym.data ++ [b], answers := e.sym.answers.tail } }
  | .symEmit _ false => { e with sym := { e.sym with answers := e.sym.answers.tail } }

/-- A channel event happens and is seen (R18, R75 (d)). -/
def Env.apply (e : Env p) (ev : PortEvent) : Env p :=
  { e.effect ev with trace := e.trace ++ [ev] }

/-- The block drives a channel event. -/
def State.port (s : State p) (ev : PortEvent) : State p := s.setEnv (s.env.apply ev)

/-! ### The packer -/

/-- `SnkEmit(b)` and, on `ok`, an empty packer (R63, R122, R124): `W.acc <- 0; W.cnt <- 0`. -/
def emitPacked (b : Byte) (s : State p) : Micro p Unit :=
  if s.env.snk.answer then
    .ok ((s.port (.snkEmit b true)).setW { s.w with acc := 0#8, cnt := 0 }) ()
  else .raise .ioSink (s.port (.snkEmit b false))

/-- `WBIT(b)` (R122): the byte is emitted with its eighth bit. -/
def writeBit (b : Bool) (s : State p) : Micro p Unit :=
  if atMax s.w.wbits then .raise .countOvf s
  else if s.w.cnt = 7 then
    emitPacked (shiftIn s.w.acc b)
      (s.setW { s.w with acc := shiftIn s.w.acc b, wbits := s.w.wbits + 1#p.cntW })
  else
    .ok (s.setW { s.w with acc := shiftIn s.w.acc b, cnt := s.w.cnt + 1, wbits := s.w.wbits + 1#p.cntW }) ()

/-- The bits of a list, first first. -/
def writeBits : List Bool → State p → Micro p Unit
  | [], s => .ok s ()
  | b :: bs, s => (writeBit b s).andThen fun s' _ => writeBits bs s'

/-- `WBYTE(v)` (R123): eight WBITs, bit 7 first. -/
def writeByte (v : Byte) (s : State p) : Micro p Unit := writeBits (bits8 v) s

/-- Pad and emit a partly filled byte; nothing when the packer is empty (R124, R125). -/
def flushPacker (s : State p) : Micro p Unit :=
  if s.w.cnt = 0 then .ok s () else emitPacked (padByte s.w.acc s.w.cnt) s

/-- `SnkRelease(); W.open <- 0` (R66, R125). -/
def releaseSink (s : State p) : State p := (s.port .snkRelease).setW { s.w with isOpen := false }

/-! ### The unpacker -/

/-- Deliver the next bit of `R.buf` (R127, the last four lines): COUNT_OVF first, then `R.rem` down, `RBITS` up. -/
def deliverBit (s : State p) : Micro p (Option Bool) :=
  if atMax s.r.rbits then .raise .countOvf s
  else
    .ok (s.setR { s.r with rem := ⟨s.r.rem.val - 1, by omega⟩, rbits := s.r.rbits + 1#p.cntW })
      (some (s.r.buf.getLsbD (s.r.rem.val - 1)))

/-- `RBIT()` (R127): none is the end-of-stream sentinel, sticky in `R.eos`; a byte is fetched only when a bit of it is
needed. -/
def readBit (s : State p) : Micro p (Option Bool) :=
  if s.r.eos then .ok s none
  else if s.r.rem = 0 then
    match s.env.src.fetchAnswer with
    | .fail => .raise .ioSource (s.port (.srcFetch .fail))
    | .endOfSource => .ok ((s.port (.srcFetch .endOfSource)).setR { s.r with eos := true }) none
    | .byte b => deliverBit ((s.port (.srcFetch (.byte b))).setR { s.r with buf := b, rem := 8 })
  else deliverBit s

/-- The loop of `RBYTE()`: `n` more bits behind the bits `v` already read; the sentinel ends it and they are lost
(R128). -/
def readBitsInto : Nat → Byte → State p → Micro p (Option Byte)
  | 0, v, s => .ok s (some v)
  | n + 1, v, s =>
    (readBit s).andThen fun s' r =>
      match r with
      | none => .ok s' none
      | some b => readBitsInto n (shiftIn v b) s'

/-- `RBYTE()` (R128): eight RBITs, bit 7 first. -/
def readByte (s : State p) : Micro p (Option Byte) := readBitsInto 8 0#8 s

/-- `SrcRelease(); R.open <- 0; R.rem <- 0` (R66, R129). -/
def releaseSource (s : State p) : State p := (s.port .srcRelease).setR { s.r with isOpen := false, rem := 0 }

/-! ### The internal memories -/

/-- A read of `TM[i]` (R61). No rule reads an entry that is not written; such a read gives a free value (V1, log 3). -/
def readNode (tm : List (TmEntry p)) (i : Nat) : TmEntry p :=
  match tm[i]? with
  | some e => e
  | none =>
    if Config.freeIsLeaf tm.length i then .leaf (Config.freeVal tm.length i)
    else .int (some (Config.freeRight p.idxW tm.length i))

/-- `kind` = LEAF (R26). -/
def TmEntry.isLeaf : TmEntry p → Bool
  | .leaf _ => true
  | .int _ => false

/-- `TM[i].right` (R26): where it is not written, no rule reads it and it is a free value (V1, log 3). -/
def readRight (tm : List (TmEntry p)) (i : Nat) : Index p :=
  match readNode tm i with
  | .int (some r) => r
  | .int none | .leaf _ => Config.freeRight p.idxW tm.length i

/-- `TM[i].val` (R26): the `val` of an internal node is read by no rule and is a free value (V1, log 3). -/
def readVal (tm : List (TmEntry p)) (i : Nat) : Byte :=
  match readNode tm i with
  | .leaf v => v
  | .int _ => Config.freeVal tm.length i

/-- Write the field `right` of an entry; an entry that is a leaf has none (R26). -/
def TmEntry.withRight (r : Index p) : TmEntry p → TmEntry p
  | .int _ => .int (some r)
  | .leaf v => .leaf v

/-- `TM[q].right <- r` (R172). -/
def setRight (q : Nat) (r : Index p) (tm : List (TmEntry p)) : List (TmEntry p) := tm.modify q (TmEntry.withRight r)

/-- `CM[v]`: its code, none when `CM[v].valid` = 0 (R29). -/
def cmLookup (v : Byte) : List (Byte × List Bool) → Option (List Bool)
  | [] => none
  | (k, c) :: rest => if k = v then some c else cmLookup v rest

/-- `CM[v] <- {valid = 1, len = |code|, code}` (R201), keeping the entries by byte value strictly rising. -/
def cmInsert (v : Byte) (code : List Bool) : List (Byte × List Bool) → List (Byte × List Bool)
  | [] => [(v, code)]
  | (k, c) :: rest =>
    if v < k then (v, code) :: (k, c) :: rest
    else if v = k then (v, code) :: rest
    else (k, c) :: cmInsert v code rest

/-- The byte values rise strictly. -/
def cmSorted : List (Byte × List Bool) → Bool
  | [] => true
  | [_] => true
  | (a, _) :: (b, c) :: rest => decide (a < b) && cmSorted ((b, c) :: rest)

/-- The canonical form of the memories: TM within its capacity (R26) and CM's valid entries by strictly rising byte
value, so that equal memories are equal data. -/
def Memory.wf (m : Memory p) : Bool := decide (m.tm.length ≤ p.nodeCap) && cmSorted m.cm

/-- `nn <- 0; sp <- 0; CM[v].valid <- 0 for all v` (R173, R177). -/
def clearMemory (s : State p) : State p := s.setMem { tm := [], stk := [], cm := [] }

/-! ### The acceptor (R172) -/

/-- `Accept(INTERNAL)`. -/
def acceptInternal (s : State p) : Micro p Unit :=
  if s.nn = p.nodeCap then .raise .treeOvf s
  else if s.sp = p.stackCap then .raise .treeOvf s
  else
    .ok (s.setMem { s.mem with tm := s.mem.tm ++ [.int none], stk := BitVec.ofNat p.idxW s.nn :: s.mem.stk }) ()

/-- `Accept(LEAF(v))`: it completes the tree when no internal node awaits its right subtree; otherwise the most recent
such node's right subtree starts at the next node. -/
def acceptLeaf (v : Byte) (s : State p) : Micro p Unit :=
  if s.nn = p.nodeCap then .raise .treeOvf s
  else
    match s.mem.stk with
    | [] =>
      .ok ((s.setMem { s.mem with tm := s.mem.tm ++ [.leaf v] }).setCtl
        { s.ctl with treeValid := true, tload := false }) ()
    | q :: rest =>
      .ok (s.setMem { s.mem with
        tm := setRight q.toNat (BitVec.ofNat p.idxW (s.nn + 1)) (s.mem.tm ++ [.leaf v]), stk := rest }) ()

/-- `Accept(tok)`: the next token of a tree in pre-order. -/
def accept : Token → State p → Micro p Unit
  | .internal, s => acceptInternal s
  | .leaf v, s => acceptLeaf v s

/-! ### Fault entry (R275) -/

/-- Step 1: the first fault sets all three (R34). -/
def recordFault (x : FaultCode) (w : CmdWord) (s : State p) : State p :=
  s.setFlt { faulted := true, code := x, cmdw := w }

/-- The best-effort flush of step 2: a failed emit is ignored and leaves the packer as it was. -/
def flushBestEffort (s : State p) : State p :=
  match flushPacker s with
  | .ok s' _ => s'
  | .raise _ s' => s'

/-- Step 2: an open writer is flushed, unless the fault is IO_SINK, and released. -/
def closeSinkOnFault (x : FaultCode) (s : State p) : State p :=
  if s.w.isOpen then releaseSink (if x = .ioSink then s else flushBestEffort s) else s

/-- Step 3: an open reader is released. -/
def closeSourceOnFault (s : State p) : State p := if s.r.isOpen then releaseSource s else s

/-- Step 4: a token load is over. -/
def endLoad (s : State p) : State p := s.setCtl { s.ctl with tload := false }

/-- `raise X` while the command word `w` executes. Control goes nowhere; everything else keeps its value. -/
def raiseFault (x : FaultCode) (w : CmdWord) (s : State p) : State p :=
  endLoad (closeSourceOnFault (closeSinkOnFault x (recordFault x w s)))

/-! ### Reset, the only way out of FAULTED (R240, R277, R300) -/

/-- The sink and the source, if attached, are released without a flush, and every state element takes its reset value;
the channels' contents stay (R39, R300, R302). -/
def resetBlock (s : State p) : State p :=
  let s1 := if s.env.snk.attached then s.port .snkRelease else s
  let s2 := if s1.env.src.attached then s1.port .srcRelease else s1
  State.resetWith s2.env

/-! ### The checks of every command (R274) -/

/-- A precondition: its failure raises the fault before any state is changed (R120). -/
def require (c : Bool) (x : FaultCode) (body : State p → Micro p Unit) (s : State p) : Micro p Unit :=
  if c then body s else .raise x s

/-- A command's end: it completes, or its fault is taken (R13). -/
def finish (w : CmdWord) : Micro p Unit → Result p
  | .ok s _ => .next s
  | .raise x s => .next (raiseFault x w s)

/-- A command other than RESET: dropped while FAULTED (R274 (1)); otherwise its checks and pseudocode run. -/
def command (i : Instr) (body : State p → Micro p Unit) (s : State p) : Result p :=
  if s.flt.faulted then .next s else finish i.cmdWord (body s)

end Sys2Proof.Machine
end

