-- ==== Sys2Proof/Machine/Adapter.lean ====
section
/-! DEFINITION. The nine commands of the bit-stream adapter (40_bitstream.md R121 to R129). -/

namespace Sys2Proof.Machine

variable {p : Params}

/-- OPENW's pseudocode: attach the byte sink, empty the packer (R121). -/
def openSink (s : State p) : Micro p Unit :=
  if s.env.snk.answer then
    .ok (((s.port (.snkOpen true)).setW { acc := 0#8, cnt := 0, isOpen := true, wbits := 0#p.cntW }).setCnt
      { s.cnt with enc := 0#p.cntW }) ()
  else .raise .ioSink (s.port (.snkOpen false))

/-- OPENW (R121). Opening an open stream is ILLEGAL_CMD (R270 (b)). -/
def execOpenw (s : State p) : Result p :=
  command .openw (fun s => require (!s.w.isOpen) .illegalCmd openSink s) s

/-- WBIT b (R122). -/
def execWbit (opd : Byte) (s : State p) : Result p :=
  command (.wbit opd) (fun s => require s.w.isOpen .notOpen (writeBit (operandBit opd)) s) s

/-- WBYTE v (R123). -/
def execWbyte (v : Byte) (s : State p) : Result p :=
  command (.wbyte v) (fun s => require s.w.isOpen .notOpen (writeByte v) s) s

/-- FLUSH (R124): pad and emit, keep the sink. -/
def execFlush (s : State p) : Result p :=
  command .flush (fun s => require s.w.isOpen .notOpen flushPacker s) s

/-- CLOSEW's pseudocode: flush, then release the sink (R125). -/
def flushAndRelease (s : State p) : Micro p Unit :=
  (flushPacker s).andThen fun s' _ => .ok (releaseSink s') ()

/-- CLOSEW (R125). -/
def execClosew (s : State p) : Result p :=
  command .closew (fun s => require s.w.isOpen .notOpen flushAndRelease s) s

/-- OPENR's pseudocode: attach the byte source, empty the unpacker (R126). `R.buf` is left as it is. -/
def openSource (s : State p) : Micro p Unit :=
  if s.env.src.openAnswer then
    .ok ((s.port (.srcOpen true)).setR { s.r with rem := 0, eos := false, rbits := 0#p.cntW, isOpen := true }) ()
  else .raise .ioSource (s.port (.srcOpen false))

/-- OPENR (R126). Opening an open stream is ILLEGAL_CMD (R270 (b)). -/
def execOpenr (s : State p) : Result p :=
  command .openr (fun s => require (!s.r.isOpen) .illegalCmd openSource s) s

/-- RBIT as a host command: the result goes to RES (R127). -/
def readBitToRes (s : State p) : Micro p Unit :=
  (readBit s).andThen fun s' r => .ok (s'.setRes (bitResult r)) ()

/-- RBIT (R127). -/
def execRbit (s : State p) : Result p :=
  command .rbit (fun s => require s.r.isOpen .notOpen readBitToRes s) s

/-- RBYTE as a host command: the result goes to RES (R128). -/
def readByteToRes (s : State p) : Micro p Unit :=
  (readByte s).andThen fun s' r => .ok (s'.setRes (byteResult r)) ()

/-- RBYTE (R128). -/
def execRbyte (s : State p) : Result p :=
  command .rbyte (fun s => require s.r.isOpen .notOpen readByteToRes s) s

/-- CLOSER (R129): `R.eos` and `RBITS` keep their values. -/
def execCloser (s : State p) : Result p :=
  command .closer (fun s => require s.r.isOpen .notOpen (fun s => .ok (releaseSource s) ()) s) s

end Sys2Proof.Machine
end

