-- ==== Sys2Proof/Machine/CodeMap.lean ====
section
/-! DEFINITION. The code-map builder (43_codemap.md R201, R202, R204). -/

namespace Sys2Proof.Machine

variable {p : Params}

/-- An internal node in CMAP's scan (R201): remember its depth, go left. -/
def cmapInternal (s : State p) : State p :=
  (s.setMem { s.mem with stk := BitVec.ofNat p.idxW s.ctl.path.length :: s.mem.stk }).setCtl
    { s.ctl with path := s.ctl.path ++ [false] }

/-- A leaf in CMAP's scan (R201): record its code; back to the last remembered node, go right. A value already
recorded is DUP_SYMBOL (R204). -/
def cmapLeaf (v : Byte) (s : State p) : Micro p Unit :=
  match cmLookup v s.mem.cm with
  | some _ => .raise .dupSymbol s
  | none =>
    match s.mem.stk with
    | [] => .ok (s.setMem { s.mem with cm := cmInsert v s.ctl.path s.mem.cm }) ()
    | d :: rest =>
      .ok ((s.setMem { s.mem with cm := cmInsert v s.ctl.path s.mem.cm, stk := rest }).setCtl
        { s.ctl with path := s.ctl.path.take d.toNat ++ [true] }) ()

/-- CMAP's scan over `TM[0 .. nn-1]` (R201). -/
def cmapScan : List (TmEntry p) → State p → Micro p Unit
  | [], s => .ok s ()
  | .int _ :: rest, s => cmapScan rest (cmapInternal s)
  | .leaf v :: rest, s => (cmapLeaf v s).andThen fun s' _ => cmapScan rest s'

/-- `CMAP_VALID <- 0; CM[v].valid <- 0 for all v` (R201). -/
def clearCodeMap (s : State p) : State p :=
  (s.setMem { s.mem with cm := [] }).setCtl { s.ctl with cmapValid := false }

/-- The multi-leaf walk's start: `PATH <- []; sp <- 0` (R201). -/
def beginWalk (s : State p) : State p :=
  (s.setMem { s.mem with stk := [] }).setCtl { s.ctl with path := [] }

/-- The codes of the tree in TM (R201); the sole leaf of a single-leaf tree gets the code `1` (R202). -/
def buildCodes (s : State p) : Micro p Unit :=
  if (readNode s.mem.tm 0).isLeaf then
    .ok (s.setMem { s.mem with cm := cmInsert (readVal s.mem.tm 0) [true] s.mem.cm }) ()
  else cmapScan s.mem.tm (beginWalk s)

/-- `CMAP_VALID <- 1`. -/
def codeMapDone (s : State p) : State p := s.setCtl { s.ctl with cmapValid := true }

/-- CMAP's pseudocode (R201). -/
def buildCodeMap (s : State p) : Micro p Unit :=
  (buildCodes (clearCodeMap s)).andThen fun s' _ => .ok (codeMapDone s') ()

/-- CMAP (R201). -/
def execCmap (s : State p) : Result p :=
  command .cmap (fun s => require s.ctl.treeValid .noTree buildCodeMap s) s

end Sys2Proof.Machine
end

