-- ==== Sys2Proof/Machine/Decoder.lean ====
section
/-! DEFINITION. The decoder (45_decoder.md R220 to R229) and the two payload bits that DECODE fetches and walks by
(30_encoding.md R90, R98). -/

namespace Sys2Proof.Machine

variable {p : Params}

/-- `SymEmit(b)` (20_memory.md R65): COUNT_OVF first; a refused byte changes neither `SYM` nor `DEC_COUNT`. -/
def symEmit (b : Byte) (s : State p) : Micro p Unit :=
  if atMax s.cnt.dec then .raise .countOvf s
  else if s.env.sym.answer then
    .ok ((s.port (.symEmit b true)).setCnt { s.cnt with dec := s.cnt.dec + 1#p.cntW }) ()
  else .raise .ioSym (s.port (.symEmit b false))

/-- `cur <- x`. -/
def setCur (x : Index p) (s : State p) : State p := s.setCtl { s.ctl with cur := x }

/-- The tree is a single leaf: the decoder is in root-leaf mode (R220, R224). -/
def rootIsLeaf (s : State p) : Bool := (readNode s.mem.tm 0).isLeaf

/-- The leaf test of the multi-leaf walk (R222): a pending leaf is emitted and the cursor goes back to the root. -/
def emitPending (s : State p) : Micro p Unit :=
  match readNode s.mem.tm s.ctl.cur.toNat with
  | .leaf v => (symEmit v s).andThen fun s' _ => .ok (setCur 0#p.idxW s') ()
  | .int _ => .ok s ()

/-- Descend: left on 0, right on 1 (R222, R248 (a)). -/
def descend (b : Bool) (s : State p) : State p :=
  if b then setCur (readRight s.mem.tm s.ctl.cur.toNat) s else setCur (s.ctl.cur + 1#p.idxW) s

/-- A payload bit in the multi-leaf walk (R222). -/
def walkStep (b : Bool) (s : State p) : Micro p Unit :=
  (emitPending s).andThen fun s' _ => .ok (descend b s') ()

/-- A payload bit in root-leaf mode (R224): `1` is one symbol, `0` is a pad bit. -/
def rootLeafStep (b : Bool) (s : State p) : Micro p Unit :=
  if b then symEmit (readVal s.mem.tm 0) s else .ok s ()

/-- A payload bit, in the mode the tree's shape chooses (R220). -/
def payloadStep (b : Bool) (s : State p) : Micro p Unit :=
  if rootIsLeaf s then rootLeafStep b s else walkStep b s

/-- `stop_eos` (R225): PAYLOAD_SHORT in limit mode when symbols are missing (R229); otherwise MIDTREE. -/
def stopAtEos (s : State p) : Micro p Unit :=
  if payloadIsShort s then .raise .payloadShort s
  else .ok (s.setCtl { s.ctl with midtree := midtreeAtEos s }) ()

/-- The sentinel came: in the multi-leaf walk the leaf reached on the last bit is emitted first (R222, R223). -/
def payloadEnd (s : State p) : Micro p Unit :=
  if rootIsLeaf s then stopAtEos s else (emitPending s).andThen fun s' _ => stopAtEos s'

/-- `stop_limit` (R225). -/
def stopAtLimit (s : State p) : Micro p Unit := .ok (s.setCtl { s.ctl with midtree := false }) ()

/-- DECODE's loop (R222, R224, R228): the limit is tested before a bit is read. `fuel` bounds the iterations; every
iteration stops or consumes a bit of the source (R225, log 18). -/
def decodeLoop : Nat → State p → Micro p Unit
  | 0, s => .ok s ()
  | n + 1, s =>
    if limitReached s then stopAtLimit s
    else
      (readBit s).andThen fun s1 r =>
        match r with
        | none => payloadEnd s1
        | some b => (payloadStep b s1).andThen fun s2 _ => decodeLoop n s2

/-- How many bits the unpacker can still deliver. -/
def bitsLeft (s : State p) : Nat := s.r.rem.val + 8 * (s.env.src.data.length - s.env.src.pos)

/-- DECODE's first line (R221): `DEC_COUNT <- 0; MIDTREE <- 0; cur <- 0`. -/
def beginDecode (s : State p) : State p :=
  (s.setCnt { s.cnt with dec := 0#p.cntW }).setCtl { s.ctl with midtree := false, cur := 0#p.idxW }

/-- DECODE's pseudocode (R221). -/
def runDecoder (s : State p) : Micro p Unit := decodeLoop (bitsLeft s + 1) (beginDecode s)

/-- DECODE's preconditions, in order (R221). -/
def decodeChecked (body : State p → Micro p Unit) (s : State p) : Micro p Unit :=
  require s.r.isOpen .notOpen (fun s => require s.ctl.treeValid .noTree body s) s

/-- DECODE (R221). -/
def execDecode (s : State p) : Result p := command .decode (decodeChecked runDecoder) s

/-- The payload bit `0`, fetched (R98). It executes only inside DECODE: its checks are DECODE's (log 9). -/
def execLeft (s : State p) : Result p := command .left (decodeChecked (payloadStep false)) s

/-- The payload bit `1`, fetched (R98). It executes only inside DECODE: its checks are DECODE's (log 9). -/
def execRight (s : State p) : Result p := command .right (decodeChecked (payloadStep true)) s

end Sys2Proof.Machine
end

