-- ==== Sys2Proof/Machine/Encoder.lean ====
section
/-! DEFINITION. The encoder (44_encoder.md R210). -/

namespace Sys2Proof.Machine

variable {p : Params}

/-- `ENC_COUNT <- ENC_COUNT + 1`. -/
def countEncoded (s : State p) : State p := s.setCnt { s.cnt with enc := s.cnt.enc + 1#p.cntW }

/-- ENC's pseudocode for a byte whose code is `code` (R210): the code's bits, first choice first, then the count. -/
def writeCode (code : List Bool) (s : State p) : Micro p Unit :=
  if atMax s.cnt.enc then .raise .countOvf s
  else (writeBits code s).andThen fun s' _ => .ok (countEncoded s') ()

/-- ENC's lookup: a byte with no code is NO_CODE, before any bit is written (R210, R267). -/
def encodeByte (v : Byte) (s : State p) : Micro p Unit :=
  match cmLookup v s.mem.cm with
  | none => .raise .noCode s
  | some code => writeCode code s

/-- ENC v (R210). -/
def execEnc (v : Byte) (s : State p) : Result p :=
  command (.enc v) (fun s => require s.w.isOpen .notOpen (encodeByte v) s) s

end Sys2Proof.Machine
end

