-- ==== Sys2Proof/Machine/System.lean ====
section
/-! DEFINITION. The system command RESET (46_system_and_macros.md R240). -/

namespace Sys2Proof.Machine

variable {p : Params}

/-- RESET (R240): the one command accepted while FAULTED; it cannot fault. -/
def execReset (s : State p) : Result p := .next (resetBlock s)

end Sys2Proof.Machine
end

