-- ==== Sys2Proof/Machine/Tree.lean ====
section
/-! DEFINITION. The tree commands (42_tree_serdes.md R173 to R177) and the two header tokens that DESER fetches and
executes (30_encoding.md R90, R96, R97). -/

namespace Sys2Proof.Machine

variable {p : Params}

/-- TBEGIN's pseudocode (R173): no tree, no code map, a token load in progress. -/
def beginLoad (s : State p) : State p :=
  (clearMemory s).setCtl { s.ctl with treeValid := false, cmapValid := false, tload := true }

/-- TBEGIN (R173). -/
def execTbegin (s : State p) : Result p :=
  command .tbegin (fun s => .ok (beginLoad s) ()) s

/-- TNODE (R174). Outside a token load it is ILLEGAL_CMD (R270 (c)). -/
def execTnode (s : State p) : Result p :=
  command .tnode (fun s => require s.ctl.tload .illegalCmd (accept .internal) s) s

/-- TLEAF v (R175). Outside a token load it is ILLEGAL_CMD (R270 (c)). -/
def execTleaf (v : Byte) (s : State p) : Result p :=
  command (.tleaf v) (fun s => require s.ctl.tload .illegalCmd (accept (.leaf v)) s) s

/-- One entry of SER's scan (R176): `WBIT(1); WBYTE(val)` for a leaf, `WBIT(0)` for an internal node. -/
def serEntry : TmEntry p → State p → Micro p Unit
  | .leaf v, s => (writeBit true s).andThen fun s' _ => writeByte v s'
  | .int _, s => writeBit false s

/-- SER's scan over `TM[0 .. nn-1]` (R176). -/
def serScan : List (TmEntry p) → State p → Micro p Unit
  | [], s => .ok s ()
  | e :: rest, s => (serEntry e s).andThen fun s' _ => serScan rest s'

/-- SER (R176). -/
def execSer (s : State p) : Result p :=
  command .ser
    (fun s => require s.w.isOpen .notOpen (require s.ctl.treeValid .noTree fun s => serScan s.mem.tm s) s) s

/-- DESER fetches a token from the unpacker (R90, R177): the tag bit, then the eight value bits of a leaf. None when
the sentinel comes inside it. -/
def fetchToken (s : State p) : Micro p (Option Token) :=
  (readBit s).andThen fun s1 t =>
    match t with
    | none => .ok s1 none
    | some true =>
      (readByte s1).andThen fun s2 v =>
        match v with
        | none => .ok s2 none
        | some v => .ok s2 (some (.leaf v))
    | some false => .ok s1 (some .internal)

/-- DESER's loop (R177). `fuel` bounds the iterations; DESER gives one more than TM has entries, and the acceptor
faults before it is used up (log 18). -/
def deserLoop : Nat → State p → Micro p Unit
  | 0, s => .ok s ()
  | n + 1, s =>
    if s.ctl.treeValid then .ok s ()
    else
      (fetchToken s).andThen fun s1 t =>
        match t with
        | none => .raise .truncHeader s1
        | some tok => (accept tok s1).andThen fun s2 _ => deserLoop n s2

/-- DESER's first lines (R177): no tree, no code map, no token load. -/
def beginDeser (s : State p) : State p :=
  (clearMemory s).setCtl { s.ctl with treeValid := false, tload := false, cmapValid := false }

/-- DESER (R177). -/
def execDeser (s : State p) : Result p :=
  command .deser
    (fun s => require s.r.isOpen .notOpen (fun s => deserLoop (p.nodeCap + 1) (beginDeser s)) s) s

/-- A header token executes only inside DESER: its checks are DESER's, and once the tree is complete no token is taken
(R172, R177; log 9). -/
def inDeser (i : Instr) (body : State p → Micro p Unit) (s : State p) : Result p :=
  command i
    (fun s => require s.r.isOpen .notOpen (fun s => if s.ctl.treeValid then .ok s () else body s) s) s

/-- The token LEAF v, fetched (R96, R177): `Accept(LEAF(v))`. -/
def execLeaf (v : Byte) (s : State p) : Result p := inDeser (.leaf v) (accept (.leaf v)) s

/-- The token INTERNAL, fetched (R97, R177): `Accept(INTERNAL)`. -/
def execInternal (s : State p) : Result p := inDeser .internal (accept .internal) s

end Sys2Proof.Machine
end

