-- ==== Sys2Proof/Machine/Dispatch.lean ====
section
/-! DEFINITION. One arm per instruction. -/

namespace Sys2Proof.Machine

/-- The meaning of each instruction of spec/opcode_table.json. -/
def exec (i : Instr) (s : State) : Host.Outcome State Fault Refusal :=
  match i with
  | .reset => Sys2Proof.Machine.execReset s
  | .openw => Sys2Proof.Machine.execOpenw s
  | .wbit opd => Sys2Proof.Machine.execWbit opd s
  | .wbyte v => Sys2Proof.Machine.execWbyte v s
  | .flush => Sys2Proof.Machine.execFlush s
  | .closew => Sys2Proof.Machine.execClosew s
  | .openr => Sys2Proof.Machine.execOpenr s
  | .rbit => Sys2Proof.Machine.execRbit s
  | .rbyte => Sys2Proof.Machine.execRbyte s
  | .closer => Sys2Proof.Machine.execCloser s
  | .tbegin => Sys2Proof.Machine.execTbegin s
  | .tnode => Sys2Proof.Machine.execTnode s
  | .tleaf v => Sys2Proof.Machine.execTleaf v s
  | .ser => Sys2Proof.Machine.execSer s
  | .deser => Sys2Proof.Machine.execDeser s
  | .cmap => Sys2Proof.Machine.execCmap s
  | .enc v => Sys2Proof.Machine.execEnc v s
  | .decode => Sys2Proof.Machine.execDecode s
  | .leaf v => Sys2Proof.Machine.execLeaf v s
  | .internal => Sys2Proof.Machine.execInternal s
  | .left => Sys2Proof.Machine.execLeft s
  | .right => Sys2Proof.Machine.execRight s

end Sys2Proof.Machine
end

