-- ==== Sys2Proof/Machine/Block.lean ====
section
/-! DEFINITION. The block for any parameters of 00_scope.md R8: its dispatcher, of which `exec` is this hardware's. -/

namespace Sys2Proof.Machine

/-- The meaning of each instruction, for the parameters `p`. -/
def execAt {p : Params} (i : Instr) (s : State p) : Result p :=
  match i with
  | .reset => execReset s
  | .openw => execOpenw s
  | .wbit opd => execWbit opd s
  | .wbyte v => execWbyte v s
  | .flush => execFlush s
  | .closew => execClosew s
  | .openr => execOpenr s
  | .rbit => execRbit s
  | .rbyte => execRbyte s
  | .closer => execCloser s
  | .tbegin => execTbegin s
  | .tnode => execTnode s
  | .tleaf v => execTleaf v s
  | .ser => execSer s
  | .deser => execDeser s
  | .cmap => execCmap s
  | .enc v => execEnc v s
  | .decode => execDecode s
  | .leaf v => execLeaf v s
  | .internal => execInternal s
  | .left => execLeft s
  | .right => execRight s

/-- At R8's defaults it is `exec`. -/
@[simp] theorem execAt_default (i : Instr) (s : State) : execAt i s = exec i s := by cases i <;> rfl

end Sys2Proof.Machine
end

