-- ==== Sys2Proof/Machine/Fetch.lean ====
section
/-! DEFINITION. How the block takes what the host does next: command words (60_exceptions.md R274), register accesses
(46_system_and_macros.md R241, R242), the reset input (70_reset_and_hazards.md R300, R302), and what the environment
provides (20_memory.md R66); and how an instruction is placed where the next step fetches it. -/

namespace Sys2Proof.Machine

variable {p : Params}

/-- RESET's full encoding, 0x0100 (R274: "Step (1) tests the word for RESET by its full encoding 0x0100"). -/
def resetWord : CmdWord := Instr.reset.cmdWord

/-- A word on the command port (R274): dropped while FAULTED unless it is RESET; ILLEGAL_CMD when reserved; otherwise
the command's own checks and pseudocode. -/
def takeWord (w : CmdWord) (s : State p) : Result p :=
  if s.flt.faulted && w != resetWord then .next s
  else
    match decode (.word w) with
    | .ok i => execAt i s
    | .error _ => .next (raiseFault .illegalCmd w s)

/-- The channel events between two traces of one run, in order. -/
def eventsSince (before after : Env p) : List PortEvent := after.trace.drop before.trace.length

/-- The reset input in the middle of the command `w` (R300, R302): of the command's channel transfers the first `k`
have happened, then everything is as after a reset. DEDUCED, log 8. -/
def resetDuring (w : CmdWord) (k : Nat) (s : State p) : Result p :=
  match takeWord w s with
  | .next t => .next (resetBlock (s.setEnv (((eventsSince s.env t.env).take k).foldl Env.apply s.env)))
  | .fault x => .fault x
  | .refused x => .refused x

/-- `RD reg` (R241): the value goes out on the register port; no other effect (log 13). -/
def readPort (reg : BitVec 4) (s : State p) : State p :=
  s.setEnv { s.env with readData := s.env.readData ++ [readReg s reg] }

/-- One thing the host does (R17, log 6). -/
def takeInput (i : HostInput p) (s : State p) : Result p :=
  match i with
  | .command w => takeWord w s
  | .writeReg reg value => .next (writeReg s reg value)
  | .readReg reg => .next (readPort reg s)
  | .resetInput => .next (resetBlock s)
  | .resetDuring w k => resetDuring w k s
  | .offerSink content => .next (s.setEnv { s.env with snk := { s.env.snk with offered := some content } })
  | .offerSource content => .next (s.setEnv { s.env with src := { s.env.src with offered := content } })
  | .attachSym content => .next (s.setEnv { s.env with sym := { s.env.sym with data := content } })

/-- One step, for the parameters `p`. With nothing to take the block is idle and nothing changes (R300: "the block does
nothing until the host issues a command"). -/
def stepAt (s : State p) : Result p :=
  match s.env.inputs with
  | [] => .next s
  | i :: rest => takeInput i (s.setEnv { s.env with inputs := rest })

/-- What the host does next is `i`, before what it was going to do. -/
def State.presenting (s : State p) (i : HostInput p) : State p := s.setEnv { s.env with inputs := i :: s.env.inputs }

/-- The unpacker has exactly the bit `b` and then the bytes `rest` left to deliver, and nothing fails (log 11). -/
def State.withStream (s : State p) (b : Bool) (rest : List Byte) : State p :=
  (s.setR { s.r with buf := (BitVec.ofBool b).setWidth 8, rem := 1, isOpen := true, eos := false }).setEnv
    { s.env with src := { s.env.src with data := rest, pos := 0, attached := true, answers := [] } }

/-- A tree for DECODE to walk: the one in TM if it is valid, else the smallest tree with two leaves (log 11). -/
def State.withTree (s : State p) : State p :=
  if s.ctl.treeValid then s
  else
    (s.setMem { s.mem with tm := [.int (some (BitVec.ofNat p.idxW 2)), .leaf 0#8, .leaf 1#8] }).setCtl
      { s.ctl with treeValid := true, tload := false }

/-- An encoded instruction where the next step fetches it: a command word on the command port; a token as the only
bits of the source, for DESER to fetch; a payload bit as the only bit of the source, for DECODE to fetch (log 11). -/
def State.withEncoded (s : State p) : Encoded → State p
  | .word w => s.presenting (.command w)
  | .token (true :: value) => (s.withStream true [val8 value]).presenting (.command Instr.deser.cmdWord)
  | .token _ => (s.withStream false []).presenting (.command Instr.deser.cmdWord)
  | .step b =>
    ((s.withTree.withStream b []).setCfg { s.cfg with limitEn := false }).presenting (.command Instr.decode.cmdWord)

end Sys2Proof.Machine
end

