-- ==== Sys2Proof/Machine/Step.lean ====
section
/-! DEFINITION. One step: the block takes the next thing the host does, or is idle (10_state.md R30; 00_scope.md R19: a
command is one atomic transition). -/

namespace Sys2Proof.Machine

/-- One step of this hardware. -/
def step (s : State) : Host.Outcome State Fault Refusal := stepAt s

/-- `s` with the instruction of spec/opcode_table.json's bits `w`, `nbits` of them, where `step` fetches next (log 11). -/
def State.withFetchWord (s : State) (nbits w : Nat) : State := s.withEncoded (presentTableWord nbits w)

end Sys2Proof.Machine
end

