-- ==== Sys2Proof/Machine/Abstract.lean ====
section
/-! DEFINITION. The abstract functions the spec states the block's results with: the tree (00_scope.md R12), the header
(42_tree_serdes.md R171), the tree's place in TM (10_state.md R26, R38), the code map (43_codemap.md R200, R202), the
payload (44_encoder.md R212), packing and unpacking (40_bitstream.md R130, R131) and the decoder as a function
(45_decoder.md R230). Nothing in the machine calls them; statements compare the machine with them. -/

namespace Sys2Proof.Machine

variable {p : Params}

/-- The abstract tree (R12). -/
inductive Tree where
  | leaf (v : Byte)
  | node (l r : Tree)
  deriving DecidableEq, Repr

/-- The node count. -/
def Tree.size : Tree → Nat
  | .leaf _ => 1
  | .node l r => 1 + l.size + r.size

/-- `leaves(t)`: the leaf values left to right (R12). -/
def Tree.leaves : Tree → List Byte
  | .leaf v => [v]
  | .node l r => l.leaves ++ r.leaves

/-- The depth of the deepest leaf. -/
def Tree.height : Tree → Nat
  | .leaf _ => 0
  | .node l r => 1 + max l.height r.height

/-- `depthL(t)`: the depth of the leftmost leaf (R12). -/
def Tree.depthL : Tree → Nat
  | .leaf _ => 0
  | .node l _ => 1 + l.depthL

/-- The value of the leftmost leaf (R226). -/
def Tree.leftmost : Tree → Byte
  | .leaf v => v
  | .node l _ => l.leftmost

/-- `tokens(t)`: the header's tokens (R171). -/
def Tree.tokens : Tree → List Token
  | .leaf v => [.leaf v]
  | .node l r => .internal :: (l.tokens ++ r.tokens)

/-- `ser(t)`: the header's bits (R171). -/
def ser : Tree → List Bool
  | .leaf v => true :: bits8 v
  | .node l r => false :: (ser l ++ ser r)

/-- `deser` with as many nested calls as `fuel` allows. -/
def deserWithin : Nat → List Bool → Option (Tree × List Bool)
  | 0, _ => none
  | n + 1, s =>
    match s with
    | [] => none
    | true :: s => if s.length < 8 then none else some (.leaf (val8 (s.take 8)), s.drop 8)
    | false :: s =>
      match deserWithin n s with
      | none => none
      | some (l, s1) =>
        match deserWithin n s1 with
        | none => none
        | some (r, s2) => some (.node l r, s2)

/-- `deser(s)` (R171): the tree the bits spell and the bits after it; none is `Trunc`. No call can nest deeper than the
bits are long. -/
def deser (s : List Bool) : Option (Tree × List Bool) := deserWithin (s.length + 1) s

/-- A tree in TM in pre-order from index `base` (R26, R38): the left child of the node at `i` is at `i + 1`, the right
child at `i + 1` plus the size of the left subtree. -/
def layout (base : Nat) (t : Tree) (p : Params := Params.default) : List (TmEntry p) :=
  match t with
  | .leaf v => [.leaf v]
  | .node l r =>
    .int (some (BitVec.ofNat p.idxW (base + 1 + l.size))) ::
      (layout (base + 1) l p ++ layout (base + 1 + l.size) r p)

/-- `tree(i)` (R38): the tree that TM spells from index `i`, looking at most `fuel` levels deep. -/
def treeAt (tm : List (TmEntry p)) : Nat → Nat → Option Tree
  | 0, _ => none
  | n + 1, i =>
    match tm[i]? with
    | some (.leaf v) => some (.leaf v)
    | some (.int (some r)) =>
      match treeAt tm n (i + 1), treeAt tm n r.toNat with
      | some l, some r => some (.node l r)
      | _, _ => none
    | some (.int none) | none => none

/-- The records of the pre-order walk, in the order they are made (R200). -/
def walk : Tree → List Bool → List (Byte × List Bool)
  | .leaf v, path => [(v, path)]
  | .node l r, path => walk l (path ++ [false]) ++ walk r (path ++ [true])

/-- `codes(t)`, as the list of its records (R200); the single leaf's code is `1` (R202). -/
def codes : Tree → List (Byte × List Bool)
  | .leaf v => [(v, [true])]
  | .node l r => walk (.node l r) []

/-- `codes(t)(v)` (R200), for a tree that carries `v` on at most one leaf. R200 and R204 give no code for a value on two
leaves; that it is then the first record in pre-order is the model's choice: DESIGN CHOICE, log 24. -/
def codeOf (t : Tree) (v : Byte) : Option (List Bool) := (codes t).lookup v

/-- `payload(t, b)` (R212): the codes of the bytes, one after another. -/
def payload (t : Tree) (b : List Byte) : List Bool := b.flatMap fun v => (codeOf t v).getD []

/-- `pack(w)` (R130): ⌈n/8⌉ bytes, the k-th with bit 7-j equal to `w[8k+j]`, and 0 past the end. -/
def pack (w : List Bool) : List Byte :=
  (List.range ((w.length + 7) / 8)).map fun k => val8 ((List.range 8).map fun j => w.getD (8 * k + j) false)

/-- `unpack(src)` (R131): the bits of the bytes, bit 7 first. -/
def unpack (src : List Byte) : List Bool := src.flatMap bits8

/-- The pad count `p = (8 - n mod 8) mod 8` (R70). -/
def padCount (n : Nat) : Nat := (8 - n % 8) % 8

/-- The bits buffered in the packer, the oldest first: `W.acc[W.cnt-1:0]` from the top (R21). -/
def bufferedBits (w : Packer p) : List Bool := (List.range w.cnt.val).reverse.map fun i => w.acc.getLsbD i

/-- The bits of the output stream so far: those in the sink's bytes, then those still buffered (R67, R76). -/
def writtenBits (s : State p) : List Bool := unpack s.env.snk.data ++ bufferedBits s.w

/-- The bits fetched and not yet delivered: `R.buf[R.rem-1:0]` from the top (R23). -/
def undeliveredBits (r : Unpacker p) : List Bool := (List.range r.rem.val).reverse.map fun i => r.buf.getLsbD i

/-- The bits the unpacker will deliver before the sentinel (R230): what is left of `R.buf`, then the unread bytes; none
once the sentinel has been returned (R127). -/
def remainingBits (s : State p) : List Bool :=
  if s.r.eos then [] else undeliveredBits s.r ++ unpack (s.env.src.data.drop s.env.src.pos)

/-- A child of a node (R230); a leaf has none, and the decoder never asks. -/
def Tree.child : Tree → Bool → Tree
  | .node l _, false => l
  | .node _ r, true => r
  | .leaf v, _ => .leaf v

/-- `run(c, s, out)` of R230 for the tree `t`, with the position it ends on. -/
def decodeRun (t : Tree) (lim : Option Nat) : List Bool → Tree → List Byte → List Byte × Tree
  | [], c, out =>
    if lim = some out.length then (out, c)
    else
      match c with
      | .leaf v => (out ++ [v], t)
      | .node l r => (out, .node l r)
  | b :: s, c, out =>
    if lim = some out.length then (out, c)
    else
      match c with
      | .leaf v => decodeRun t lim s (t.child b) (out ++ [v])
      | .node l r => decodeRun t lim s ((Tree.node l r).child b) out

/-- `dec(t, s, lim)` (R230): the bytes the decoder emits; `lim` is none in naive mode. -/
def dec (t : Tree) (s : List Bool) (lim : Option Nat) : List Byte :=
  match t with
  | .leaf v =>
    List.replicate (match lim with
      | none => s.count true
      | some n => min n (s.count true)) v
  | .node l r => (decodeRun (.node l r) lim s (.node l r) []).1

/-- Naive decoding ends with an incomplete code (R225): the walk is not at the root. -/
def endsMidTree (t : Tree) (s : List Bool) : Bool :=
  match t with
  | .leaf _ => false
  | .node l r => (decodeRun (.node l r) none s (.node l r) []).2 != .node l r

/-- Where the multi-leaf walk of R222 stops, from the position `c` with `n` symbols emitted: the bits it leaves unread, and
whether it has read the sentinel. The limit is tested before a bit is read (R228). -/
def walkStop (t : Tree) (lim : Option Nat) : List Bool → Tree → Nat → List Bool × Bool
  | [], _, n => ([], decide (lim ≠ some n))
  | b :: s, c, n =>
    if lim = some n then (b :: s, false)
    else
      match c with
      | .leaf _ => walkStop t lim s (t.child b) (n + 1)
      | .node l r => walkStop t lim s ((Tree.node l r).child b) n

/-- The same for the root-leaf mode of R224: a symbol per `1`. -/
def onesStop (lim : Option Nat) : List Bool → Nat → List Bool × Bool
  | [], n => ([], decide (lim ≠ some n))
  | b :: s, n => if lim = some n then (b :: s, false) else onesStop lim s (if b then n + 1 else n)

/-- What DECODE leaves of the bits `s` when it stops (R225, R228), and whether it has read the sentinel. -/
def decStop (t : Tree) (s : List Bool) (lim : Option Nat) : List Bool × Bool :=
  match t with
  | .leaf _ => onesStop lim s 0
  | .node l r => walkStop (.node l r) lim s (.node l r) 0

end Sys2Proof.Machine
end

