-- ==== Sys2Proof/Machine/HostModel.lean ====
section
/-! DEFINITION. The host procedures, outside the block but specified (00_scope.md R5): the Frequency Analyzer and the
Tree Builder (41_host_model.md R151 to R157), and COMPRESS and DECOMPRESS as what the host issues
(46_system_and_macros.md R243, R244). -/

namespace Sys2Proof.Machine

variable {p : Params}

/-- The frequency table (R151): one entry per distinct byte value present, by ascending byte value. -/
def frequencies (b : List Byte) : List (Byte × Nat) :=
  (List.range 256).filterMap fun n =>
    let v : Byte := BitVec.ofNat 8 n
    if b.count v = 0 then none else some (v, b.count v)

/-- A queue element: a tree, its weight, and the number that says when it was inserted (R152). -/
structure Weighted where
  tree : Tree
  weight : Nat
  seq : Nat
  deriving DecidableEq, Repr

/-- The queue's order: weight ascending, then the element inserted earlier first (R154). -/
def Weighted.before (a b : Weighted) : Bool :=
  decide (a.weight < b.weight) || (a.weight == b.weight && decide (a.seq < b.seq))

/-- Insert into the queue, kept in its order. -/
def enqueue (x : Weighted) : List Weighted → List Weighted
  | [] => [x]
  | y :: rest => if x.before y then x :: y :: rest else y :: enqueue x rest

/-- The seeds: one leaf per byte value, inserted in ascending byte value with sequence numbers 0, 1, … (R152). -/
def seeds (freq : List (Byte × Nat)) : List Weighted :=
  (freq.zipIdx.map fun p => { tree := .leaf p.1.1, weight := p.1.2, seq := p.2 }).foldl (fun q x => enqueue x q) []

/-- Merge the first two until one is left: the first extracted is the left child (R153). Each merge shortens the queue
by one, so `fuel` its length is enough. -/
def mergeAll : Nat → Nat → List Weighted → Option Tree
  | 0, _, _ => none
  | _ + 1, _, [] => none
  | _ + 1, _, [x] => some x.tree
  | n + 1, seq, a :: b :: rest =>
    mergeAll n (seq + 1) (enqueue { tree := .node a.tree b.tree, weight := a.weight + b.weight, seq := seq } rest)

/-- The Tree Builder (R152 to R155): none for an empty table. -/
def buildTree (freq : List (Byte × Nat)) : Option Tree := mergeAll freq.length freq.length (seeds freq)

/-- The command that hands a token over (R156). -/
def Token.command : Token → Instr
  | .internal => .tnode
  | .leaf v => .tleaf v

/-- A command as the host issues it. -/
def issue (i : Instr) : HostInput p := .command i.cmdWord

/-- `LOADTREE(t)` (R156): TBEGIN, then TNODE or TLEAF v per node in pre-order. -/
def loadTree (t : Tree) : List (HostInput p) := issue .tbegin :: t.tokens.map fun tok => issue (Token.command tok)

/-- A condition the host reports by itself, with no code in the block. -/
inductive HostError where
  /-- `COMPRESS` of an empty buffer (R272). -/
  | emptyInput
  deriving DecidableEq, Repr

/-- The commands of `COMPRESS(b)` for the tree `t` (R243, steps 4 to 10), in the order listed. That steps 4 and 5, and
steps 6 and 7, which "may be swapped", are not, and that step 10, which is "optional", is done, is the model's choice:
DESIGN CHOICE, log 25. -/
def compressWith (t : Tree) (b : List Byte) : List (HostInput p) :=
  issue .openw :: (loadTree t ++ [issue .ser, issue .cmap] ++ b.map (fun v => issue (.enc v)) ++
    [issue .closew, .readReg 5#4])

/-- What the host does for `COMPRESS(b)` when no command faults (R243); an empty buffer is reported, and nothing is
done. -/
def compress (b : List Byte) (p : Params := Params.default) : Except HostError (List (HostInput p)) :=
  match buildTree (frequencies b) with
  | none => .error .emptyInput
  | some t => .ok (compressWith t b)

/-- What the host does for `DECOMPRESS(f)` and `DECOMPRESS(f, n)` when no command faults (R244), with `f` provided as the
byte source. -/
def decompress (f : List Byte) (lim : Option (Counter p)) : List (HostInput p) :=
  .offerSource f ::
    ((match lim with
      | none => [.writeReg 3#4 0#p.cntW]
      | some n => [.writeReg 4#4 n, .writeReg 3#4 1#p.cntW]) ++
      [issue .openr, issue .deser, issue .decode, issue .closer])

/-- What the block comes to when the host does the inputs one after another (R75 (a)); none if a step would not give a
next state. -/
def runHost : List (HostInput p) → State p → Option (State p)
  | [], s => some s
  | i :: rest, s =>
    match takeInput i s with
    | .next t => runHost rest t
    | .fault _ | .refused _ => none

/-- How a macro ends (R243, R244), with the state it leaves. -/
inductive MacroEnd (p : Params := Params.default) where
  /-- Every command completed. -/
  | done (s : State p)
  /-- A command faulted: the macro ended there, and the fault it recorded (R34, R42) is reported to the caller. -/
  | faulted (report : FaultRecord) (s : State p)
  /-- The host's own condition is reported (R272): no command was issued. -/
  | rejected (e : HostError) (s : State p)
  deriving DecidableEq, Repr

/-- The host does the inputs of a macro one after another, until the output `fault` (R279) shows that a command has
faulted: "the macro ends there, the fault is reported to the caller" (R243, R244). None if a step would not give a next
state. -/
def runMacro : List (HostInput p) → State p → Option (MacroEnd p)
  | [], s => some (.done s)
  | i :: rest, s =>
    match takeInput i s with
    | .next t => if t.flt.faulted then some (.faulted t.flt t) else runMacro rest t
    | .fault _ | .refused _ => none

/-- `COMPRESS(b)` (R243). -/
def runCompress (b : List Byte) (s : State p) : Option (MacroEnd p) :=
  match compress b p with
  | .error e => some (.rejected e s)
  | .ok is => runMacro is s

/-- `DECOMPRESS(f)` and `DECOMPRESS(f, n)` (R244); the result is the content of the symbol sink it leaves. -/
def runDecompress (f : List Byte) (lim : Option (Counter p)) (s : State p) : Option (MacroEnd p) :=
  runMacro (decompress f lim) s

end Sys2Proof.Machine
end

