-- ==== Sys2Proof/Safety.lean ====
section
/-! DEFINITION. The terms statements are made in: what stays unchanged (frames), what the environment answers, and the
invariants every step keeps. -/

namespace Sys2Proof.Machine

variable {p : Params}

/-! ### Frames -/

/-- Only the packer, the byte sink, the event trace and perhaps the symbol counters differ. -/
structure PackerFrame (s t : State p) : Prop where
  r : t.r = s.r
  res : t.res = s.res
  mem : t.mem = s.mem
  ctl : t.ctl = s.ctl
  cfg : t.cfg = s.cfg
  flt : t.flt = s.flt
  src : t.env.src = s.env.src
  sym : t.env.sym = s.env.sym
  inputs : t.env.inputs = s.env.inputs
  readData : t.env.readData = s.env.readData

/-- Only the unpacker, the byte source, the event trace and perhaps RES differ. -/
structure UnpackerFrame (s t : State p) : Prop where
  w : t.w = s.w
  mem : t.mem = s.mem
  ctl : t.ctl = s.ctl
  cnt : t.cnt = s.cnt
  cfg : t.cfg = s.cfg
  flt : t.flt = s.flt
  snk : t.env.snk = s.env.snk
  sym : t.env.sym = s.env.sym
  inputs : t.env.inputs = s.env.inputs
  readData : t.env.readData = s.env.readData

/-- Only the internal memories and the flags, cursor and path differ: no channel, counter or register does. -/
structure MemoryFrame (s t : State p) : Prop where
  w : t.w = s.w
  r : t.r = s.r
  res : t.res = s.res
  cnt : t.cnt = s.cnt
  cfg : t.cfg = s.cfg
  flt : t.flt = s.flt
  env : t.env = s.env

/-- Only the unpacker, the byte source, the event trace, the internal memories and the flags differ (DESER). -/
structure DeserFrame (s t : State p) : Prop where
  w : t.w = s.w
  res : t.res = s.res
  cnt : t.cnt = s.cnt
  cfg : t.cfg = s.cfg
  flt : t.flt = s.flt
  snk : t.env.snk = s.env.snk
  sym : t.env.sym = s.env.sym
  inputs : t.env.inputs = s.env.inputs
  readData : t.env.readData = s.env.readData

/-- Only the unpacker, the byte source, the symbol sink, the event trace, DEC_COUNT, the cursor and MIDTREE differ
(DECODE). -/
structure DecodeFrame (s t : State p) : Prop where
  w : t.w = s.w
  res : t.res = s.res
  mem : t.mem = s.mem
  enc : t.cnt.enc = s.cnt.enc
  cfg : t.cfg = s.cfg
  flt : t.flt = s.flt
  ctl : t.ctl = { s.ctl with cur := t.ctl.cur, midtree := t.ctl.midtree }
  snk : t.env.snk = s.env.snk
  inputs : t.env.inputs = s.env.inputs
  readData : t.env.readData = s.env.readData

/-! ### What the environment answers -/

/-- The byte sink refuses nothing. -/
def sinkReliable (s : State p) : Prop := ∀ a ∈ s.env.snk.answers, a = true

/-- The byte source refuses nothing. -/
def sourceReliable (s : State p) : Prop := ∀ a ∈ s.env.src.answers, a = true

/-- The symbol sink refuses nothing. -/
def symReliable (s : State p) : Prop := ∀ a ∈ s.env.sym.answers, a = true

/-- `n` more bits can be counted by WBITS. -/
def writeRoom (s : State p) (n : Nat) : Prop := s.w.wbits.toNat + n < 2 ^ p.cntW

/-- `n` more bits can be counted by RBITS. -/
def readRoom (s : State p) (n : Nat) : Prop := s.r.rbits.toNat + n < 2 ^ p.cntW

/-- The limit of the configuration: none in naive mode (R33). -/
def decodeLimit (s : State p) : Option Nat :=
  if s.cfg.limitEn then some s.cfg.decLimit.toNat else none

/-- No step from `s` stops the machine: it answers a next state (00_scope.md R13: "There is no fourth outcome"). -/
def NoStop (s : State) : Prop := ∃ t, step s = .next t

/-! ### The bookkeeping invariant -/

/-- What holds between steps of the adapter, the fault state and the memories' form. -/
structure Inv (s : State p) : Prop where
  /-- R21: bits `W.acc[7:W.cnt]` are zero while the packer is open. -/
  accBelow : s.w.isOpen = true → s.w.acc.toNat < 2 ^ s.w.cnt.val
  /-- R39, R49: the packer is open exactly while the sink is attached. -/
  sinkAttached : s.w.isOpen = s.env.snk.attached
  /-- R39, R49: the unpacker is open exactly while the source is attached. -/
  sourceAttached : s.r.isOpen = s.env.src.attached
  /-- R129, R275: a closed unpacker has no bit left. -/
  closedEmpty : s.r.isOpen = false → s.r.rem = 0
  /-- R64: the position never passes the end of the source. -/
  posInside : s.env.src.pos ≤ s.env.src.data.length
  /-- R127: the sentinel has been returned only at the end of the source. -/
  eosAtEnd : s.r.eos = true → s.r.rem = 0 ∧ s.env.src.pos = s.env.src.data.length
  /-- R25: when `RES[8]` is 1, `RES[7:0]` is 0. -/
  resSentinel : s.res.getLsbD 8 = true → s.res = 0x100#9
  /-- R34: `FAULTED` = 0 implies `FAULT.CODE` = 0 (NONE). -/
  noFaultNoCode : s.flt.faulted = false → s.flt.code = .none ∧ s.flt.cmdw = 0#16
  /-- R275: a faulted block has recorded a code, and has no stream open and no load in progress. -/
  faultClosed : s.flt.faulted = true →
    s.flt.code ≠ .none ∧ s.w.isOpen = false ∧ s.r.isOpen = false ∧ s.ctl.tload = false
  /-- The memories have their canonical form. -/
  memory : s.mem.wf = true

/-! ### The tree invariant -/

/-- An internal node on the way to the next node of a tree being accepted: its right subtree has not started, or its
left subtree is complete and its right subtree is being accepted. -/
inductive PathNode where
  | inLeft
  | inRight (left : Tree)
  deriving DecidableEq, Repr

/-- What the acceptor has put into TM for the nodes on the way, from index `base` (R172). -/
def pathEntries (base : Nat) : List PathNode → List (TmEntry p)
  | [] => []
  | .inLeft :: rest => .int none :: pathEntries (base + 1) rest
  | .inRight l :: rest =>
    .int (some (BitVec.ofNat p.idxW (base + 1 + l.size))) ::
      (layout (base + 1) l p ++ pathEntries (base + 1 + l.size) rest)

/-- What the acceptor has on STK for them: the nodes whose right subtree has not started, most recent first (R28). -/
def pathStack (base : Nat) : List PathNode → List (Index p)
  | [] => []
  | .inLeft :: rest => pathStack (base + 1) rest ++ [BitVec.ofNat p.idxW base]
  | .inRight l :: rest => pathStack (base + 1 + l.size) rest

/-- TM and STK are as the acceptor leaves them in the middle of a tree (R172). -/
def Accepting (m : Memory p) : Prop := ∃ p, m.tm = pathEntries 0 p ∧ m.stk = pathStack 0 p

/-- TM holds exactly the tree `t` (R38). -/
def HoldsTree (m : Memory p) (t : Tree) : Prop := m.tm = layout 0 t p

/-- CM is the code map of `t` (R29, R200). -/
def HoldsCodes (m : Memory p) (t : Tree) : Prop := ∀ v, cmLookup v m.cm = codeOf t v

/-- What holds between steps of the tree memory, the walk stack and the code map. -/
structure TreeInv (s : State p) : Prop where
  /-- R26: TM is within its capacity. -/
  tmCap : s.mem.tm.length ≤ p.nodeCap
  /-- R28: STK is within its capacity. -/
  stkCap : s.mem.stk.length ≤ p.stackCap
  /-- R27, R38: `TREE_VALID` = 1 implies TM holds one complete well-formed tree, and no load is in progress. -/
  validTree : s.ctl.treeValid = true → s.ctl.tload = false ∧ ∃ t, HoldsTree s.mem t
  /-- R28, R172: during a token load TM and STK are as the acceptor left them. -/
  loading : s.ctl.tload = true → Accepting s.mem
  /-- R28: `sp` is 0 between commands except during a token load (or after a fault). -/
  stackEmpty : s.flt.faulted = false → s.ctl.tload = false → s.mem.stk = []
  /-- R29, R79: a valid code map is that of the tree now in TM. -/
  codesOfTree : s.ctl.cmapValid = true →
    s.ctl.treeValid = true ∧ ∀ t, HoldsTree s.mem t → HoldsCodes s.mem t
  /-- R29, R79: without a valid code map no entry is valid (or the block is faulted). -/
  noStaleCodes : s.flt.faulted = false → s.ctl.cmapValid = false → s.mem.cm = []
  /-- R29, R202: every code is 1 to `CODE_MAX` bits long. -/
  codeLengths : ∀ e ∈ s.mem.cm, 1 ≤ e.2.length ∧ e.2.length ≤ p.codeMax

end Sys2Proof.Machine
end

