-- ==== Sys2Proof/Certificates/Slice0/Obligations.lean ====
section
/-! DEFINITION. The statements about the model, for the provers. Each docstring names the rule of spec/ it is about. -/

open Sys2Proof Sys2Proof.Machine

/-! ### Encoding -/

/-- R92, R96 to R98: words and tokens written out from the spec's encodings decode to the instructions they stand for. -/
def Obligations.SpecWordsDecode : Prop :=
  decode (.word 0x0100#16) = .ok .reset ∧
  decode (.word 0x1000#16) = .ok .openw ∧
  decode (.word 0x1101#16) = .ok (.wbit 1#8) ∧
  decode (.word 0x1241#16) = .ok (.wbyte 0x41#8) ∧
  decode (.word 0x1800#16) = .ok .openr ∧
  decode (.word 0x2263#16) = .ok (.tleaf 0x63#8) ∧
  decode (.word 0x2400#16) = .ok .deser ∧
  decode (.word 0x2800#16) = .ok .cmap ∧
  decode (.word 0x3061#16) = .ok (.enc 0x61#8) ∧
  decode (.word 0x3800#16) = .ok .decode ∧
  decode (.token [true, false, true, true, false, false, false, true, true]) = .ok (.leaf 0x63#8) ∧
  decode (.token [false]) = .ok .internal ∧
  decode (.step false) = .ok .left ∧
  decode (.step true) = .ok .right

/-- R92, R96 to R100: decoding an encoded instruction gives it back, with every operand; a token is cut off the stream
it stands in; and what has no encoding (WBIT with `opd[7:1]` not 0) is refused. -/
def Obligations.DecodeInvertsEncode : Prop :=
  (∀ i : Instr, i.wellFormed = true → decode (encode i) = .ok i) ∧
  (∀ (tok : Token) (rest : List Bool), takeToken (tok.bits ++ rest) = some (tok, rest)) ∧
  (∀ i : Instr, i.wellFormed = false → ∃ why, decode (encode i) = .error why)

/-- R91 to R94: what decodes is the encoding of exactly the instruction it decodes to. -/
def Obligations.EncodingsAreUnique : Prop :=
  ∀ (e : Encoded) (i : Instr), decode e = .ok i → i.wellFormed = true ∧ encode i = e

/-- R94: a word that no command of R92 has as its encoding raises ILLEGAL_CMD and does nothing else. -/
def Obligations.ReservedWordRaisesIllegalCmd : Prop :=
  ∀ (w : CmdWord) (s : State) (rest : List HostInput),
    (¬ ∃ i : Instr, i.format = .cmd ∧ i.wellFormed = true ∧ i.cmdWord = w) →
    s.env.inputs = .command w :: rest → s.flt.faulted = false →
    step s = .next (raiseFault .illegalCmd w (s.setEnv { s.env with inputs := rest }))

/-! ### Steps -/

/-- R19, R30, R75: a step with the word of an instruction on the command port runs that instruction at that state, the
word taken off the port; a step with nothing to take changes nothing. -/
def Obligations.StepRunsDecodedCommand : Prop :=
  (∀ (w : CmdWord) (i : Instr) (s : State) (rest : List HostInput),
    s.env.inputs = .command w :: rest → decode (.word w) = .ok i →
    step s = exec i (s.setEnv { s.env with inputs := rest })) ∧
  (∀ s : State, s.env.inputs = [] → step s = .next s)

/-- R13: no command hangs and none is undefined; the model never stops. -/
def Obligations.StepAlwaysAnswersNext : Prop :=
  (∀ s : State, NoStop s) ∧ (∀ (i : Instr) (s : State), ∃ t, exec i s = .next t)

/-- R34, R274 (1), R277: while FAULTED every instruction but RESET, and every word but 0x0100, is dropped and changes
nothing; the fault record never changes but by a reset, the RESET command or the reset input. -/
def Obligations.FaultedUntilReset : Prop :=
  (∀ (i : Instr) (s : State), i ≠ .reset → s.flt.faulted = true → exec i s = .next s) ∧
  (∀ (w : CmdWord) (s : State) (rest : List HostInput),
    w ≠ 0x0100#16 → s.flt.faulted = true → s.env.inputs = .command w :: rest →
    step s = .next (s.setEnv { s.env with inputs := rest })) ∧
  (∀ s t : State, step s = .next t → s.flt.faulted = true →
    t.flt = s.flt ∨
    (t.flt = FaultRecord.reset ∧ ∃ i rest, s.env.inputs = i :: rest ∧
      (i = .command 0x0100#16 ∨ i = .resetInput ∨ ∃ w k, i = .resetDuring w k)))

/-- R265 to R267, R270, R274 (3) to (5): a failed precondition raises its fault on the unchanged state, the sequence
checks before the stream checks before the tree and code checks. -/
def Obligations.FailedPreconditionRaisesItsFault : Prop :=
  ∀ s : State, s.flt.faulted = false →
    (s.w.isOpen = true → exec .openw s = .next (raiseFault .illegalCmd 0x1000#16 s)) ∧
    (s.r.isOpen = true → exec .openr s = .next (raiseFault .illegalCmd 0x1800#16 s)) ∧
    (s.ctl.tload = false → exec .tnode s = .next (raiseFault .illegalCmd 0x2100#16 s) ∧
      ∀ v, exec (.tleaf v) s = .next (raiseFault .illegalCmd (0x22#8 ++ v) s)) ∧
    (s.w.isOpen = false →
      (∀ v, exec (.wbit v) s = .next (raiseFault .notOpen (0x11#8 ++ v) s)) ∧
      (∀ v, exec (.wbyte v) s = .next (raiseFault .notOpen (0x12#8 ++ v) s)) ∧
      exec .flush s = .next (raiseFault .notOpen 0x1300#16 s) ∧
      exec .closew s = .next (raiseFault .notOpen 0x1400#16 s) ∧
      exec .ser s = .next (raiseFault .notOpen 0x2300#16 s) ∧
      (∀ v, exec (.enc v) s = .next (raiseFault .notOpen (0x30#8 ++ v) s))) ∧
    (s.r.isOpen = false →
      exec .rbit s = .next (raiseFault .notOpen 0x1900#16 s) ∧
      exec .rbyte s = .next (raiseFault .notOpen 0x1A00#16 s) ∧
      exec .closer s = .next (raiseFault .notOpen 0x1B00#16 s) ∧
      exec .deser s = .next (raiseFault .notOpen 0x2400#16 s) ∧
      exec .decode s = .next (raiseFault .notOpen 0x3800#16 s)) ∧
    (s.ctl.treeValid = false →
      (s.w.isOpen = true → exec .ser s = .next (raiseFault .noTree 0x2300#16 s)) ∧
      exec .cmap s = .next (raiseFault .noTree 0x2800#16 s) ∧
      (s.r.isOpen = true → exec .decode s = .next (raiseFault .noTree 0x3800#16 s))) ∧
    (∀ v, s.w.isOpen = true → cmLookup v s.mem.cm = none →
      exec (.enc v) s = .next (raiseFault .noCode (0x30#8 ++ v) s))

/-! ### The packer -/

/-- R121: OPENW attaches the sink the host provides and starts an empty packer; a refused open is IO_SINK; an open
packer is ILLEGAL_CMD. -/
def Obligations.OpenwStartsAnOutputStream : Prop :=
  encode .openw = .word 0x1000#16 ∧
  ∀ s : State, s.flt.faulted = false →
    (s.w.isOpen = true → exec .openw s = .next (raiseFault .illegalCmd 0x1000#16 s)) ∧
    (s.w.isOpen = false → s.env.snk.answer = false →
      exec .openw s = .next (raiseFault .ioSink 0x1000#16 (s.port (.snkOpen false)))) ∧
    (s.w.isOpen = false → s.env.snk.answer = true →
      ∃ t, exec .openw s = .next t ∧ PackerFrame s t ∧
        t.w = { acc := 0#8, cnt := 0, isOpen := true, wbits := 0#64 } ∧
        t.cnt = { s.cnt with enc := 0#64 } ∧
        t.env.snk.attached = true ∧
        t.env.snk.data = s.env.snk.offered.getD s.env.snk.data)

/-- R122: WBIT shifts its bit into the accumulator and counts it; with the eighth bit the byte is emitted and the
packer is empty; a refused emit leaves the eight bits; a full counter faults before the bit is taken. -/
def Obligations.WbitAppendsOneBit : Prop :=
  ∀ (opd : Byte) (s : State), s.flt.faulted = false →
    (s.w.isOpen = false → exec (.wbit opd) s = .next (raiseFault .notOpen (0x11#8 ++ opd) s)) ∧
    (s.w.isOpen = true → s.w.wbits = BitVec.allOnes 64 →
      exec (.wbit opd) s = .next (raiseFault .countOvf (0x11#8 ++ opd) s)) ∧
    (s.w.isOpen = true → s.w.wbits ≠ BitVec.allOnes 64 → s.w.cnt.val < 7 →
      ∃ t, exec (.wbit opd) s = .next t ∧ PackerFrame s t ∧ t.cnt = s.cnt ∧ t.env = s.env ∧
        t.w.isOpen = true ∧ t.w.cnt.val = s.w.cnt.val + 1 ∧ t.w.wbits.toNat = s.w.wbits.toNat + 1 ∧
        t.w.acc.toNat = (2 * s.w.acc.toNat + (opd.getLsbD 0).toNat) % 256 ∧
        writtenBits t = writtenBits s ++ [opd.getLsbD 0]) ∧
    (s.w.isOpen = true → s.w.wbits ≠ BitVec.allOnes 64 → s.w.cnt.val = 7 → s.env.snk.answer = true →
      ∃ t b, exec (.wbit opd) s = .next t ∧ PackerFrame s t ∧ t.cnt = s.cnt ∧
        t.w.isOpen = true ∧ t.w.cnt.val = 0 ∧ t.w.acc = 0#8 ∧ t.w.wbits.toNat = s.w.wbits.toNat + 1 ∧
        t.env.snk.data = s.env.snk.data ++ [b] ∧
        b.toNat = (2 * s.w.acc.toNat + (opd.getLsbD 0).toNat) % 256 ∧
        writtenBits t = writtenBits s ++ [opd.getLsbD 0]) ∧
    (s.w.isOpen = true → s.w.wbits ≠ BitVec.allOnes 64 → s.w.cnt.val = 7 → s.env.snk.answer = false →
      ∃ t, exec (.wbit opd) s = .next t ∧ t.flt = { faulted := true, code := .ioSink, cmdw := 0x11#8 ++ opd } ∧
        t.w.acc.toNat = (2 * s.w.acc.toNat + (opd.getLsbD 0).toNat) % 256 ∧ t.w.cnt.val = 7 ∧
        t.w.isOpen = false ∧ t.w.wbits.toNat = s.w.wbits.toNat + 1 ∧ t.env.snk.data = s.env.snk.data)

/-- R105, R123: WBYTE writes the eight bits of its byte, bit 7 first, emits exactly one byte, and leaves the state that
eight WBITs leave. -/
def Obligations.WbyteIsEightWbits : Prop :=
  ∀ (v : Byte) (s : State), s.flt.faulted = false → s.w.isOpen = true →
    exec (.wbyte v) s = finish (0x12#8 ++ v) (writeBits (bits8 v) s) ∧
    (sinkReliable s → writeRoom s 8 →
    ∃ t b, exec (.wbyte v) s = .next t ∧ PackerFrame s t ∧ t.cnt = s.cnt ∧ t.w.isOpen = true ∧
      t.w.cnt = s.w.cnt ∧ t.w.wbits.toNat = s.w.wbits.toNat + 8 ∧
      t.env.snk.data = s.env.snk.data ++ [b] ∧
      writtenBits t = writtenBits s ++ bits8 v ∧
      runHost ((bits8 v).map fun x => issue (.wbit ((BitVec.ofBool x).setWidth 8))) s = some t)

/-- R124: FLUSH pads a partly filled byte with zeros and emits it; with an empty packer it does nothing; it keeps the
sink, and pad bits are not counted. -/
def Obligations.FlushPadsAndEmits : Prop :=
  encode .flush = .word 0x1300#16 ∧
  ∀ s : State, s.flt.faulted = false →
    (s.w.isOpen = false → exec .flush s = .next (raiseFault .notOpen 0x1300#16 s)) ∧
    (s.w.isOpen = true → s.w.cnt = 0 → exec .flush s = .next s) ∧
    (s.w.isOpen = true → s.w.cnt ≠ 0 → s.env.snk.answer = true →
      ∃ t, exec .flush s = .next t ∧ PackerFrame s t ∧ t.cnt = s.cnt ∧
        t.w = { s.w with acc := 0#8, cnt := 0 } ∧ t.env.snk.attached = s.env.snk.attached ∧
        t.env.snk.data = s.env.snk.data ++ [s.w.acc <<< (8 - s.w.cnt.val)] ∧
        unpack t.env.snk.data = writtenBits s ++ List.replicate (8 - s.w.cnt.val) false) ∧
    (s.w.isOpen = true → s.w.cnt ≠ 0 → s.env.snk.answer = false →
      ∃ t, exec .flush s = .next t ∧ t.flt = { faulted := true, code := .ioSink, cmdw := 0x1300#16 } ∧
        t.w = { s.w with isOpen := false } ∧ t.env.snk.data = s.env.snk.data)

/-- R125: CLOSEW does what FLUSH does and then releases the sink; WBITS and ENC_COUNT keep their values. -/
def Obligations.ClosewFlushesAndReleases : Prop :=
  encode .closew = .word 0x1400#16 ∧
  ∀ s : State, s.flt.faulted = false →
    (s.w.isOpen = false → exec .closew s = .next (raiseFault .notOpen 0x1400#16 s)) ∧
    (s.w.isOpen = true → (s.w.cnt = 0 ∨ s.env.snk.answer = true) →
      ∃ t, exec .closew s = .next t ∧ PackerFrame s t ∧ t.cnt = s.cnt ∧
        t.w.isOpen = false ∧ t.w.cnt = 0 ∧ t.w.wbits = s.w.wbits ∧ (s.w.cnt ≠ 0 → t.w.acc = 0#8) ∧
        t.env.snk.attached = false ∧
        t.env.snk.data = s.env.snk.data ++
          (if s.w.cnt = 0 then [] else [s.w.acc <<< (8 - s.w.cnt.val)])) ∧
    (s.w.isOpen = true → s.w.cnt ≠ 0 → s.env.snk.answer = false →
      ∃ t, exec .closew s = .next t ∧ t.flt = { faulted := true, code := .ioSink, cmdw := 0x1400#16 } ∧
        t.w = { s.w with isOpen := false } ∧ t.env.snk.data = s.env.snk.data ∧ t.env.snk.attached = false)

/-- R130: the packer as a function. From an empty packer, after `n` bits the sink has the first ⌊n/8⌋ bytes of
`pack(w)` and the packer the other `n mod 8` bits; after CLOSEW the sink has all of `pack(w)`. -/
def Obligations.PackerIsPack : Prop :=
  ∀ (bits : List Bool) (s : State), s.flt.faulted = false → s.w.isOpen = true → s.w.cnt = 0 → s.w.acc = 0#8 →
    sinkReliable s → writeRoom s bits.length →
    ∃ t u, runHost (bits.map fun b => issue (.wbit ((BitVec.ofBool b).setWidth 8))) s = some t ∧
      t.flt.faulted = false ∧
      t.env.snk.data = s.env.snk.data ++ (pack bits).take (bits.length / 8) ∧
      t.w.cnt.val = bits.length % 8 ∧
      t.w.acc = (bits.drop (bits.length - bits.length % 8)).foldl shiftIn 0#8 ∧
      exec .closew t = .next u ∧ u.env.snk.data = s.env.snk.data ++ pack bits

/-! ### The unpacker -/

/-- R126: OPENR attaches the source the host provides, at its first byte, and starts an empty unpacker; a refused open
is IO_SOURCE; an open unpacker is ILLEGAL_CMD. -/
def Obligations.OpenrStartsAnInputStream : Prop :=
  encode .openr = .word 0x1800#16 ∧
  ∀ s : State, s.flt.faulted = false →
    (s.r.isOpen = true → exec .openr s = .next (raiseFault .illegalCmd 0x1800#16 s)) ∧
    (s.r.isOpen = false → s.env.src.openAnswer = false →
      exec .openr s = .next (raiseFault .ioSource 0x1800#16 (s.port (.srcOpen false)))) ∧
    (s.r.isOpen = false → s.env.src.openAnswer = true →
      ∃ t, exec .openr s = .next t ∧ UnpackerFrame s t ∧ t.res = s.res ∧
        t.r.isOpen = true ∧ t.r.rem = 0 ∧ t.r.eos = false ∧ t.r.rbits = 0#64 ∧
        t.env.src.attached = true ∧ t.env.src.pos = 0 ∧ t.env.src.data = s.env.src.offered ∧
        remainingBits t = unpack s.env.src.offered)

/-- R127: RBIT puts the next bit, or the sentinel, into RES. It fetches only when no bit is buffered; the sentinel is
sticky and fetches nothing; a refused fetch is IO_SOURCE with the position unchanged; a full counter faults. -/
def Obligations.RbitDeliversTheNextBit : Prop :=
  ∀ s : State, s.flt.faulted = false → s.r.isOpen = true →
    (∀ b rest, remainingBits s = b :: rest → sourceReliable s → readRoom s 1 →
      ∃ t, exec .rbit s = .next t ∧ UnpackerFrame s t ∧ t.r.isOpen = true ∧
        t.res = (if b then 1#9 else 0#9) ∧ remainingBits t = rest ∧
        t.r.rbits.toNat = s.r.rbits.toNat + 1 ∧ (s.r.rem ≠ 0 → t.env = s.env) ∧
        (s.r.rem = 0 → t.env.src.pos = s.env.src.pos + 1 ∧ t.r.rem = 7)) ∧
    (remainingBits s = [] → sourceReliable s →
      ∃ t, exec .rbit s = .next t ∧ UnpackerFrame s t ∧ t.r.isOpen = true ∧ t.res = 0x100#9 ∧ t.r.eos = true ∧
        t.r.rbits = s.r.rbits ∧ t.env.src = s.env.src ∧ (s.r.eos = true → t.env = s.env)) ∧
    (s.r.eos = false → s.r.rem = 0 → s.env.src.fetchAnswer = .fail →
      ∃ t, exec .rbit s = .next t ∧ t.flt = { faulted := true, code := .ioSource, cmdw := 0x1900#16 } ∧
        t.env.src.pos = s.env.src.pos ∧ t.res = s.res ∧ t.r.isOpen = false) ∧
    (s.r.eos = false → s.r.rem ≠ 0 → s.r.rbits = BitVec.allOnes 64 →
      exec .rbit s = .next (raiseFault .countOvf 0x1900#16 s)) ∧
    (∀ b, s.r.eos = false → s.r.rem = 0 → s.env.src.fetchAnswer = .byte b → s.r.rbits = BitVec.allOnes 64 →
      exec .rbit s = .next (raiseFault .countOvf 0x1900#16
        ((s.port (.srcFetch (.byte b))).setR { s.r with buf := b, rem := 8 })))

/-- R105, R128: RBYTE puts the next eight bits, bit 7 first, or the sentinel into RES; when the sentinel comes inside
the byte the bits before it are consumed and lost; a fault inside it leaves RES, with fewer than eight bits consumed. -/
def Obligations.RbyteDeliversTheNextByte : Prop :=
  ∀ s : State, s.flt.faulted = false → s.r.isOpen = true →
    (∀ (v : Byte) (rest : List Bool), remainingBits s = bits8 v ++ rest → sourceReliable s → readRoom s 8 →
      ∃ t, exec .rbyte s = .next t ∧ UnpackerFrame s t ∧ t.r.isOpen = true ∧ t.res = v.setWidth 9 ∧
        remainingBits t = rest ∧ t.r.rbits.toNat = s.r.rbits.toNat + 8) ∧
    ((remainingBits s).length < 8 → sourceReliable s → readRoom s (remainingBits s).length →
      ∃ t, exec .rbyte s = .next t ∧ UnpackerFrame s t ∧ t.r.isOpen = true ∧ t.res = 0x100#9 ∧ t.r.eos = true ∧
        remainingBits t = [] ∧ t.r.rbits.toNat = s.r.rbits.toNat + (remainingBits s).length) ∧
    (∀ t, exec .rbyte s = .next t → t.flt.faulted = true →
      t.res = s.res ∧ t.flt.cmdw = 0x1A00#16 ∧ (t.flt.code = .ioSource ∨ t.flt.code = .countOvf) ∧
      ∃ k, k < 8 ∧ t.r.rbits.toNat = s.r.rbits.toNat + k)

/-- R129: CLOSER releases the source and drops what is buffered; `R.eos` and RBITS stay. -/
def Obligations.CloserReleasesTheSource : Prop :=
  encode .closer = .word 0x1B00#16 ∧
  ∀ s : State, s.flt.faulted = false →
    (s.r.isOpen = false → exec .closer s = .next (raiseFault .notOpen 0x1B00#16 s)) ∧
    (s.r.isOpen = true →
      ∃ t, exec .closer s = .next t ∧ UnpackerFrame s t ∧ t.res = s.res ∧
        t.r = { s.r with isOpen := false, rem := 0 } ∧ t.env.src = { s.env.src with attached := false })

/-- R131: the unpacker as a function. From an opened source the i-th bit read, counting from 0, is `unpack(SRC)[i]`
while there is one and the sentinel after that; RBITS is min(i+1, 8·|SRC|) after it and ⌈RBITS/8⌉ bytes have been
fetched. -/
def Obligations.UnpackerIsUnpack : Prop :=
  ∀ (i : Nat) (s : State), s.flt.faulted = false → s.r.isOpen = true → s.r.rem = 0 → s.r.eos = false →
    s.r.rbits = 0#64 → s.env.src.pos = 0 → sourceReliable s → 8 * s.env.src.data.length < 2 ^ 64 →
    ∃ t, runHost (List.replicate (i + 1) (issue .rbit)) s = some t ∧ t.flt.faulted = false ∧
      t.res = (match (unpack s.env.src.data)[i]? with
        | some b => (if b then 1#9 else 0#9)
        | none => 0x100#9) ∧
      t.r.rbits.toNat = min (i + 1) (8 * s.env.src.data.length) ∧
      t.env.src.pos = (t.r.rbits.toNat + 7) / 8

/-- R70, R132: `unpack(pack(w))` is `w` and then the pad zeros, at most seven; and at the block level: bits written to a
stream that was then closed read back as those bits, the pad zeros, and then the sentinel for good. -/
def Obligations.UnpackInvertsPack : Prop :=
  (∀ w : List Bool, unpack (pack w) = w ++ List.replicate (padCount w.length) false ∧ padCount w.length ≤ 7 ∧
    padCount w.length = (8 - w.length % 8) % 8) ∧
  ∀ (w : List Bool) (a b : State), w.length + 8 < 2 ^ 64 →
    a.flt.faulted = false → a.w.isOpen = false → sinkReliable a → a.env.snk.offered = some [] →
    b.flt.faulted = false → b.r.isOpen = false → sourceReliable b →
    ∃ c, runHost (issue .openw :: (w.map fun x => issue (.wbit ((BitVec.ofBool x).setWidth 8))) ++ [issue .closew]) a =
        some c ∧ c.flt.faulted = false ∧ c.env.snk.data = pack w ∧
      ∀ i : Nat, ∃ d,
        runHost ([.offerSource c.env.snk.data, issue .openr] ++ List.replicate (i + 1) (issue .rbit)) b = some d ∧
        d.flt.faulted = false ∧
        d.res = (match (w ++ List.replicate (padCount w.length) false)[i]? with
          | some x => (if x then 1#9 else 0#9)
          | none => 0x100#9)

/-! ### The tree -/

/-- R173: TBEGIN discards the tree and the code map and starts a token load, whatever was before; streams, counters and
registers stay. -/
def Obligations.TbeginStartsALoad : Prop :=
  encode .tbegin = .word 0x2000#16 ∧
  ∀ s : State, s.flt.faulted = false →
    ∃ t, exec .tbegin s = .next t ∧ MemoryFrame s t ∧
      t.nn = 0 ∧ t.sp = 0 ∧ (∀ v, cmLookup v t.mem.cm = none) ∧
      t.ctl = { s.ctl with treeValid := false, cmapValid := false, tload := true }

/-- R172, R174: in a load TNODE appends an internal node without a right link and stacks its index; TREE_OVF when TM or
STK is full. -/
def Obligations.TnodeAcceptsAnInternalNode : Prop :=
  encode .tnode = .word 0x2100#16 ∧
  ∀ s : State, s.flt.faulted = false →
    (s.ctl.tload = false → exec .tnode s = .next (raiseFault .illegalCmd 0x2100#16 s)) ∧
    (s.ctl.tload = true → (s.nn = 511 ∨ s.sp = 255) →
      exec .tnode s = .next (raiseFault .treeOvf 0x2100#16 s)) ∧
    (s.ctl.tload = true → s.nn ≠ 511 → s.sp ≠ 255 →
      ∃ t, exec .tnode s = .next t ∧ MemoryFrame s t ∧ t.ctl = s.ctl ∧
        t.mem.tm = s.mem.tm ++ [.int none] ∧ t.mem.stk = BitVec.ofNat 9 s.nn :: s.mem.stk ∧ t.mem.cm = s.mem.cm)

/-- R172, R175: in a load TLEAF appends a leaf. With an empty stack the tree is complete; otherwise the stacked node's
right subtree starts at the next node. TREE_OVF when TM is full. -/
def Obligations.TleafAcceptsALeaf : Prop :=
  (∀ v : Byte, encode (.tleaf v) = .word (0x22#8 ++ v)) ∧
  ∀ (v : Byte) (s : State), s.flt.faulted = false →
    (s.ctl.tload = false → exec (.tleaf v) s = .next (raiseFault .illegalCmd (0x22#8 ++ v) s)) ∧
    (s.ctl.tload = true → s.nn = 511 → exec (.tleaf v) s = .next (raiseFault .treeOvf (0x22#8 ++ v) s)) ∧
    (s.ctl.tload = true → s.nn ≠ 511 → s.mem.stk = [] →
      ∃ t, exec (.tleaf v) s = .next t ∧ MemoryFrame s t ∧
        t.ctl = { s.ctl with treeValid := true, tload := false } ∧
        t.mem = { s.mem with tm := s.mem.tm ++ [.leaf v] }) ∧
    (∀ q rest, s.ctl.tload = true → s.nn ≠ 511 → s.mem.stk = q :: rest →
      ∃ t, exec (.tleaf v) s = .next t ∧ MemoryFrame s t ∧ t.ctl = s.ctl ∧
        t.mem.stk = rest ∧ t.mem.cm = s.mem.cm ∧ t.nn = s.nn + 1 ∧
        (q.toNat < s.nn → ∀ old, s.mem.tm[q.toNat]? = some (.int old) →
          t.mem.tm[q.toNat]? = some (.int (some (BitVec.ofNat 9 (s.nn + 1))))) ∧
        (∀ i, i < s.nn → i ≠ q.toNat → t.mem.tm[i]? = s.mem.tm[i]?) ∧
        (q.toNat ≠ s.nn → t.mem.tm[s.nn]? = some (.leaf v)))

/-- R96, R97, R172, R177 (log 9: that a token by itself has DESER's checks and word is the model's choice): inside DESER,
before the tree is complete, the fetched token LEAF appends a leaf, which completes the tree on an empty stack and else
gives the stacked node its right link; the fetched token INTERNAL appends an internal node and stacks it. Both complete
whenever there is room, and are TREE_OVF when there is none; outside DESER's conditions DESER's own checks answer. -/
def Obligations.HeaderTokensBuildTheTree : Prop :=
  (∀ (s : State) (v : Byte), s.flt.faulted = false → s.r.isOpen = false →
    exec .internal s = .next (raiseFault .notOpen 0x2400#16 s) ∧
    exec (.leaf v) s = .next (raiseFault .notOpen 0x2400#16 s)) ∧
  (∀ (s : State) (v : Byte), s.flt.faulted = false → s.r.isOpen = true → s.ctl.treeValid = true →
    exec .internal s = .next s ∧ exec (.leaf v) s = .next s) ∧
  ∀ s : State, s.flt.faulted = false → s.r.isOpen = true → s.ctl.treeValid = false →
    ((s.nn = 511 ∨ s.sp = 255) → exec .internal s = .next (raiseFault .treeOvf 0x2400#16 s)) ∧
    (∀ v, s.nn = 511 → exec (.leaf v) s = .next (raiseFault .treeOvf 0x2400#16 s)) ∧
    (s.nn ≠ 511 → s.sp ≠ 255 →
      ∃ t, exec .internal s = .next t ∧ MemoryFrame s t ∧ t.ctl = s.ctl ∧
        t.mem.tm = s.mem.tm ++ [.int none] ∧ t.mem.stk = BitVec.ofNat 9 s.nn :: s.mem.stk ∧ t.mem.cm = s.mem.cm) ∧
    (∀ v, s.nn ≠ 511 → s.mem.stk = [] →
      ∃ t, exec (.leaf v) s = .next t ∧ MemoryFrame s t ∧
        t.ctl = { s.ctl with treeValid := true, tload := false } ∧
        t.mem = { s.mem with tm := s.mem.tm ++ [.leaf v] }) ∧
    (∀ v q rest, s.nn ≠ 511 → s.mem.stk = q :: rest →
      ∃ t, exec (.leaf v) s = .next t ∧ MemoryFrame s t ∧ t.ctl = s.ctl ∧
        t.mem.stk = rest ∧ t.mem.cm = s.mem.cm ∧ t.nn = s.nn + 1 ∧
        (q.toNat < s.nn → ∀ old, s.mem.tm[q.toNat]? = some (.int old) →
          t.mem.tm[q.toNat]? = some (.int (some (BitVec.ofNat 9 (s.nn + 1))))) ∧
        (∀ i, i < s.nn → i ≠ q.toNat → t.mem.tm[i]? = s.mem.tm[i]?) ∧
        (q.toNat ≠ s.nn → t.mem.tm[s.nn]? = some (.leaf v)))

/-- R90, R177: when the bits the unpacker has left start with a token, an iteration of DESER's loop fetches exactly that
token and accepts it. The last clause, that the token's own instruction is that acceptance under DESER's word, is the
model's choice (log 9). -/
def Obligations.DeserRunsTheFetchedToken : Prop :=
  ∀ (s : State) (tok : Token) (rest : List Bool) (n : Nat),
    takeToken (remainingBits s) = some (tok, rest) → s.flt.faulted = false → s.r.isOpen = true →
    s.ctl.treeValid = false → sourceReliable s → readRoom s tok.bits.length →
    ∃ s1, fetchToken s = .ok s1 (some tok) ∧ UnpackerFrame s s1 ∧ s1.res = s.res ∧ remainingBits s1 = rest ∧
      s1.r.rbits.toNat = s.r.rbits.toNat + tok.bits.length ∧
      deserLoop (n + 1) s = (accept tok s1).andThen (fun s2 _ => deserLoop n s2) ∧
      exec tok.toInstr s1 = finish 0x2400#16 (accept tok s1)

/-- R156, R179: loading the tokens of a tree that fits gives exactly that tree in TM, complete at the last token and
not before, with an empty stack and no code map, and changes nothing else. -/
def Obligations.LoadedTreeIsTheTree : Prop :=
  ∀ (t : Machine.Tree) (s : State), s.flt.faulted = false → t.size ≤ 511 →
    (∀ k, k < t.tokens.length →
      ∃ u, runHost ((loadTree t).take (k + 1)) s = some u ∧ u.flt.faulted = false ∧ u.ctl.treeValid = false) ∧
    ∃ u, runHost (loadTree t) s = some u ∧ MemoryFrame s u ∧
      HoldsTree u.mem t ∧ u.nn = t.size ∧ u.mem.stk = [] ∧ u.mem.cm = [] ∧
      u.ctl = { s.ctl with treeValid := true, tload := false, cmapValid := false }

/-- R172, R268: a tree of more than `NODE_CAP` nodes cannot be loaded, by tokens or from a header: TREE_OVF, and no tree
is valid. -/
def Obligations.OversizedTreeOverflows : Prop :=
  ∀ (t : Machine.Tree) (s : State), s.flt.faulted = false → 511 < t.size →
    (∃ u, runHost (loadTree t) s = some u ∧ u.flt.faulted = true ∧ u.flt.code = .treeOvf ∧ u.ctl.treeValid = false) ∧
    (∀ rest, s.r.isOpen = true → sourceReliable s → remainingBits s = ser t ++ rest → readRoom s (ser t).length →
      ∃ u, exec .deser s = .next u ∧ u.flt = { faulted := true, code := .treeOvf, cmdw := 0x2400#16 } ∧
        u.ctl.treeValid = false)

/-- R38, R179: the tree is read back from TM by index, TM has one entry per node, twice the leaves less one, no other
tree has the same TM, and the header is the entries' tokens in index order. -/
def Obligations.TreeMemoryHoldsOneTree : Prop :=
  ∀ t : Machine.Tree, t.size ≤ 511 →
    treeAt (layout 0 t) t.size 0 = some t ∧ (layout 0 t).length = t.size ∧ t.size + 1 = 2 * t.leaves.length ∧
    (∀ t', layout 0 t' = layout 0 t → t' = t) ∧
    ser t = (layout 0 t).flatMap fun e => match e with
      | .leaf v => true :: bits8 v
      | .int _ => [false]

/-- R171, R176: SER writes exactly the bits `ser(T)` of the tree in TM, changes nothing but the output stream, and
leaves the tree. -/
def Obligations.SerWritesTheHeader : Prop :=
  ∀ (s : State) (t : Machine.Tree), s.flt.faulted = false → s.w.isOpen = true → s.ctl.treeValid = true → HoldsTree s.mem t →
    exec .ser s = finish 0x2300#16 (writeBits (ser t) s) ∧
    (sinkReliable s → writeRoom s (ser t).length →
      ∃ u, exec .ser s = .next u ∧ PackerFrame s u ∧ u.cnt = s.cnt ∧ u.w.isOpen = true ∧
        writtenBits u = writtenBits s ++ ser t ∧ u.w.wbits.toNat = s.w.wbits.toNat + (10 * t.leaves.length - 1))

/-- R122, R176, R210, R276: when a write of several bits faults, every bit before the faulting one has been written in
full and no bit after it. -/
def Obligations.WriteFaultsArePrecise : Prop :=
  ∀ (bits : List Bool) (s t : State) (x : FaultCode), writeBits bits s = .raise x t →
    ∃ pre b post u, bits = pre ++ b :: post ∧ writeBits pre s = .ok u () ∧
      writtenBits u = writtenBits s ++ pre ∧ u.w.wbits.toNat = s.w.wbits.toNat + pre.length ∧
      writeBit b u = .raise x t ∧ (x = .ioSink ∨ x = .countOvf) ∧ t.env.snk.data = u.env.snk.data

/-- R177: DESER reads exactly the header, builds its tree, and leaves the unpacker at the first bit after it. -/
def Obligations.DeserBuildsTheHeadersTree : Prop :=
  ∀ (s : State) (t : Machine.Tree) (rest : List Bool), s.flt.faulted = false → s.r.isOpen = true → sourceReliable s →
    deser (remainingBits s) = some (t, rest) → t.size ≤ 511 → readRoom s (ser t).length →
    ∃ u, exec .deser s = .next u ∧ DeserFrame s u ∧ HoldsTree u.mem t ∧ u.mem.stk = [] ∧ u.mem.cm = [] ∧
      u.ctl = { s.ctl with treeValid := true, tload := false, cmapValid := false } ∧
      u.r.isOpen = true ∧ remainingBits u = rest ∧ u.r.rbits.toNat = s.r.rbits.toNat + (ser t).length

/-- R180, R264: a header cut short anywhere, down to nothing, is no header, and DESER raises TRUNC_HEADER on it and
hands back no tree. -/
def Obligations.TruncatedHeaderFaults : Prop :=
  ∀ (t : Machine.Tree) (p q : List Bool), ser t = p ++ q → q ≠ [] →
    deser p = none ∧
    ∀ s : State, s.flt.faulted = false → s.r.isOpen = true → sourceReliable s → remainingBits s = p →
      t.size ≤ 511 → readRoom s p.length →
      ∃ u, exec .deser s = .next u ∧ u.flt = { faulted := true, code := .truncHeader, cmdw := 0x2400#16 } ∧
        u.ctl.treeValid = false ∧ u.r.isOpen = false ∧ u.r.eos = true ∧
        u.r.rbits.toNat = s.r.rbits.toNat + p.length

/-- R178: `deser(ser(t) ++ s)` is `(t, s)`; and a header that SER wrote to a stream that was closed makes DESER rebuild
TM entry for entry. -/
def Obligations.HeaderRoundTrips : Prop :=
  (∀ (t : Machine.Tree) (s : List Bool), deser (ser t ++ s) = some (t, s)) ∧
  (∀ (a b : State) (t : Machine.Tree),
    a.flt.faulted = false → a.w.isOpen = false → a.ctl.treeValid = true → HoldsTree a.mem t → t.size ≤ 511 →
    sinkReliable a → a.env.snk.offered = some [] →
    b.flt.faulted = false → b.r.isOpen = false → sourceReliable b →
    ∃ a1 b1, runHost [issue .openw, issue .ser, issue .closew] a = some a1 ∧
      runHost [.offerSource a1.env.snk.data, issue .openr, issue .deser] b = some b1 ∧
      a1.flt.faulted = false ∧ b1.flt.faulted = false ∧ b1.ctl.treeValid = true ∧ b1.mem.tm = a.mem.tm)

/-! ### The code map and the encoder -/

/-- R200 to R202: CMAP gives every leaf value of the tree its code and no other value one; the tree and everything
outside the code map stay. -/
def Obligations.CmapBuildsTheCodeMap : Prop :=
  ∀ (s : State) (t : Machine.Tree), s.flt.faulted = false → s.ctl.treeValid = true → HoldsTree s.mem t → t.size ≤ 511 →
    t.leaves.Nodup →
    ∃ u, exec .cmap s = .next u ∧ MemoryFrame s u ∧ HoldsCodes u.mem t ∧ u.mem.tm = s.mem.tm ∧
      u.ctl = { s.ctl with cmapValid := true, path := u.ctl.path } ∧
      (s.mem.stk = [] → u.mem.stk = []) ∧
      ∀ v, (cmLookup v u.mem.cm).isSome = true ↔ v ∈ t.leaves

/-- R201, R204, R269: CMAP raises DUP_SYMBOL on a tree with one value on two leaves; the tree stays valid and there is
no valid code map. -/
def Obligations.CmapRefusesRepeatedValues : Prop :=
  ∀ (s : State) (t : Machine.Tree), s.flt.faulted = false → s.ctl.treeValid = true → HoldsTree s.mem t → t.size ≤ 511 →
    ¬ t.leaves.Nodup →
    ∃ u, exec .cmap s = .next u ∧ u.flt = { faulted := true, code := .dupSymbol, cmdw := 0x2800#16 } ∧
      u.ctl.cmapValid = false ∧ u.ctl.treeValid = true ∧ u.mem.tm = s.mem.tm

/-- R202, R203: in a tree with at least two leaves and no repeated value no code is a prefix of another, every code is 1
to 255 bits long when the tree fits TM, and the sum of 2^(-len) is 1; the one code of a single-leaf tree is `1`. -/
def Obligations.CodesArePrefixFree : Prop :=
  (∀ v, codes (.leaf v) = [(v, [true])]) ∧
  ∀ l r : Machine.Tree, (Machine.Tree.node l r).leaves.Nodup →
    (∀ a b x y, codeOf (.node l r) a = some x → codeOf (.node l r) b = some y → a ≠ b → ¬ x <+: y) ∧
    ((Machine.Tree.node l r).size ≤ 511 → ∀ a x, codeOf (.node l r) a = some x → 1 ≤ x.length ∧ x.length ≤ 255) ∧
    ((codes (.node l r)).map fun e => ((1 : ℚ) / 2) ^ e.2.length).sum = 1

/-- R210: ENC writes the code of its byte, first choice first, and counts the byte; a full ENC_COUNT faults before any
bit is written. -/
def Obligations.EncWritesTheCode : Prop :=
  ∀ (v : Byte) (code : List Bool) (s : State), s.flt.faulted = false → s.w.isOpen = true →
    cmLookup v s.mem.cm = some code →
    (s.cnt.enc = BitVec.allOnes 64 → exec (.enc v) s = .next (raiseFault .countOvf (0x30#8 ++ v) s)) ∧
    (s.cnt.enc ≠ BitVec.allOnes 64 →
      exec (.enc v) s = finish (0x30#8 ++ v) ((writeBits code s).andThen fun u _ => .ok (countEncoded u) ())) ∧
    (s.cnt.enc ≠ BitVec.allOnes 64 → sinkReliable s → writeRoom s code.length →
      ∃ t, exec (.enc v) s = .next t ∧ PackerFrame s t ∧ t.w.isOpen = true ∧
        writtenBits t = writtenBits s ++ code ∧ t.w.wbits.toNat = s.w.wbits.toNat + code.length ∧
        t.cnt.enc.toNat = s.cnt.enc.toNat + 1 ∧ t.cnt.dec = s.cnt.dec)

/-- R212: encoding the bytes of `b` in order writes `payload(T, b)` and counts |b| bytes. -/
def Obligations.PayloadIsTheCodesInOrder : Prop :=
  ∀ (t : Machine.Tree) (b : List Byte) (s : State), s.flt.faulted = false → s.w.isOpen = true → HoldsCodes s.mem t →
    (∀ v ∈ b, v ∈ t.leaves) → sinkReliable s → writeRoom s (payload t b).length →
    s.cnt.enc.toNat + b.length < 2 ^ 64 →
    ∃ u, runHost (b.map fun v => issue (.enc v)) s = some u ∧ u.flt.faulted = false ∧ PackerFrame s u ∧
      writtenBits u = writtenBits s ++ payload t b ∧ u.cnt.enc.toNat = s.cnt.enc.toNat + b.length

/-! ### The decoder -/

/-- R221 to R225, R228, R230: DECODE hands the symbol sink exactly `dec(T, s, lim)`. In naive mode it reads to the end
and MIDTREE says whether the walk ended inside a code; in limit mode, when the stream holds enough symbols, it stops
with DEC_COUNT = DEC_LIMIT. In both it leaves unread exactly the bits that `decStop` leaves, reads the sentinel exactly
when `decStop` does, and with DEC_LIMIT = 0 makes no transfer at all (R228). -/
def Obligations.DecodeEmitsDec : Prop :=
  ∀ (s : State) (t : Machine.Tree), s.flt.faulted = false → s.r.isOpen = true → s.ctl.treeValid = true →
    HoldsTree s.mem t → t.size ≤ 511 → sourceReliable s → symReliable s → readRoom s (remainingBits s).length →
    (s.cfg.limitEn = true → s.cfg.decLimit.toNat ≤ (dec t (remainingBits s) (decodeLimit s)).length) →
    ∃ u, exec .decode s = .next u ∧ DecodeFrame s u ∧ u.r.isOpen = true ∧
      u.env.sym.data = s.env.sym.data ++ dec t (remainingBits s) (decodeLimit s) ∧
      u.cnt.dec.toNat = (dec t (remainingBits s) (decodeLimit s)).length ∧
      remainingBits u = (decStop t (remainingBits s) (decodeLimit s)).1 ∧
      u.r.eos = (s.r.eos || (decStop t (remainingBits s) (decodeLimit s)).2) ∧
      u.r.rbits.toNat + (remainingBits u).length = s.r.rbits.toNat + (remainingBits s).length ∧
      (s.cfg.limitEn = true → s.cfg.decLimit = 0#64 → u.r = s.r ∧ u.env = s.env) ∧
      (s.cfg.limitEn = false → remainingBits u = [] ∧ u.r.eos = true ∧
        u.ctl.midtree = endsMidTree t (remainingBits s)) ∧
      (s.cfg.limitEn = true → u.cnt.dec = s.cfg.decLimit ∧ u.ctl.midtree = false)

/-- R229, R271: in limit mode a stream with fewer symbols than DEC_LIMIT raises PAYLOAD_SHORT; the bytes already emitted
stay. -/
def Obligations.ShortPayloadFaults : Prop :=
  ∀ (s : State) (t : Machine.Tree), s.flt.faulted = false → s.r.isOpen = true → s.ctl.treeValid = true →
    HoldsTree s.mem t → t.size ≤ 511 → sourceReliable s → symReliable s → readRoom s (remainingBits s).length →
    s.cfg.limitEn = true → (dec t (remainingBits s) none).length < s.cfg.decLimit.toNat →
    ∃ u, exec .decode s = .next u ∧ u.flt = { faulted := true, code := .payloadShort, cmdw := 0x3800#16 } ∧
      u.env.sym.data = s.env.sym.data ++ dec t (remainingBits s) none ∧
      u.cnt.dec.toNat = (dec t (remainingBits s) none).length ∧ u.ctl.midtree = false

/-- R222, R263, R276: whatever the channels answer, DECODE hands the symbol sink the first symbols of `dec(T, s, lim)`,
in order, and DEC_COUNT says how many; it faults only with IO_SOURCE, IO_SYM, PAYLOAD_SHORT or COUNT_OVF. -/
def Obligations.DecodeFaultsArePrecise : Prop :=
  ∀ (s u : State) (t : Machine.Tree), s.flt.faulted = false → s.r.isOpen = true → s.ctl.treeValid = true →
    HoldsTree s.mem t → t.size ≤ 511 → exec .decode s = .next u →
    ∃ out, out <+: dec t (remainingBits s) (decodeLimit s) ∧ u.env.sym.data = s.env.sym.data ++ out ∧
      u.cnt.dec.toNat = out.length ∧ u.mem = s.mem ∧ u.res = s.res ∧ u.cnt.enc = s.cnt.enc ∧
      (u.flt.faulted = true → u.flt.cmdw = 0x3800#16 ∧
        (u.flt.code = .ioSource ∨ u.flt.code = .ioSym ∨ u.flt.code = .payloadShort ∨ u.flt.code = .countOvf))

/-- R98, R222, R224, R248 (log 9: that a payload bit by itself has DECODE's checks is the model's choice): inside DECODE
a fetched payload bit moves the cursor left or right; from a pending leaf it first emits the leaf and goes on from the
root; in a single-leaf tree `1` emits the symbol and `0` does nothing. Outside DECODE's conditions DECODE's own checks
answer. -/
def Obligations.PayloadBitsWalkTheTree : Prop :=
  (∀ s : State, s.flt.faulted = false → s.r.isOpen = false →
    exec .left s = .next (raiseFault .notOpen 0x3800#16 s) ∧
    exec .right s = .next (raiseFault .notOpen 0x3800#16 s)) ∧
  (∀ s : State, s.flt.faulted = false → s.r.isOpen = true → s.ctl.treeValid = false →
    exec .left s = .next (raiseFault .noTree 0x3800#16 s) ∧
    exec .right s = .next (raiseFault .noTree 0x3800#16 s)) ∧
  ∀ s : State, s.flt.faulted = false → s.r.isOpen = true → s.ctl.treeValid = true →
    (∀ v, HoldsTree s.mem (.leaf v) →
      exec .left s = .next s ∧
      (symReliable s → s.cnt.dec ≠ BitVec.allOnes 64 →
        ∃ u, exec .right s = .next u ∧ DecodeFrame s u ∧ u.r = s.r ∧ u.env.src = s.env.src ∧ u.ctl = s.ctl ∧
          u.env.sym.data = s.env.sym.data ++ [v] ∧ u.cnt.dec.toNat = s.cnt.dec.toNat + 1)) ∧
    (∀ l r, HoldsTree s.mem (.node l r) → (Machine.Tree.node l r).size ≤ 511 →
      (∀ x, s.mem.tm[s.ctl.cur.toNat]? = some (.int (some x)) →
        exec .left s = .next (s.setCtl { s.ctl with cur := s.ctl.cur + 1#9 }) ∧
        exec .right s = .next (s.setCtl { s.ctl with cur := x })) ∧
      (∀ v, s.mem.tm[s.ctl.cur.toNat]? = some (.leaf v) → symReliable s → s.cnt.dec ≠ BitVec.allOnes 64 →
        ∃ a b, exec .left s = .next a ∧ exec .right s = .next b ∧ DecodeFrame s a ∧ DecodeFrame s b ∧
          a.env.sym.data = s.env.sym.data ++ [v] ∧ b.env.sym.data = s.env.sym.data ++ [v] ∧
          a.cnt.dec.toNat = s.cnt.dec.toNat + 1 ∧ b.cnt.dec.toNat = s.cnt.dec.toNat + 1 ∧
          a.r = s.r ∧ b.r = s.r ∧ a.ctl = { s.ctl with cur := 1#9 } ∧
          b.ctl = { s.ctl with cur := BitVec.ofNat 9 (1 + l.size) }))

/-- R226, R227: naive decoding of a payload and its pad gives the bytes back for a single-leaf tree; otherwise it
appends ⌊p/k⌋ copies of the leftmost leaf's value, ends mid-tree exactly when `p mod k` is not 0, and gives exactly the
bytes back only when `p < k`. -/
def Obligations.NaiveDecodingAppendsPadSymbols : Prop :=
  ∀ (t : Machine.Tree) (b : List Byte) (p : Nat), t.leaves.Nodup → (∀ v ∈ b, v ∈ t.leaves) → p ≤ 7 →
    (∀ v, t = .leaf v → dec t (payload t b ++ List.replicate p false) none = b) ∧
    (∀ l r, t = .node l r →
      dec t (payload t b ++ List.replicate p false) none = b ++ List.replicate (p / t.depthL) t.leftmost ∧
      endsMidTree t (payload t b ++ List.replicate p false) = decide (p % t.depthL ≠ 0) ∧
      (dec t (payload t b ++ List.replicate p false) none = b ↔ p < t.depthL))

/-- R228: with the byte count as the limit, decoding a payload and its pad gives exactly the bytes, for every tree and
every pad. -/
def Obligations.LimitDecodingIsExact : Prop :=
  ∀ (t : Machine.Tree) (b : List Byte) (p : Nat), t.leaves.Nodup → (∀ v ∈ b, v ∈ t.leaves) →
    dec t (payload t b ++ List.replicate p false) (some b.length) = b

/-! ### Reset, registers, faults -/

/-- R49, R240, R300: RESET, in every state, also while FAULTED, puts every state element at its reset value and drops
both attachments, without a flush: the channels' contents, the source's position and what the host does next stay.
(`R.buf` at 0 is the model's choice, log 1.) -/
def Obligations.ResetRestoresTheResetState : Prop :=
  ∀ s : State, ∃ t, exec .reset s = .next t ∧
    t.w = { acc := 0#8, cnt := 0, isOpen := false, wbits := 0#64 } ∧
    t.r.rem = 0 ∧ t.r.isOpen = false ∧ t.r.eos = false ∧ t.r.rbits = 0#64 ∧
    t.res = 0#9 ∧ t.nn = 0 ∧ t.sp = 0 ∧ (∀ v, cmLookup v t.mem.cm = none) ∧
    t.ctl = { tload := false, treeValid := false, cmapValid := false, cur := 0#9, midtree := false, path := [] } ∧
    t.cnt = { enc := 0#64, dec := 0#64 } ∧ t.cfg = { limitEn := false, decLimit := 0#64 } ∧
    t.flt = { faulted := false, code := .none, cmdw := 0#16 } ∧
    t.env.snk = { s.env.snk with attached := false } ∧ t.env.src = { s.env.src with attached := false } ∧
    t.env.sym = s.env.sym ∧ t.env.inputs = s.env.inputs ∧ t.env.readData = s.env.readData

/-- R300, R302: the reset input between commands does what RESET does; in the middle of a command it leaves a prefix of
that command's channel transfers and then the reset state: the sinks hold what they held, then a prefix of what the
whole command would have added, all of it when every transfer had happened. How many transfers had happened is the
input's choice (log 8). A reset inside OPENW, which starts another sink, is left out. `State.resetWith` puts `R.buf` at 0,
which R49 leaves unspecified (log 1). -/
def Obligations.ResetInputKeepsATransferPrefix : Prop :=
  (∀ s : State, takeInput .resetInput s = exec .reset s) ∧
  ∀ (w : CmdWord) (k : Nat) (s : State), w ≠ 0x1000#16 →
    ∃ t u, takeWord w s = .next t ∧ takeInput (.resetDuring w k) s = .next u ∧
      u = State.resetWith u.env ∧ u.env.snk.attached = false ∧ u.env.src.attached = false ∧
      s.env.snk.data <+: u.env.snk.data ∧ u.env.snk.data <+: t.env.snk.data ∧
      s.env.sym.data <+: u.env.sym.data ∧ u.env.sym.data <+: t.env.sym.data ∧
      ((eventsSince s.env t.env).length ≤ k →
        u.env.snk.data = t.env.snk.data ∧ u.env.sym.data = t.env.sym.data ∧ u.env.src.pos = t.env.src.pos)

/-- R40, R48, R241 (log 13: the list of values read is the model's): a register read returns the register's value and
changes nothing else, also while FAULTED. -/
def Obligations.RegisterReadHasNoSideEffect : Prop :=
  ∀ (reg : BitVec 4) (s : State) (rest : List HostInput), s.env.inputs = .readReg reg :: rest →
    step s = .next (s.setEnv { s.env with inputs := rest, readData := s.env.readData ++ [readReg s reg] }) ∧
    (reg = 2#4 → readReg s reg = s.res.setWidth 64) ∧
    (reg = 3#4 → readReg s reg = if s.cfg.limitEn then 1#64 else 0#64) ∧
    (reg = 4#4 → readReg s reg = s.cfg.decLimit) ∧
    (reg = 5#4 → readReg s reg = s.cnt.enc) ∧
    (reg = 6#4 → readReg s reg = s.cnt.dec) ∧
    (reg = 7#4 → readReg s reg = s.w.wbits) ∧
    (reg = 8#4 → readReg s reg = s.r.rbits) ∧
    (reg = 9#4 → s.nn < 512 → (readReg s reg).toNat = s.nn) ∧
    (10 ≤ reg.toNat → readReg s reg = 0#64)

/-- R41, R42: the bits of STATUS and of FAULT, which no register write changes; both are 0 at reset. -/
def Obligations.StatusAndFaultFields : Prop :=
  readReg State.reset 0#4 = 0#64 ∧ readReg State.reset 1#4 = 0#64 ∧
  ∀ s : State,
    (readReg s 0#4).getLsbD 0 = false ∧
    (readReg s 0#4).getLsbD 1 = s.flt.faulted ∧
    (readReg s 0#4).getLsbD 2 = s.w.isOpen ∧
    (readReg s 0#4).getLsbD 3 = s.r.isOpen ∧
    (readReg s 0#4).getLsbD 4 = s.ctl.tload ∧
    (readReg s 0#4).getLsbD 5 = s.ctl.treeValid ∧
    (readReg s 0#4).getLsbD 6 = s.ctl.cmapValid ∧
    (readReg s 0#4).getLsbD 7 = s.r.eos ∧
    (readReg s 0#4).getLsbD 8 = s.ctl.midtree ∧
    (∀ i, 9 ≤ i → (readReg s 0#4).getLsbD i = false) ∧
    (readReg s 1#4).extractLsb' 0 4 = s.flt.code.toBits ∧
    (readReg s 1#4).extractLsb' 4 4 = 0#4 ∧
    (readReg s 1#4).extractLsb' 8 16 = s.flt.cmdw ∧
    (readReg s 1#4).extractLsb' 24 40 = 0#40 ∧
    (∀ v, writeReg s 0#4 v = s ∧ writeReg s 1#4 v = s)

/-- R33, R44, R45, R242: a register write sets LIMIT_EN from bit 0 of CFG or the whole of DEC_LIMIT, also while FAULTED;
every other write is ignored; nothing else changes. -/
def Obligations.RegisterWriteSetsTheConfiguration : Prop :=
  ∀ (reg : BitVec 4) (v : Counter) (s : State) (rest : List HostInput), s.env.inputs = .writeReg reg v :: rest →
    ∃ t, step s = .next t ∧ t.w = s.w ∧ t.r = s.r ∧ t.res = s.res ∧ t.mem = s.mem ∧ t.ctl = s.ctl ∧ t.cnt = s.cnt ∧
      t.flt = s.flt ∧ t.env = { s.env with inputs := rest } ∧
      (reg = 3#4 → t.cfg = { s.cfg with limitEn := v.getLsbD 0 }) ∧
      (reg = 4#4 → t.cfg = { s.cfg with decLimit := v }) ∧
      (reg ≠ 3#4 → reg ≠ 4#4 → t.cfg = s.cfg)

/-- R275: fault entry records the fault and the word, flushes an open writer best effort (not after IO_SINK) and
releases it, releases an open reader, ends a load, and leaves everything else. -/
def Obligations.FaultEntryClosesAndRecords : Prop :=
  ∀ (x : FaultCode) (w : CmdWord) (s : State),
    (raiseFault x w s).flt = { faulted := true, code := x, cmdw := w } ∧
    (raiseFault x w s).ctl = { s.ctl with tload := false } ∧
    (raiseFault x w s).w.isOpen = false ∧ (raiseFault x w s).w.wbits = s.w.wbits ∧
    (raiseFault x w s).r = (if s.r.isOpen then { s.r with isOpen := false, rem := 0 } else s.r) ∧
    (raiseFault x w s).res = s.res ∧ (raiseFault x w s).mem = s.mem ∧ (raiseFault x w s).cnt = s.cnt ∧
    (raiseFault x w s).cfg = s.cfg ∧ (raiseFault x w s).env.sym = s.env.sym ∧
    (raiseFault x w s).env.src = (if s.r.isOpen then { s.env.src with attached := false } else s.env.src) ∧
    (raiseFault x w s).env.inputs = s.env.inputs ∧ (raiseFault x w s).env.readData = s.env.readData ∧
    (raiseFault x w s).env.snk.attached = (if s.w.isOpen then false else s.env.snk.attached) ∧
    (s.w.isOpen = true → x ≠ .ioSink → s.w.cnt ≠ 0 → s.env.snk.answer = true →
      (raiseFault x w s).env.snk.data = s.env.snk.data ++ [s.w.acc <<< (8 - s.w.cnt.val)] ∧
      (raiseFault x w s).w.acc = 0#8 ∧ (raiseFault x w s).w.cnt = 0) ∧
    ((s.w.isOpen = false ∨ x = .ioSink ∨ s.w.cnt = 0 ∨ s.env.snk.answer = false) →
      (raiseFault x w s).env.snk.data = s.env.snk.data ∧
      (raiseFault x w s).w.acc = s.w.acc ∧ (raiseFault x w s).w.cnt = s.w.cnt)

/-! ### Whole-machine rules -/

/-- R22, R24, R25, R32, R33: RES is written by RBIT, RBYTE and RESET only; CFG and DEC_LIMIT by no command but RESET; WBITS
by OPENW, WBIT, WBYTE, SER, ENC and RESET only; ENC_COUNT by OPENW, ENC and RESET only; DEC_COUNT by DECODE, the payload
bits it fetches and RESET only; RBITS by OPENR, RBIT, RBYTE, DESER, DECODE and RESET only. -/
def Obligations.RegistersHaveTheirOnlyWriters : Prop :=
  ∀ (i : Instr) (s t : State), exec i s = .next t →
    (i ≠ .rbit → i ≠ .rbyte → i ≠ .reset → t.res = s.res) ∧
    (i ≠ .reset → t.cfg = s.cfg) ∧
    (i ≠ .openw → i ≠ .reset → (∀ v, i ≠ .wbit v) → (∀ v, i ≠ .wbyte v) → i ≠ .ser → (∀ v, i ≠ .enc v) →
      t.w.wbits = s.w.wbits) ∧
    (i ≠ .openw → i ≠ .reset → (∀ v, i ≠ .enc v) → t.cnt.enc = s.cnt.enc) ∧
    (i ≠ .decode → i ≠ .left → i ≠ .right → i ≠ .reset → t.cnt.dec = s.cnt.dec) ∧
    (i ≠ .openr → i ≠ .reset → i ≠ .rbit → i ≠ .rbyte → i ≠ .deser → i ≠ .decode → t.r.rbits = s.r.rbits)

/-- R26, R29, R79: TM is changed by the tree commands, the header tokens and RESET only, CM besides by CMAP only; the
symbol sink by DECODE and the payload bits only. -/
def Obligations.MemoriesHaveTheirOnlyWriters : Prop :=
  ∀ (i : Instr) (s t : State), exec i s = .next t →
    (i ≠ .tbegin → i ≠ .tnode → (∀ v, i ≠ .tleaf v) → i ≠ .deser → (∀ v, i ≠ .leaf v) → i ≠ .internal →
      i ≠ .reset → t.mem.tm = s.mem.tm) ∧
    (i ≠ .tbegin → i ≠ .deser → i ≠ .cmap → i ≠ .reset → t.mem.cm = s.mem.cm) ∧
    (i ≠ .decode → i ≠ .left → i ≠ .right → t.env.sym = s.env.sym)

/-- R18, R75 (d): a word on the command port changes the channels only through its transfers, in their order: replaying
the transfers gives the channels. The list of transfers, `env.trace`, is the model's: DESIGN CHOICE, log 14. -/
def Obligations.ChannelsChangeByTransfersOnly : Prop :=
  ∀ (w : CmdWord) (s t : State), takeWord w s = .next t →
    s.env.trace <+: t.env.trace ∧ t.env = (eventsSince s.env t.env).foldl Env.apply s.env

/-- R64, R72: no command takes back what a sink was handed or moves the source back, but an open (OPENW, OPENR), which
attaches to what the host provides. -/
def Obligations.SinksOnlyGrow : Prop :=
  ∀ (i : Instr) (s t : State), exec i s = .next t →
    (i ≠ .openw → s.env.snk.data <+: t.env.snk.data) ∧
    s.env.sym.data <+: t.env.sym.data ∧
    (i ≠ .openr → t.env.src.data = s.env.src.data ∧ s.env.src.pos ≤ t.env.src.pos)

/-- The invariants hold after reset (R49). -/
def Obligations.InvariantsHoldAtReset : Prop := Inv State.reset ∧ TreeInv State.reset

/-- R21, R25, R34, R39, R64, R127, R275: every step keeps the bookkeeping invariant. -/
def Obligations.StepKeepsInv : Prop := ∀ s t : State, Inv s → step s = .next t → Inv t

/-- R26 to R29, R38, R79: every step keeps the tree invariant: a valid tree is a well-formed tree, a load is a prefix of
one, a valid code map is the code map of the tree in TM. -/
def Obligations.StepKeepsTreeInv : Prop := ∀ s t : State, TreeInv s → step s = .next t → TreeInv t

/-! ### The host procedures -/

/-- R151 to R155: for a non-empty buffer the Tree Builder gives a tree with exactly the buffer's byte values on its
leaves, each once, and it fits TM; with one distinct value it is a single leaf; for the empty buffer there is no tree and
COMPRESS reports EMPTY_INPUT. -/
def Obligations.TreeBuilderCoversTheInput : Prop :=
  (∀ b : List Byte, b ≠ [] →
    ∃ t, buildTree (frequencies b) = some t ∧ t.leaves.Nodup ∧ (∀ v, v ∈ t.leaves ↔ v ∈ b) ∧ t.size ≤ 511 ∧
      ∀ v, (∀ x ∈ b, x = v) → t = .leaf v) ∧
  compress [] = .error .emptyInput

/-- R243: on success COMPRESS leaves `pack(ser(T) ++ payload(T, B))` in the sink, |B| in ENC_COUNT, and the sink
released. The bound keeps WBITS and ENC_COUNT in range (log 17). What the sink held when it was opened, and that a host
that offers no new sink keeps the old one, is the model's (log 7), and so are the list of values read (log 13), the order of the steps R243 lets swap, and that its
optional step 10 is done (log 25). -/
def Obligations.CompressWritesHeaderAndPayload : Prop :=
  ∀ (b : List Byte) (is : List HostInput) (s : State), compress b = .ok is →
    s.flt.faulted = false → s.w.isOpen = false → sinkReliable s → 255 * b.length + 2560 < 2 ^ 64 →
    ∃ t u, buildTree (frequencies b) = some t ∧ runHost is s = some u ∧ u.flt.faulted = false ∧
      u.env.snk.data = s.env.snk.offered.getD s.env.snk.data ++ pack (ser t ++ payload t b) ∧
      u.env.snk.attached = false ∧ u.cnt.enc.toNat = b.length ∧
      u.w.wbits.toNat = (ser t).length + (payload t b).length ∧
      u.env.readData = s.env.readData ++ [BitVec.ofNat 64 b.length]

/-- R245: decompressing in limit mode what COMPRESS wrote gives the input back, for every non-empty input. The bound
keeps the bit counters in range (log 17: R245 names |B| < 2^64, which does not). -/
def Obligations.DecompressInvertsCompress : Prop :=
  ∀ (b : List Byte) (is : List HostInput) (s d : State), b ≠ [] → compress b = .ok is →
    255 * b.length + 2568 < 2 ^ 64 →
    s.flt.faulted = false → s.w.isOpen = false → sinkReliable s → s.env.snk.offered = some [] →
    d.flt.faulted = false → d.r.isOpen = false → sourceReliable d → symReliable d →
    ∃ u v, runHost is s = some u ∧
      runHost (decompress u.env.snk.data (some (BitVec.ofNat 64 b.length))) d = some v ∧
      v.flt.faulted = false ∧ v.env.sym.data = d.env.sym.data ++ b
end

