-- ==== Sys2Proof/Laws/Bits.lean ====
section
/-! SUPPORT. Bits, bytes and counters: `bits8`, `val8`, `shiftIn` (00_scope.md R10, 40_bitstream.md R122), the padded
byte (20_memory.md R70), and the counters' increment (46_system_and_macros.md R247). -/

namespace Sys2Proof

@[simp] theorem bits8_length (v : Byte) : (bits8 v).length = 8 := rfl

theorem shiftIn_getLsbD (v : Byte) (b : Bool) (i : Nat) :
    (shiftIn v b).getLsbD i = (decide (i < 8) && (if i = 0 then b else v.getLsbD (i - 1))) := by
  unfold shiftIn
  rcases i with _ | i
  · simp
  · by_cases h : i + 1 < 8 <;> simp [h, BitVec.getLsbD_eq_getElem, Nat.lt_of_succ_lt]

theorem shiftIn_getElem (v : Byte) (b : Bool) (i : Nat) (h : i < 8) :
    (shiftIn v b)[i] = if i = 0 then b else v.getLsbD (i - 1) := by
  rw [← BitVec.getLsbD_eq_getElem, shiftIn_getLsbD]; simp [h]

theorem val8_bits8 (v : Byte) : val8 (bits8 v) = v := by
  apply BitVec.eq_of_getLsbD_eq
  intro i hi
  have : i = 0 ∨ i = 1 ∨ i = 2 ∨ i = 3 ∨ i = 4 ∨ i = 5 ∨ i = 6 ∨ i = 7 := by omega
  rcases this with rfl | rfl | rfl | rfl | rfl | rfl | rfl | rfl <;>
    simp [val8, bits8, List.foldl, shiftIn_getElem]

theorem bits8_val8 {l : List Bool} (h : l.length = 8) : bits8 (val8 l) = l := by
  match l, h with
  | [a, b, c, d, e, f, g, i], _ => simp [val8, bits8, List.foldl, shiftIn_getElem]

/-- `val8` of seven bits and an eighth. -/
theorem val8_append (l : List Bool) (b : Bool) : val8 (l ++ [b]) = shiftIn (val8 l) b := by
  simp [val8, List.foldl_append]

theorem shiftIn_toNat {v : Byte} {n : Nat} (h : v.toNat < 2 ^ n) (hn : n < 8) (b : Bool) :
    (shiftIn v b).toNat < 2 ^ (n + 1) := by
  apply Nat.lt_pow_two_of_testBit
  intro i hi
  have hv : ∀ j, n ≤ j → v.getLsbD j = false := fun j hj =>
    Nat.testBit_lt_two_pow (Nat.lt_of_lt_of_le h (Nat.pow_le_pow_right (by decide) hj))
  have := shiftIn_getLsbD v b i
  rw [BitVec.getLsbD] at this
  rw [this, if_neg (by omega), hv (i - 1) (by omega), Bool.and_false]

namespace Machine

variable {p : Params}

/-- A counter that is not at its last value counts one up without wrapping (R247 (a)). -/
theorem atMax_iff (c : Counter p) : atMax c = true ↔ c.toNat = 2 ^ p.cntW - 1 := by
  unfold atMax counterMax
  rw [beq_iff_eq, ← BitVec.toNat_inj, BitVec.toNat_allOnes]

theorem atMax_false {c : Counter p} (h : c.toNat + 1 < 2 ^ p.cntW) : atMax c = false := by
  rw [Bool.eq_false_iff, ne_eq, atMax_iff]; omega

theorem counter_succ {c : Counter p} (h : atMax c = false) : (c + 1#p.cntW).toNat = c.toNat + 1 := by
  rw [Bool.eq_false_iff, ne_eq, atMax_iff] at h
  have hlt : c.toNat + 1 < 2 ^ p.cntW := by have := c.isLt; omega
  rw [BitVec.toNat_add, BitVec.toNat_ofNat, Nat.mod_eq_of_lt (a := 1) (by omega), Nat.mod_eq_of_lt hlt]

/-- The index width holds every index (R26). -/
theorem index_toNat {n : Nat} (h : n < p.nodeCap) : (BitVec.ofNat p.idxW n).toNat = n := by
  have := p.nodeCap_le
  rw [BitVec.toNat_ofNat, Nat.mod_eq_of_lt (by omega)]

/-- The packer's bits after one more bit that does not fill the byte (R122). -/
theorem bufferedBits_shiftIn (w : Packer p) (b : Bool) (c : Counter p) (h : w.cnt ≠ 7) :
    bufferedBits { w with acc := shiftIn w.acc b, cnt := w.cnt + 1, wbits := c } = bufferedBits w ++ [b] := by
  obtain ⟨acc, ⟨n, hn⟩, op, wb⟩ := w
  have h7 : n < 7 := by
    rcases Nat.lt_or_ge n 7 with h7 | h7
    · exact h7
    · exact absurd (Fin.ext (by simpa using (by omega : n = 7))) h
  have : (⟨n, hn⟩ + 1 : Fin 8).val = n + 1 := by
    rw [Fin.val_add]; simpa using (by omega : (n + 1) % 8 = n + 1)
  simp only [bufferedBits, this, List.range_succ_eq_map, List.reverse_cons, List.map_append, List.map_cons,
    List.map_nil, List.map_reverse, List.map_map]
  congr 1
  · congr 1
    apply List.map_congr_left
    intro i hi
    have := List.mem_range.mp hi
    simp [shiftIn_getLsbD]
    omega
  · simp [shiftIn_getElem]

/-- The byte the packer emits with its eighth bit (R122). -/
theorem bits8_full (w : Packer p) (b : Bool) (h : w.cnt = 7) :
    bits8 (shiftIn w.acc b) = bufferedBits w ++ [b] := by
  simp [bufferedBits, h, bits8, shiftIn_getElem, List.range_succ]

/-- The byte a flush emits: the buffered bits, then zeros (R70, R124). -/
theorem bits8_padByte (w : Packer p) :
    bits8 (padByte w.acc w.cnt) = bufferedBits w ++ List.replicate (8 - w.cnt.val) false := by
  obtain ⟨acc, ⟨n, hn⟩, op, wb⟩ := w
  have : n = 0 ∨ n = 1 ∨ n = 2 ∨ n = 3 ∨ n = 4 ∨ n = 5 ∨ n = 6 ∨ n = 7 := by omega
  rcases this with rfl | rfl | rfl | rfl | rfl | rfl | rfl | rfl <;>
    simp [bufferedBits, padByte, bits8, List.range_succ, List.replicate]

@[simp] theorem bufferedBits_length (w : Packer p) : (bufferedBits w).length = w.cnt.val := by simp [bufferedBits]

@[simp] theorem undeliveredBits_length (r : Unpacker p) : (undeliveredBits r).length = r.rem.val := by
  simp [undeliveredBits]

/-- The unpacker's bits: the next one is `R.buf[R.rem-1]` (R23). -/
theorem undeliveredBits_cons (r : Unpacker p) (h : r.rem ≠ 0) :
    undeliveredBits r = r.buf.getLsbD (r.rem.val - 1) ::
      undeliveredBits { r with rem := ⟨r.rem.val - 1, by omega⟩ } := by
  obtain ⟨buf, ⟨n, hn⟩, op, e, c⟩ := r
  rcases n with _ | n
  · exact absurd rfl h
  · simp [undeliveredBits, List.range_succ]

@[simp] theorem unpack_nil : unpack [] = [] := rfl
@[simp] theorem unpack_cons (b : Byte) (l : List Byte) : unpack (b :: l) = bits8 b ++ unpack l := rfl
@[simp] theorem unpack_append (l m : List Byte) : unpack (l ++ m) = unpack l ++ unpack m := by
  simp [unpack, List.flatMap_append]
@[simp] theorem unpack_length (l : List Byte) : (unpack l).length = 8 * l.length := by
  induction l with
  | nil => rfl
  | cons b l ih => simp [ih]; omega

end Machine

end Sys2Proof
end

