-- ==== Sys2Proof/Laws/State.lean ====
section
/-! SUPPORT. One lemma per field of State per update of State, so that no proof unfolds a record update; and the same
for a channel event, which changes the environment only. -/

namespace Sys2Proof.Machine.State

variable {p : Params}

@[simp] theorem setW_w (s : State p) (x : Packer p) : (s.setW x).w = x := rfl
@[simp] theorem setR_w (s : State p) (x : Unpacker p) : (s.setR x).w = s.w := rfl
@[simp] theorem setRes_w (s : State p) (x : BitVec 9) : (s.setRes x).w = s.w := rfl
@[simp] theorem setMem_w (s : State p) (x : Memory p) : (s.setMem x).w = s.w := rfl
@[simp] theorem setCtl_w (s : State p) (x : Control p) : (s.setCtl x).w = s.w := rfl
@[simp] theorem setCnt_w (s : State p) (x : Counts p) : (s.setCnt x).w = s.w := rfl
@[simp] theorem setCfg_w (s : State p) (x : Cfg p) : (s.setCfg x).w = s.w := rfl
@[simp] theorem setFlt_w (s : State p) (x : FaultRecord) : (s.setFlt x).w = s.w := rfl
@[simp] theorem setEnv_w (s : State p) (x : Env p) : (s.setEnv x).w = s.w := rfl

@[simp] theorem setW_r (s : State p) (x : Packer p) : (s.setW x).r = s.r := rfl
@[simp] theorem setR_r (s : State p) (x : Unpacker p) : (s.setR x).r = x := rfl
@[simp] theorem setRes_r (s : State p) (x : BitVec 9) : (s.setRes x).r = s.r := rfl
@[simp] theorem setMem_r (s : State p) (x : Memory p) : (s.setMem x).r = s.r := rfl
@[simp] theorem setCtl_r (s : State p) (x : Control p) : (s.setCtl x).r = s.r := rfl
@[simp] theorem setCnt_r (s : State p) (x : Counts p) : (s.setCnt x).r = s.r := rfl
@[simp] theorem setCfg_r (s : State p) (x : Cfg p) : (s.setCfg x).r = s.r := rfl
@[simp] theorem setFlt_r (s : State p) (x : FaultRecord) : (s.setFlt x).r = s.r := rfl
@[simp] theorem setEnv_r (s : State p) (x : Env p) : (s.setEnv x).r = s.r := rfl

@[simp] theorem setW_res (s : State p) (x : Packer p) : (s.setW x).res = s.res := rfl
@[simp] theorem setR_res (s : State p) (x : Unpacker p) : (s.setR x).res = s.res := rfl
@[simp] theorem setRes_res (s : State p) (x : BitVec 9) : (s.setRes x).res = x := rfl
@[simp] theorem setMem_res (s : State p) (x : Memory p) : (s.setMem x).res = s.res := rfl
@[simp] theorem setCtl_res (s : State p) (x : Control p) : (s.setCtl x).res = s.res := rfl
@[simp] theorem setCnt_res (s : State p) (x : Counts p) : (s.setCnt x).res = s.res := rfl
@[simp] theorem setCfg_res (s : State p) (x : Cfg p) : (s.setCfg x).res = s.res := rfl
@[simp] theorem setFlt_res (s : State p) (x : FaultRecord) : (s.setFlt x).res = s.res := rfl
@[simp] theorem setEnv_res (s : State p) (x : Env p) : (s.setEnv x).res = s.res := rfl

@[simp] theorem setW_mem (s : State p) (x : Packer p) : (s.setW x).mem = s.mem := rfl
@[simp] theorem setR_mem (s : State p) (x : Unpacker p) : (s.setR x).mem = s.mem := rfl
@[simp] theorem setRes_mem (s : State p) (x : BitVec 9) : (s.setRes x).mem = s.mem := rfl
@[simp] theorem setMem_mem (s : State p) (x : Memory p) : (s.setMem x).mem = x := rfl
@[simp] theorem setCtl_mem (s : State p) (x : Control p) : (s.setCtl x).mem = s.mem := rfl
@[simp] theorem setCnt_mem (s : State p) (x : Counts p) : (s.setCnt x).mem = s.mem := rfl
@[simp] theorem setCfg_mem (s : State p) (x : Cfg p) : (s.setCfg x).mem = s.mem := rfl
@[simp] theorem setFlt_mem (s : State p) (x : FaultRecord) : (s.setFlt x).mem = s.mem := rfl
@[simp] theorem setEnv_mem (s : State p) (x : Env p) : (s.setEnv x).mem = s.mem := rfl

@[simp] theorem setW_ctl (s : State p) (x : Packer p) : (s.setW x).ctl = s.ctl := rfl
@[simp] theorem setR_ctl (s : State p) (x : Unpacker p) : (s.setR x).ctl = s.ctl := rfl
@[simp] theorem setRes_ctl (s : State p) (x : BitVec 9) : (s.setRes x).ctl = s.ctl := rfl
@[simp] theorem setMem_ctl (s : State p) (x : Memory p) : (s.setMem x).ctl = s.ctl := rfl
@[simp] theorem setCtl_ctl (s : State p) (x : Control p) : (s.setCtl x).ctl = x := rfl
@[simp] theorem setCnt_ctl (s : State p) (x : Counts p) : (s.setCnt x).ctl = s.ctl := rfl
@[simp] theorem setCfg_ctl (s : State p) (x : Cfg p) : (s.setCfg x).ctl = s.ctl := rfl
@[simp] theorem setFlt_ctl (s : State p) (x : FaultRecord) : (s.setFlt x).ctl = s.ctl := rfl
@[simp] theorem setEnv_ctl (s : State p) (x : Env p) : (s.setEnv x).ctl = s.ctl := rfl

@[simp] theorem setW_cnt (s : State p) (x : Packer p) : (s.setW x).cnt = s.cnt := rfl
@[simp] theorem setR_cnt (s : State p) (x : Unpacker p) : (s.setR x).cnt = s.cnt := rfl
@[simp] theorem setRes_cnt (s : State p) (x : BitVec 9) : (s.setRes x).cnt = s.cnt := rfl
@[simp] theorem setMem_cnt (s : State p) (x : Memory p) : (s.setMem x).cnt = s.cnt := rfl
@[simp] theorem setCtl_cnt (s : State p) (x : Control p) : (s.setCtl x).cnt = s.cnt := rfl
@[simp] theorem setCnt_cnt (s : State p) (x : Counts p) : (s.setCnt x).cnt = x := rfl
@[simp] theorem setCfg_cnt (s : State p) (x : Cfg p) : (s.setCfg x).cnt = s.cnt := rfl
@[simp] theorem setFlt_cnt (s : State p) (x : FaultRecord) : (s.setFlt x).cnt = s.cnt := rfl
@[simp] theorem setEnv_cnt (s : State p) (x : Env p) : (s.setEnv x).cnt = s.cnt := rfl

@[simp] theorem setW_cfg (s : State p) (x : Packer p) : (s.setW x).cfg = s.cfg := rfl
@[simp] theorem setR_cfg (s : State p) (x : Unpacker p) : (s.setR x).cfg = s.cfg := rfl
@[simp] theorem setRes_cfg (s : State p) (x : BitVec 9) : (s.setRes x).cfg = s.cfg := rfl
@[simp] theorem setMem_cfg (s : State p) (x : Memory p) : (s.setMem x).cfg = s.cfg := rfl
@[simp] theorem setCtl_cfg (s : State p) (x : Control p) : (s.setCtl x).cfg = s.cfg := rfl
@[simp] theorem setCnt_cfg (s : State p) (x : Counts p) : (s.setCnt x).cfg = s.cfg := rfl
@[simp] theorem setCfg_cfg (s : State p) (x : Cfg p) : (s.setCfg x).cfg = x := rfl
@[simp] theorem setFlt_cfg (s : State p) (x : FaultRecord) : (s.setFlt x).cfg = s.cfg := rfl
@[simp] theorem setEnv_cfg (s : State p) (x : Env p) : (s.setEnv x).cfg = s.cfg := rfl

@[simp] theorem setW_flt (s : State p) (x : Packer p) : (s.setW x).flt = s.flt := rfl
@[simp] theorem setR_flt (s : State p) (x : Unpacker p) : (s.setR x).flt = s.flt := rfl
@[simp] theorem setRes_flt (s : State p) (x : BitVec 9) : (s.setRes x).flt = s.flt := rfl
@[simp] theorem setMem_flt (s : State p) (x : Memory p) : (s.setMem x).flt = s.flt := rfl
@[simp] theorem setCtl_flt (s : State p) (x : Control p) : (s.setCtl x).flt = s.flt := rfl
@[simp] theorem setCnt_flt (s : State p) (x : Counts p) : (s.setCnt x).flt = s.flt := rfl
@[simp] theorem setCfg_flt (s : State p) (x : Cfg p) : (s.setCfg x).flt = s.flt := rfl
@[simp] theorem setFlt_flt (s : State p) (x : FaultRecord) : (s.setFlt x).flt = x := rfl
@[simp] theorem setEnv_flt (s : State p) (x : Env p) : (s.setEnv x).flt = s.flt := rfl

@[simp] theorem setW_env (s : State p) (x : Packer p) : (s.setW x).env = s.env := rfl
@[simp] theorem setR_env (s : State p) (x : Unpacker p) : (s.setR x).env = s.env := rfl
@[simp] theorem setRes_env (s : State p) (x : BitVec 9) : (s.setRes x).env = s.env := rfl
@[simp] theorem setMem_env (s : State p) (x : Memory p) : (s.setMem x).env = s.env := rfl
@[simp] theorem setCtl_env (s : State p) (x : Control p) : (s.setCtl x).env = s.env := rfl
@[simp] theorem setCnt_env (s : State p) (x : Counts p) : (s.setCnt x).env = s.env := rfl
@[simp] theorem setCfg_env (s : State p) (x : Cfg p) : (s.setCfg x).env = s.env := rfl
@[simp] theorem setFlt_env (s : State p) (x : FaultRecord) : (s.setFlt x).env = s.env := rfl
@[simp] theorem setEnv_env (s : State p) (x : Env p) : (s.setEnv x).env = x := rfl

/-- Two writes of one field: the later stands. -/
@[simp] theorem setW_setW (s : State p) (x y : Packer p) : (s.setW x).setW y = s.setW y := rfl
@[simp] theorem setR_setR (s : State p) (x y : Unpacker p) : (s.setR x).setR y = s.setR y := rfl
@[simp] theorem setRes_setRes (s : State p) (x y : BitVec 9) : (s.setRes x).setRes y = s.setRes y := rfl
@[simp] theorem setMem_setMem (s : State p) (x y : Memory p) : (s.setMem x).setMem y = s.setMem y := rfl
@[simp] theorem setCtl_setCtl (s : State p) (x y : Control p) : (s.setCtl x).setCtl y = s.setCtl y := rfl
@[simp] theorem setCnt_setCnt (s : State p) (x y : Counts p) : (s.setCnt x).setCnt y = s.setCnt y := rfl
@[simp] theorem setCfg_setCfg (s : State p) (x y : Cfg p) : (s.setCfg x).setCfg y = s.setCfg y := rfl
@[simp] theorem setFlt_setFlt (s : State p) (x y : FaultRecord) : (s.setFlt x).setFlt y = s.setFlt y := rfl
@[simp] theorem setEnv_setEnv (s : State p) (x y : Env p) : (s.setEnv x).setEnv y = s.setEnv y := rfl

/-- Writing what is there changes nothing. -/
@[simp] theorem setW_self (s : State p) : s.setW s.w = s := rfl
@[simp] theorem setR_self (s : State p) : s.setR s.r = s := rfl
@[simp] theorem setRes_self (s : State p) : s.setRes s.res = s := rfl
@[simp] theorem setMem_self (s : State p) : s.setMem s.mem = s := rfl
@[simp] theorem setCtl_self (s : State p) : s.setCtl s.ctl = s := rfl
@[simp] theorem setCnt_self (s : State p) : s.setCnt s.cnt = s := rfl
@[simp] theorem setCfg_self (s : State p) : s.setCfg s.cfg = s := rfl
@[simp] theorem setFlt_self (s : State p) : s.setFlt s.flt = s := rfl
@[simp] theorem setEnv_self (s : State p) : s.setEnv s.env = s := rfl

@[simp] theorem port_w (s : State p) (ev : PortEvent) : (s.port ev).w = s.w := rfl
@[simp] theorem port_r (s : State p) (ev : PortEvent) : (s.port ev).r = s.r := rfl
@[simp] theorem port_res (s : State p) (ev : PortEvent) : (s.port ev).res = s.res := rfl
@[simp] theorem port_mem (s : State p) (ev : PortEvent) : (s.port ev).mem = s.mem := rfl
@[simp] theorem port_ctl (s : State p) (ev : PortEvent) : (s.port ev).ctl = s.ctl := rfl
@[simp] theorem port_cnt (s : State p) (ev : PortEvent) : (s.port ev).cnt = s.cnt := rfl
@[simp] theorem port_cfg (s : State p) (ev : PortEvent) : (s.port ev).cfg = s.cfg := rfl
@[simp] theorem port_flt (s : State p) (ev : PortEvent) : (s.port ev).flt = s.flt := rfl
@[simp] theorem port_env (s : State p) (ev : PortEvent) : (s.port ev).env = s.env.apply ev := rfl

@[simp] theorem resetWith_w (e : Env p) : (State.resetWith e).w = Packer.reset := rfl
@[simp] theorem resetWith_r (e : Env p) : (State.resetWith e).r = Unpacker.reset := rfl
@[simp] theorem resetWith_res (e : Env p) : (State.resetWith e).res = 0#9 := rfl
@[simp] theorem resetWith_mem (e : Env p) : (State.resetWith e).mem = Memory.reset := rfl
@[simp] theorem resetWith_ctl (e : Env p) : (State.resetWith e).ctl = Control.reset := rfl
@[simp] theorem resetWith_cnt (e : Env p) : (State.resetWith e).cnt = Counts.reset := rfl
@[simp] theorem resetWith_cfg (e : Env p) : (State.resetWith e).cfg = Cfg.reset := rfl
@[simp] theorem resetWith_flt (e : Env p) : (State.resetWith e).flt = FaultRecord.reset := rfl
@[simp] theorem resetWith_env (e : Env p) : (State.resetWith e).env = e := rfl

@[ext] theorem ext_fields {s t : State p} (w : s.w = t.w) (r : s.r = t.r) (res : s.res = t.res) (mem : s.mem = t.mem)
    (ctl : s.ctl = t.ctl) (cnt : s.cnt = t.cnt) (cfg : s.cfg = t.cfg) (flt : s.flt = t.flt) (env : s.env = t.env) :
    s = t := by
  cases s; cases t; simp_all

end Sys2Proof.Machine.State
end

