-- ==== Sys2Proof/Laws/Channels.lean ====
section
/-! SUPPORT. What a channel event does to each part of the environment (20_memory.md R63 to R66): one lemma per event
and part, so that no proof unfolds `Env.effect`. -/

namespace Sys2Proof.Machine.Env

variable {p : Params}

@[simp] theorem apply_inputs (e : Env p) (ev : PortEvent) : (e.apply ev).inputs = e.inputs := by
  unfold apply effect; split <;> rfl

@[simp] theorem apply_readData (e : Env p) (ev : PortEvent) : (e.apply ev).readData = e.readData := by
  unfold apply effect; split <;> rfl

@[simp] theorem apply_trace (e : Env p) (ev : PortEvent) : (e.apply ev).trace = e.trace ++ [ev] := rfl

@[simp] theorem apply_snkOpen_snk (e : Env p) : (e.apply (.snkOpen true)).snk =
    { data := e.snk.offered.getD e.snk.data, attached := true, answers := e.snk.answers.tail, offered := none } := rfl
@[simp] theorem apply_snkOpenFail_snk (e : Env p) : (e.apply (.snkOpen false)).snk =
    { e.snk with answers := e.snk.answers.tail } := rfl
@[simp] theorem apply_snkEmit_snk (e : Env p) (b : Byte) : (e.apply (.snkEmit b true)).snk =
    { e.snk with data := e.snk.data ++ [b], answers := e.snk.answers.tail } := rfl
@[simp] theorem apply_snkEmitFail_snk (e : Env p) (b : Byte) : (e.apply (.snkEmit b false)).snk =
    { e.snk with answers := e.snk.answers.tail } := rfl
@[simp] theorem apply_snkRelease_snk (e : Env p) : (e.apply .snkRelease).snk = { e.snk with attached := false } := rfl
@[simp] theorem apply_srcOpen_snk (e : Env p) (ok : Bool) : (e.apply (.srcOpen ok)).snk = e.snk := by cases ok <;> rfl
@[simp] theorem apply_srcFetch_snk (e : Env p) (a : FetchAnswer) : (e.apply (.srcFetch a)).snk = e.snk := by
  cases a <;> rfl
@[simp] theorem apply_srcRelease_snk (e : Env p) : (e.apply .srcRelease).snk = e.snk := rfl
@[simp] theorem apply_symEmit_snk (e : Env p) (b : Byte) (ok : Bool) : (e.apply (.symEmit b ok)).snk = e.snk := by
  cases ok <;> rfl

@[simp] theorem apply_snkOpen_src (e : Env p) (ok : Bool) : (e.apply (.snkOpen ok)).src = e.src := by cases ok <;> rfl
@[simp] theorem apply_snkEmit_src (e : Env p) (b : Byte) (ok : Bool) : (e.apply (.snkEmit b ok)).src = e.src := by
  cases ok <;> rfl
@[simp] theorem apply_snkRelease_src (e : Env p) : (e.apply .snkRelease).src = e.src := rfl
@[simp] theorem apply_srcOpen_src (e : Env p) : (e.apply (.srcOpen true)).src =
    { e.src with data := e.src.offered, pos := 0, attached := true, answers := e.src.answers.tail } := rfl
@[simp] theorem apply_srcOpenFail_src (e : Env p) : (e.apply (.srcOpen false)).src =
    { e.src with answers := e.src.answers.tail } := rfl
@[simp] theorem apply_fetchByte_src (e : Env p) (b : Byte) : (e.apply (.srcFetch (.byte b))).src =
    { e.src with pos := e.src.pos + 1, answers := e.src.answers.tail } := rfl
@[simp] theorem apply_fetchEnd_src (e : Env p) : (e.apply (.srcFetch .endOfSource)).src = e.src := rfl
@[simp] theorem apply_fetchFail_src (e : Env p) : (e.apply (.srcFetch .fail)).src =
    { e.src with answers := e.src.answers.tail } := rfl
@[simp] theorem apply_srcRelease_src (e : Env p) : (e.apply .srcRelease).src = { e.src with attached := false } := rfl
@[simp] theorem apply_symEmit_src (e : Env p) (b : Byte) (ok : Bool) : (e.apply (.symEmit b ok)).src = e.src := by
  cases ok <;> rfl

@[simp] theorem apply_snkOpen_sym (e : Env p) (ok : Bool) : (e.apply (.snkOpen ok)).sym = e.sym := by cases ok <;> rfl
@[simp] theorem apply_snkEmit_sym (e : Env p) (b : Byte) (ok : Bool) : (e.apply (.snkEmit b ok)).sym = e.sym := by
  cases ok <;> rfl
@[simp] theorem apply_snkRelease_sym (e : Env p) : (e.apply .snkRelease).sym = e.sym := rfl
@[simp] theorem apply_srcOpen_sym (e : Env p) (ok : Bool) : (e.apply (.srcOpen ok)).sym = e.sym := by cases ok <;> rfl
@[simp] theorem apply_srcFetch_sym (e : Env p) (a : FetchAnswer) : (e.apply (.srcFetch a)).sym = e.sym := by
  cases a <;> rfl
@[simp] theorem apply_srcRelease_sym (e : Env p) : (e.apply .srcRelease).sym = e.sym := rfl
@[simp] theorem apply_symEmit_sym (e : Env p) (b : Byte) : (e.apply (.symEmit b true)).sym =
    { data := e.sym.data ++ [b], answers := e.sym.answers.tail } := rfl
@[simp] theorem apply_symEmitFail_sym (e : Env p) (b : Byte) : (e.apply (.symEmit b false)).sym =
    { e.sym with answers := e.sym.answers.tail } := rfl

end Sys2Proof.Machine.Env
end

