-- ==== Sys2Proof/Laws/Adapter.lean ====
section
/-! SUPPORT. What the shared operations of the adapter can do, once each: micro-steps in order, the packer
(40_bitstream.md R122 to R125), the unpacker (R127, R128). -/

namespace Sys2Proof.Machine

variable {p : Params}

/-! ### Micro-steps -/

@[simp] theorem Micro.andThen_ok {α β : Type} (s : State p) (a : α) (f : State p → α → Micro p β) :
    (Micro.ok s a).andThen f = f s a := rfl

@[simp] theorem Micro.andThen_raise {α β : Type} (x : FaultCode) (s : State p) (f : State p → α → Micro p β) :
    (Micro.raise x s : Micro p α).andThen f = .raise x s := rfl

theorem Micro.andThen_assoc {α β γ : Type} (m : Micro p α) (f : State p → α → Micro p β) (g : State p → β → Micro p γ) :
    (m.andThen f).andThen g = m.andThen fun s a => (f s a).andThen g := by
  cases m <;> rfl

theorem Micro.andThen_eq_ok {α β : Type} {m : Micro p α} {f : State p → α → Micro p β} {t : State p} {b : β} :
    m.andThen f = .ok t b ↔ ∃ s a, m = .ok s a ∧ f s a = .ok t b := by
  cases m <;> simp

theorem Micro.andThen_eq_raise {α β : Type} {m : Micro p α} {f : State p → α → Micro p β} {x : FaultCode} {t : State p} :
    m.andThen f = .raise x t ↔ m = .raise x t ∨ ∃ s a, m = .ok s a ∧ f s a = .raise x t := by
  cases m <;> simp

/-! ### Frames compose -/

theorem PackerFrame.refl (s : State p) : PackerFrame s s := ⟨rfl, rfl, rfl, rfl, rfl, rfl, rfl, rfl, rfl, rfl⟩

theorem PackerFrame.trans {s t u : State p} (h : PackerFrame s t) (k : PackerFrame t u) : PackerFrame s u :=
  ⟨k.r.trans h.r, k.res.trans h.res, k.mem.trans h.mem, k.ctl.trans h.ctl, k.cfg.trans h.cfg, k.flt.trans h.flt,
    k.src.trans h.src, k.sym.trans h.sym, k.inputs.trans h.inputs, k.readData.trans h.readData⟩

theorem UnpackerFrame.refl (s : State p) : UnpackerFrame s s := ⟨rfl, rfl, rfl, rfl, rfl, rfl, rfl, rfl, rfl, rfl⟩

theorem UnpackerFrame.trans {s t u : State p} (h : UnpackerFrame s t) (k : UnpackerFrame t u) : UnpackerFrame s u :=
  ⟨k.w.trans h.w, k.mem.trans h.mem, k.ctl.trans h.ctl, k.cnt.trans h.cnt, k.cfg.trans h.cfg, k.flt.trans h.flt,
    k.snk.trans h.snk, k.sym.trans h.sym, k.inputs.trans h.inputs, k.readData.trans h.readData⟩

/-! ### Answers -/

theorem headD_of_all {l : List Bool} (h : ∀ a ∈ l, a = true) : l.headD true = true := by
  cases l <;> simp_all

theorem tail_of_all {l : List Bool} (h : ∀ a ∈ l, a = true) : ∀ a ∈ l.tail, a = true :=
  fun a ha => h a (List.mem_of_mem_tail ha)

/-! ### The packer -/

/-- What a successful write of `bits` does: the bits are appended to the output stream and counted, and nothing but the
packer, the sink and the trace changes. -/
structure Wrote (bits : List Bool) (s t : State p) : Prop where
  frame : PackerFrame s t
  cnt : t.cnt = s.cnt
  isOpen : t.w.isOpen = s.w.isOpen
  wbits : t.w.wbits.toNat = s.w.wbits.toNat + bits.length
  written : writtenBits t = writtenBits s ++ bits
  grown : s.env.snk.data <+: t.env.snk.data
  attached : t.env.snk.attached = s.env.snk.attached
  reliable : sinkReliable s → sinkReliable t

theorem Wrote.refl (s : State p) : Wrote [] s s := ⟨.refl s, rfl, rfl, rfl, by simp, List.prefix_rfl, rfl, id⟩

theorem Wrote.trans {a b : List Bool} {s t u : State p} (h : Wrote a s t) (k : Wrote b t u) : Wrote (a ++ b) s u :=
  ⟨h.frame.trans k.frame, k.cnt.trans h.cnt, k.isOpen.trans h.isOpen,
    by rw [k.wbits, h.wbits, List.length_append]; omega,
    by rw [k.written, h.written, List.append_assoc], h.grown.trans k.grown, k.attached.trans h.attached,
    k.reliable ∘ h.reliable⟩

theorem emitPacked_ok {b : Byte} {s : State p} (h : s.env.snk.answer = true) :
    emitPacked b s = .ok ((s.port (.snkEmit b true)).setW { s.w with acc := 0#8, cnt := 0 }) () := by
  simp [emitPacked, h]

theorem emitPacked_fail {b : Byte} {s : State p} (h : s.env.snk.answer = false) :
    emitPacked b s = .raise .ioSink (s.port (.snkEmit b false)) := by
  simp [emitPacked, h]

/-- Everything WBIT's pseudocode can do (R122). -/
theorem writeBit_cases (b : Bool) (s : State p) :
    (atMax s.w.wbits = true ∧ writeBit b s = .raise .countOvf s) ∨
    (atMax s.w.wbits = false ∧ s.w.cnt ≠ 7 ∧ writeBit b s = .ok (s.setW
      { s.w with acc := shiftIn s.w.acc b, cnt := s.w.cnt + 1, wbits := s.w.wbits + 1#p.cntW }) ()) ∨
    (atMax s.w.wbits = false ∧ s.w.cnt = 7 ∧ s.env.snk.answer = true ∧ writeBit b s = .ok
      ((s.port (.snkEmit (shiftIn s.w.acc b) true)).setW
        { s.w with acc := 0#8, cnt := 0, wbits := s.w.wbits + 1#p.cntW }) ()) ∨
    (atMax s.w.wbits = false ∧ s.w.cnt = 7 ∧ s.env.snk.answer = false ∧ writeBit b s = .raise .ioSink
      ((s.port (.snkEmit (shiftIn s.w.acc b) false)).setW
        { s.w with acc := shiftIn s.w.acc b, wbits := s.w.wbits + 1#p.cntW })) := by
  unfold writeBit
  by_cases hm : atMax s.w.wbits = true
  · simp [hm]
  · by_cases h7 : s.w.cnt = 7
    · rcases Bool.eq_false_or_eq_true s.env.snk.answer with ha | ha
      · right; right; left
        refine ⟨by simpa using hm, h7, ha, ?_⟩
        rw [if_neg hm, if_pos h7, emitPacked_ok (by simpa using ha)]
        rfl
      · right; right; right
        refine ⟨by simpa using hm, h7, ha, ?_⟩
        rw [if_neg hm, if_pos h7, emitPacked_fail (by simpa using ha)]
        rfl
    · simp [hm, h7]

/-- A write that completes has appended its bit (R122, R130). -/
theorem writeBit_wrote {b : Bool} {s t : State p} (h : writeBit b s = .ok t ()) : Wrote [b] s t := by
  rcases writeBit_cases b s with ⟨_, e⟩ | ⟨hm, h7, e⟩ | ⟨hm, h7, _, e⟩ | ⟨_, _, _, e⟩ <;> rw [e] at h <;> cases h
  · refine ⟨⟨rfl, rfl, rfl, rfl, rfl, rfl, rfl, rfl, rfl, rfl⟩, rfl, rfl, counter_succ hm, ?_, List.prefix_rfl,
      rfl, id⟩
    simp [writtenBits, bufferedBits_shiftIn _ _ _ h7]
  · refine ⟨⟨rfl, rfl, rfl, rfl, rfl, rfl, ?_, ?_, ?_, ?_⟩, rfl, rfl, counter_succ hm, ?_, ?_, ?_, ?_⟩
    · simp
    · simp
    · simp
    · simp
    · simp [writtenBits, bits8_full _ _ h7, bufferedBits]
    · simp
    · simp
    · intro hr; simpa [sinkReliable] using tail_of_all hr

/-- With a reliable sink and room to count, a bit is written (R122). -/
theorem writeBit_completes {s : State p} (b : Bool) (hr : sinkReliable s) (hc : writeRoom s 1) :
    ∃ t, writeBit b s = .ok t () := by
  have hm := atMax_false hc
  have ha : s.env.snk.answer = true := headD_of_all hr
  rcases writeBit_cases b s with ⟨h, _⟩ | ⟨_, _, e⟩ | ⟨_, _, _, e⟩ | ⟨_, _, h, _⟩
  · simp [hm] at h
  · exact ⟨_, e⟩
  · exact ⟨_, e⟩
  · simp [ha] at h

theorem writeBits_append (a b : List Bool) (s : State p) :
    writeBits (a ++ b) s = (writeBits a s).andThen fun s' _ => writeBits b s' := by
  induction a generalizing s with
  | nil => rfl
  | cons x a ih => simp [writeBits, ih, Micro.andThen_assoc]

theorem writeBits_wrote {bs : List Bool} {s t : State p} (h : writeBits bs s = .ok t ()) : Wrote bs s t := by
  induction bs generalizing s with
  | nil => cases h; exact .refl _
  | cons b bs ih =>
    obtain ⟨s1, _, h1, h2⟩ := Micro.andThen_eq_ok.mp h
    exact (writeBit_wrote h1).trans (ih h2)

theorem writeBits_completes {s : State p} (bs : List Bool) (hr : sinkReliable s) (hc : writeRoom s bs.length) :
    ∃ t, writeBits bs s = .ok t () := by
  induction bs generalizing s with
  | nil => exact ⟨s, rfl⟩
  | cons b bs ih =>
    obtain ⟨s1, h1⟩ := writeBit_completes (s := s) b hr (by simp [writeRoom] at hc ⊢; omega)
    have w1 := writeBit_wrote h1
    obtain ⟨t, h2⟩ := ih (s := s1) (w1.reliable hr)
      (by have := w1.wbits; simp [writeRoom] at hc this ⊢; omega)
    exact ⟨t, by simp [writeBits, h1, h2]⟩

/-- A flush with a reliable sink completes; a partly filled byte is padded with zeros and emitted (R124, R70). -/
theorem flushPacker_completes {s : State p} (hr : sinkReliable s) :
    ∃ t, flushPacker s = .ok t () ∧ PackerFrame s t ∧ t.cnt = s.cnt ∧ t.w = { s.w with acc := t.w.acc, cnt := 0 } ∧
      (s.w.cnt ≠ 0 → t.w.acc = 0#8) ∧ t.env.snk.attached = s.env.snk.attached ∧ sinkReliable t ∧
      t.env.snk.data = s.env.snk.data ++ (if s.w.cnt = 0 then [] else [padByte s.w.acc s.w.cnt]) := by
  unfold flushPacker
  by_cases h : s.w.cnt = 0
  · refine ⟨s, by simp [h], .refl s, rfl, ?_, by simp [h], rfl, hr, by simp [h]⟩
    obtain ⟨⟨acc, cnt, op, wb⟩, _⟩ := s
    simp_all
  · rw [if_neg h, emitPacked_ok (headD_of_all hr)]
    refine ⟨_, rfl, ⟨rfl, rfl, rfl, rfl, rfl, rfl, ?_, ?_, ?_, ?_⟩, rfl, rfl, fun _ => rfl, ?_, ?_, ?_⟩
    · simp
    · simp
    · simp
    · simp
    · simp
    · simpa [sinkReliable] using tail_of_all hr
    · simp [h]

/-! ### The unpacker -/

/-- What a successful read of `bits` does: they were the next bits, they are gone, and nothing but the unpacker, the
source and the trace changes. -/
structure Took (bits : List Bool) (s t : State p) : Prop where
  frame : UnpackerFrame s t
  res : t.res = s.res
  isOpen : t.r.isOpen = s.r.isOpen
  rbits : t.r.rbits.toNat = s.r.rbits.toNat + bits.length
  remaining : remainingBits s = bits ++ remainingBits t
  attached : t.env.src.attached = s.env.src.attached
  data : t.env.src.data = s.env.src.data
  offered : t.env.src.offered = s.env.src.offered
  reliable : sourceReliable s → sourceReliable t

theorem Took.refl (s : State p) : Took [] s s := ⟨.refl s, rfl, rfl, rfl, rfl, rfl, rfl, rfl, id⟩

theorem Took.trans {a b : List Bool} {s t u : State p} (h : Took a s t) (k : Took b t u) : Took (a ++ b) s u :=
  ⟨h.frame.trans k.frame, k.res.trans h.res, k.isOpen.trans h.isOpen,
    by rw [k.rbits, h.rbits, List.length_append]; omega,
    by rw [h.remaining, k.remaining, List.append_assoc], k.attached.trans h.attached, k.data.trans h.data,
    k.offered.trans h.offered, k.reliable ∘ h.reliable⟩

/-- Delivering a bit that is there (R127, R23). -/
theorem deliverBit_cases (s : State p) :
    (atMax s.r.rbits = true ∧ deliverBit s = .raise .countOvf s) ∨
    (atMax s.r.rbits = false ∧ deliverBit s = .ok
      (s.setR { s.r with rem := ⟨s.r.rem.val - 1, by omega⟩, rbits := s.r.rbits + 1#p.cntW })
      (some (s.r.buf.getLsbD (s.r.rem.val - 1)))) := by
  unfold deliverBit
  cases h : atMax s.r.rbits <;> simp

theorem deliverBit_took {s t : State p} {o : Option Bool} (he : s.r.eos = false) (hrem : s.r.rem ≠ 0)
    (h : deliverBit s = .ok t o) : ∃ b, o = some b ∧ Took [b] s t := by
  rcases deliverBit_cases s with ⟨_, e⟩ | ⟨hm, e⟩ <;> rw [e] at h <;> cases h
  refine ⟨_, rfl, ⟨rfl, rfl, rfl, rfl, rfl, rfl, rfl, rfl, rfl, rfl⟩, rfl, rfl, counter_succ hm, ?_, rfl, rfl, rfl, id⟩
  simp only [remainingBits, State.setR_r, State.setR_env, he, Bool.false_eq_true, if_false]
  rw [undeliveredBits_cons _ hrem]
  rfl

/-- The fetch answers of a reliable source (R64). -/
theorem fetchAnswer_reliable {s : State p} (hr : sourceReliable s) :
    s.env.src.fetchAnswer =
      match s.env.src.data[s.env.src.pos]? with
      | none => .endOfSource
      | some b => .byte b := by
  unfold Source.fetchAnswer
  cases s.env.src.data[s.env.src.pos]? with
  | none => rfl
  | some b => exact if_pos (headD_of_all hr)

theorem fetchAnswer_byte {c : Source} {b : Byte} (h : c.fetchAnswer = .byte b) : c.data[c.pos]? = some b := by
  unfold Source.fetchAnswer at h
  split at h
  · cases h
  · split at h <;> cases h
    assumption

theorem fetchAnswer_end {c : Source} (h : c.fetchAnswer = .endOfSource) : c.data[c.pos]? = none := by
  unfold Source.fetchAnswer at h
  split at h
  · assumption
  · split at h <;> cases h

theorem undelivered_full {r : Unpacker p} (h : r.rem = 8) : undeliveredBits r = bits8 r.buf := by
  simp [undeliveredBits, bits8, List.range_succ, h]

theorem drop_pos {l : List Byte} {n : Nat} {b : Byte} (h : l[n]? = some b) : l.drop n = b :: l.drop (n + 1) := by
  obtain ⟨hn, hb⟩ := List.getElem?_eq_some_iff.mp h
  rw [List.drop_eq_getElem_cons hn, hb]

/-- Fetching a byte moves its bits from the source to the buffer (R64, R127). -/
theorem fetch_took {s : State p} {b : Byte} (he : s.r.eos = false) (hrem : s.r.rem = 0)
    (h : s.env.src.fetchAnswer = .byte b) :
    Took [] s ((s.port (.srcFetch (.byte b))).setR { s.r with buf := b, rem := 8 }) := by
  refine ⟨⟨rfl, rfl, rfl, rfl, rfl, rfl, ?_, ?_, ?_, ?_⟩, rfl, rfl, rfl, ?_, ?_, ?_, ?_, ?_⟩
  · simp
  · simp
  · simp
  · simp
  · simp only [remainingBits, State.setR_r, State.setR_env, State.port_env, Env.apply_fetchByte_src, he,
      Bool.false_eq_true, if_false, List.nil_append]
    rw [undelivered_full (r := { buf := b, rem := 8, isOpen := _, eos := _, rbits := _ }) rfl, drop_pos (fetchAnswer_byte h), unpack_cons]
    simp [undeliveredBits, hrem]
  · simp
  · simp
  · simp
  · intro hr; simpa [sourceReliable] using tail_of_all hr

theorem deliver_fetched {s t : State p} {b : Byte} {o : Option Bool} (he : s.r.eos = false)
    (h : deliverBit ((s.port (.srcFetch (.byte b))).setR { s.r with buf := b, rem := 8 }) = .ok t o) :
    ∃ x, o = some x ∧ Took [x] ((s.port (.srcFetch (.byte b))).setR { s.r with buf := b, rem := 8 }) t :=
  deliverBit_took he (show (8 : Fin 9) ≠ 0 by decide) h

/-- Everything RBIT's pseudocode can do (R127). -/
theorem readBit_cases (s : State p) :
    (s.r.eos = true ∧ readBit s = .ok s none) ∨
    (s.r.eos = false ∧ s.r.rem ≠ 0 ∧ readBit s = deliverBit s) ∨
    (s.r.eos = false ∧ s.r.rem = 0 ∧ s.env.src.fetchAnswer = .fail ∧
      readBit s = .raise .ioSource (s.port (.srcFetch .fail))) ∨
    (s.r.eos = false ∧ s.r.rem = 0 ∧ s.env.src.fetchAnswer = .endOfSource ∧
      readBit s = .ok ((s.port (.srcFetch .endOfSource)).setR { s.r with eos := true }) none) ∨
    (∃ b, s.r.eos = false ∧ s.r.rem = 0 ∧ s.env.src.fetchAnswer = .byte b ∧
      readBit s = deliverBit ((s.port (.srcFetch (.byte b))).setR { s.r with buf := b, rem := 8 })) := by
  unfold readBit
  cases he : s.r.eos
  · by_cases hr : s.r.rem = 0
    · cases ha : s.env.src.fetchAnswer <;> simp [hr]
    · simp [hr]
  · simp

/-- A read that delivers a bit delivers the next one (R127, R131). -/
theorem readBit_took {b : Bool} {s t : State p} (h : readBit s = .ok t (some b)) : Took [b] s t := by
  rcases readBit_cases s with ⟨_, e⟩ | ⟨he, hrem, e⟩ | ⟨_, _, _, e⟩ | ⟨_, _, _, e⟩ | ⟨x, he, hrem, ha, e⟩ <;>
    rw [e] at h
  · cases h
  · obtain ⟨b', hb, k⟩ := deliverBit_took he hrem h
    cases hb; exact k
  · cases h
  · cases h
  · obtain ⟨b', hb, k⟩ := deliver_fetched he h
    cases hb; exact (fetch_took he hrem ha).trans k

/-- The sentinel comes only when no bit is left, and it is sticky (R127, R131). -/
theorem readBit_eos {s t : State p} (h : readBit s = .ok t none) :
    Took [] s t ∧ remainingBits s = [] ∧ t.r.eos = true ∧ (s.r.eos = true → t = s) := by
  rcases readBit_cases s with ⟨he, e⟩ | ⟨he, hrem, e⟩ | ⟨_, _, _, e⟩ | ⟨he, hrem, ha, e⟩ | ⟨x, he, hrem, ha, e⟩ <;>
    rw [e] at h
  · cases h; exact ⟨.refl s, by simp [remainingBits, he], he, fun _ => rfl⟩
  · obtain ⟨b', hb, _⟩ := deliverBit_took he hrem h
    cases hb
  · cases h
  · cases h
    have hnil : remainingBits s = [] := by
      have := fetchAnswer_end ha
      rw [List.getElem?_eq_none_iff] at this
      simp [remainingBits, he, undeliveredBits, hrem, List.drop_eq_nil_of_le this]
    refine ⟨⟨⟨rfl, rfl, rfl, rfl, rfl, rfl, ?_, ?_, ?_, ?_⟩, rfl, rfl, rfl, ?_, ?_, ?_, ?_, ?_⟩, hnil, rfl, ?_⟩
    · simp
    · simp
    · simp
    · simp
    · rw [hnil]; simp [remainingBits]
    · simp
    · simp
    · simp
    · intro hr; simpa [sourceReliable] using hr
    · simp [he]
  · obtain ⟨b', hb, _⟩ := deliver_fetched he h
    cases hb

/-- With a reliable source and room to count, the next bit is delivered (R127, R131). -/
theorem readBit_completes {s : State p} {b : Bool} {rest : List Bool} (hb : remainingBits s = b :: rest)
    (hr : sourceReliable s) (hc : readRoom s 1) :
    ∃ t, readBit s = .ok t (some b) ∧ Took [b] s t ∧ remainingBits t = rest := by
  have key : ∃ t o, readBit s = .ok t o := by
    have hm := atMax_false hc
    rcases readBit_cases s with ⟨_, e⟩ | ⟨_, _, e⟩ | ⟨_, _, ha, _⟩ | ⟨_, _, _, e⟩ | ⟨x, _, _, _, e⟩
    · exact ⟨_, _, e⟩
    · rcases deliverBit_cases s with ⟨h, _⟩ | ⟨_, e'⟩
      · simp [hm] at h
      · exact ⟨_, _, e.trans e'⟩
    · rw [fetchAnswer_reliable hr] at ha; split at ha <;> cases ha
    · exact ⟨_, _, e⟩
    · rcases deliverBit_cases ((s.port (.srcFetch (.byte x))).setR { s.r with buf := x, rem := 8 }) with ⟨h, _⟩ | ⟨_, e'⟩
      · simp [hm] at h
      · exact ⟨_, _, e.trans e'⟩
  obtain ⟨t, o, h⟩ := key
  cases o with
  | none => simp [(readBit_eos h).2.1] at hb
  | some b' =>
    have k := readBit_took h
    have := k.remaining
    rw [hb] at this
    simp at this
    obtain ⟨rfl, hrest⟩ := this
    exact ⟨t, h, k, hrest.symm⟩

/-- With no bit left and a reliable source, the sentinel is returned (R127, R131). -/
theorem readBit_completes_eos {s : State p} (hb : remainingBits s = []) (hr : sourceReliable s) :
    ∃ t, readBit s = .ok t none := by
  rcases readBit_cases s with ⟨_, e⟩ | ⟨he, hrem, e⟩ | ⟨_, _, ha, _⟩ | ⟨_, _, _, e⟩ | ⟨x, he, hrem, ha, e⟩
  · exact ⟨_, e⟩
  · simp [remainingBits, he, undeliveredBits_cons _ hrem] at hb
  · rw [fetchAnswer_reliable hr] at ha; split at ha <;> cases ha
  · exact ⟨_, e⟩
  · simp [remainingBits, he, drop_pos (fetchAnswer_byte ha), bits8] at hb

/-- A read that delivers a bit leaves fewer: what bounds the loops of DESER and DECODE (R225, R321). -/
theorem readBit_remaining_lt {b : Bool} {s t : State p} (h : readBit s = .ok t (some b)) :
    (remainingBits t).length < (remainingBits s).length := by
  rw [(readBit_took h).remaining]; simp

theorem readBitsInto_completes {s : State p} {bits rest : List Bool} (n : Nat) (v : Byte) (hn : bits.length = n)
    (hb : remainingBits s = bits ++ rest) (hr : sourceReliable s) (hc : readRoom s n) :
    ∃ t, readBitsInto n v s = .ok t (some (bits.foldl shiftIn v)) ∧ Took bits s t ∧ remainingBits t = rest := by
  induction bits generalizing n v s with
  | nil => subst hn; exact ⟨s, rfl, .refl s, by simpa using hb⟩
  | cons b bits ih =>
    subst hn
    obtain ⟨s1, h1, k1, hb1⟩ := readBit_completes (by simpa using hb) hr (by simp [readRoom] at hc ⊢; omega)
    obtain ⟨t, h2, k2, hb2⟩ := ih (s := s1) bits.length (shiftIn v b) rfl hb1 (k1.reliable hr)
      (by have := k1.rbits; simp [readRoom] at hc this ⊢; omega)
    exact ⟨t, by simp [readBitsInto, h1, h2], k1.trans k2, hb2⟩

/-- RBYTE of eight bits that are there (R128). -/
theorem readByte_completes {s : State p} {bits rest : List Bool} (hn : bits.length = 8)
    (hb : remainingBits s = bits ++ rest) (hr : sourceReliable s) (hc : readRoom s 8) :
    ∃ t, readByte s = .ok t (some (val8 bits)) ∧ Took bits s t ∧ remainingBits t = rest :=
  readBitsInto_completes 8 0#8 hn hb hr hc

theorem readBitsInto_eos {s : State p} (n : Nat) (v : Byte) (hb : (remainingBits s).length < n) (hr : sourceReliable s)
    (hc : readRoom s (remainingBits s).length) :
    ∃ t, readBitsInto n v s = .ok t none ∧ Took (remainingBits s) s t ∧ t.r.eos = true := by
  generalize hl : remainingBits s = l at hb hc
  induction l generalizing n v s with
  | nil =>
    obtain ⟨t, ht⟩ := readBit_completes_eos hl hr
    obtain ⟨k, _, e, _⟩ := readBit_eos ht
    obtain ⟨m, rfl⟩ : ∃ m, n = m + 1 := ⟨n - 1, by simp at hb; omega⟩
    exact ⟨t, by simp [readBitsInto, ht], k, e⟩
  | cons b l ih =>
    obtain ⟨m, rfl⟩ : ∃ m, n = m + 1 := ⟨n - 1, by simp at hb; omega⟩
    obtain ⟨s1, h1, k1, hb1⟩ := readBit_completes hl hr (by simp [readRoom] at hc ⊢; omega)
    obtain ⟨t, h2, k2, e⟩ := ih (s := s1) m (shiftIn v b) (k1.reliable hr) hb1 (by simp at hb; omega)
      (by have := k1.rbits; simp [readRoom] at hc this ⊢; omega)
    exact ⟨t, by simp [readBitsInto, h1, h2], k1.trans k2, e⟩

/-- RBYTE when the sentinel comes inside it: the bits before it are lost (R128). -/
theorem readByte_eos {s : State p} (hb : (remainingBits s).length < 8) (hr : sourceReliable s)
    (hc : readRoom s (remainingBits s).length) :
    ∃ t, readByte s = .ok t none ∧ Took (remainingBits s) s t ∧ t.r.eos = true :=
  readBitsInto_eos 8 0#8 hb hr hc

end Sys2Proof.Machine
end

