-- ==== Sys2Proof/Laws/Fault.lean ====
section
/-! SUPPORT. How a command starts and ends (60_exceptions.md R274), and what fault entry leaves in each part of the state
(R275), so that no proof unfolds `raiseFault`. -/

namespace Sys2Proof.Machine

variable {p : Params}

@[simp] theorem finish_ok (w : CmdWord) (s : State p) (a : Unit) : finish w (.ok s a) = .next s := rfl

@[simp] theorem finish_raise (w : CmdWord) (x : FaultCode) (s : State p) :
    finish w (.raise x s) = .next (raiseFault x w s) := rfl

/-- A command ends in a next state (R13). -/
theorem finish_next (w : CmdWord) (m : Micro p Unit) : ∃ t, finish w m = .next t := by
  cases m <;> exact ⟨_, rfl⟩

@[simp] theorem require_true (x : FaultCode) (body : State p → Micro p Unit) (s : State p) :
    require true x body s = body s := rfl

@[simp] theorem require_false (x : FaultCode) (body : State p → Micro p Unit) (s : State p) :
    require false x body s = .raise x s := rfl

/-- A command of a block that is not faulted runs (R274). -/
theorem command_live {i : Instr} {body : State p → Micro p Unit} {s : State p} (h : s.flt.faulted = false) :
    command i body s = finish i.cmdWord (body s) := by simp [command, h]

/-- While FAULTED a command is dropped (R274 (1)). -/
theorem command_faulted {i : Instr} {body : State p → Micro p Unit} {s : State p} (h : s.flt.faulted = true) :
    command i body s = .next s := by simp [command, h]

/-! ### The best-effort flush -/

/-- Everything a flush can do (R124). -/
theorem flushPacker_cases (s : State p) :
    (s.w.cnt = 0 ∧ flushPacker s = .ok s ()) ∨
    (s.w.cnt ≠ 0 ∧ s.env.snk.answer = true ∧ flushPacker s = .ok
      ((s.port (.snkEmit (padByte s.w.acc s.w.cnt) true)).setW { s.w with acc := 0#8, cnt := 0 }) ()) ∨
    (s.w.cnt ≠ 0 ∧ s.env.snk.answer = false ∧
      flushPacker s = .raise .ioSink (s.port (.snkEmit (padByte s.w.acc s.w.cnt) false))) := by
  unfold flushPacker emitPacked
  by_cases h : s.w.cnt = 0
  · simp [h]
  · cases ha : s.env.snk.answer <;> simp [h]

/-- The same of the flush whose failure is ignored (R275). -/
theorem flushBestEffort_cases (s : State p) :
    (s.w.cnt = 0 ∧ flushBestEffort s = s) ∨
    (s.w.cnt ≠ 0 ∧ s.env.snk.answer = true ∧ flushBestEffort s =
      (s.port (.snkEmit (padByte s.w.acc s.w.cnt) true)).setW { s.w with acc := 0#8, cnt := 0 }) ∨
    (s.w.cnt ≠ 0 ∧ s.env.snk.answer = false ∧
      flushBestEffort s = s.port (.snkEmit (padByte s.w.acc s.w.cnt) false)) := by
  unfold flushBestEffort
  rcases flushPacker_cases s with ⟨h, e⟩ | ⟨h, a, e⟩ | ⟨h, a, e⟩
  · simp [h, e]
  · simp [h, a, e]
  · simp [h, a, e]

theorem flushBestEffort_frame (s : State p) :
    PackerFrame s (flushBestEffort s) ∧ (flushBestEffort s).cnt = s.cnt ∧
      (flushBestEffort s).w.isOpen = s.w.isOpen ∧ (flushBestEffort s).w.wbits = s.w.wbits ∧
      (flushBestEffort s).env.snk.attached = s.env.snk.attached := by
  rcases flushBestEffort_cases s with ⟨h, e⟩ | ⟨h, a, e⟩ | ⟨h, a, e⟩ <;> rw [e]
  · exact ⟨.refl s, rfl, rfl, rfl, rfl⟩
  · refine ⟨⟨rfl, rfl, rfl, rfl, rfl, rfl, ?_, ?_, ?_, ?_⟩, rfl, rfl, rfl, ?_⟩ <;> simp
  · refine ⟨⟨rfl, rfl, rfl, rfl, rfl, rfl, ?_, ?_, ?_, ?_⟩, rfl, rfl, rfl, ?_⟩ <;> simp

/-! ### Fault entry, one lemma per part -/

/-- What the channel-closing part of fault entry works on (R275, steps 1 and 2). -/
theorem closeSinkOnFault_frame (x : FaultCode) (s : State p) :
    PackerFrame s (closeSinkOnFault x s) ∧ (closeSinkOnFault x s).cnt = s.cnt ∧
      (closeSinkOnFault x s).w.isOpen = false ∧ (closeSinkOnFault x s).w.wbits = s.w.wbits ∧
      (s.w.isOpen = true → (closeSinkOnFault x s).env.snk.attached = false) ∧
      (s.w.isOpen = false → (closeSinkOnFault x s) = s) := by
  unfold closeSinkOnFault
  cases hw : s.w.isOpen
  · refine ⟨?_, ?_, ?_, ?_, ?_, ?_⟩ <;> simp [hw, PackerFrame.refl]
  · obtain ⟨f, c, _, wb, _⟩ := flushBestEffort_frame s
    by_cases hx : x = .ioSink
    · refine ⟨⟨?_, ?_, ?_, ?_, ?_, ?_, ?_, ?_, ?_, ?_⟩, ?_, ?_, ?_, ?_, ?_⟩ <;> simp [hx, releaseSink]
    · refine ⟨⟨?_, ?_, ?_, ?_, ?_, ?_, ?_, ?_, ?_, ?_⟩, ?_, ?_, ?_, ?_, ?_⟩ <;>
        simp [hx, releaseSink, f.r, f.res, f.mem, f.ctl, f.cfg, f.flt, f.src, f.sym, f.inputs, f.readData, c, wb]

theorem flushBestEffort_setFlt (s : State p) (f : FaultRecord) :
    flushBestEffort (s.setFlt f) = (flushBestEffort s).setFlt f := by
  unfold flushBestEffort flushPacker emitPacked
  by_cases h : s.w.cnt = 0
  · simp [h]
  · cases ha : s.env.snk.answer <;> simp [h, ha] <;> rfl

/-- Recording the fault and closing the sink do not meet. -/
theorem closeSinkOnFault_recordFault (x y : FaultCode) (w : CmdWord) (s : State p) :
    closeSinkOnFault x (recordFault y w s) = recordFault y w (closeSinkOnFault x s) := by
  unfold closeSinkOnFault recordFault
  by_cases hw : s.w.isOpen = true
  · by_cases hx : x = .ioSink
    · simp [hw, hx]; rfl
    · simp [hw, hx, flushBestEffort_setFlt]; rfl
  · simp [hw]

/-- Fault entry with the sink closed first: what is left is the source, the record and the load. -/
theorem raiseFault_eq (x : FaultCode) (w : CmdWord) (s : State p) :
    raiseFault x w s =
      if s.r.isOpen then endLoad (releaseSource (recordFault x w (closeSinkOnFault x s)))
      else endLoad (recordFault x w (closeSinkOnFault x s)) := by
  have h := (closeSinkOnFault_frame x s).1.r
  unfold raiseFault closeSourceOnFault
  rw [closeSinkOnFault_recordFault]
  have : (recordFault x w (closeSinkOnFault x s)).r = s.r := h
  rw [this]
  split <;> rfl

@[simp] theorem raiseFault_flt (x : FaultCode) (w : CmdWord) (s : State p) :
    (raiseFault x w s).flt = { faulted := true, code := x, cmdw := w } := by
  rw [raiseFault_eq]; split <;> rfl

@[simp] theorem raiseFault_ctl (x : FaultCode) (w : CmdWord) (s : State p) :
    (raiseFault x w s).ctl = { s.ctl with tload := false } := by
  rw [← (closeSinkOnFault_frame x s).1.ctl, raiseFault_eq]; split <;> rfl

@[simp] theorem raiseFault_isOpen (x : FaultCode) (w : CmdWord) (s : State p) :
    (raiseFault x w s).w.isOpen = false := by
  rw [raiseFault_eq]; split <;> exact (closeSinkOnFault_frame x s).2.2.1

@[simp] theorem raiseFault_wbits (x : FaultCode) (w : CmdWord) (s : State p) :
    (raiseFault x w s).w.wbits = s.w.wbits := by
  rw [raiseFault_eq]; split <;> exact (closeSinkOnFault_frame x s).2.2.2.1

@[simp] theorem raiseFault_r (x : FaultCode) (w : CmdWord) (s : State p) :
    (raiseFault x w s).r = if s.r.isOpen then { s.r with isOpen := false, rem := 0 } else s.r := by
  rw [← (closeSinkOnFault_frame x s).1.r, raiseFault_eq, (closeSinkOnFault_frame x s).1.r]
  split <;> simp [endLoad, releaseSource, recordFault, (closeSinkOnFault_frame x s).1.r]

@[simp] theorem raiseFault_res (x : FaultCode) (w : CmdWord) (s : State p) : (raiseFault x w s).res = s.res := by
  rw [raiseFault_eq]; split <;> exact (closeSinkOnFault_frame x s).1.res

@[simp] theorem raiseFault_mem (x : FaultCode) (w : CmdWord) (s : State p) : (raiseFault x w s).mem = s.mem := by
  rw [raiseFault_eq]; split <;> exact (closeSinkOnFault_frame x s).1.mem

@[simp] theorem raiseFault_cnt (x : FaultCode) (w : CmdWord) (s : State p) : (raiseFault x w s).cnt = s.cnt := by
  rw [raiseFault_eq]; split <;> exact (closeSinkOnFault_frame x s).2.1

@[simp] theorem raiseFault_cfg (x : FaultCode) (w : CmdWord) (s : State p) : (raiseFault x w s).cfg = s.cfg := by
  rw [raiseFault_eq]; split <;> exact (closeSinkOnFault_frame x s).1.cfg

@[simp] theorem raiseFault_sym (x : FaultCode) (w : CmdWord) (s : State p) :
    (raiseFault x w s).env.sym = s.env.sym := by
  rw [raiseFault_eq]; split <;> exact (closeSinkOnFault_frame x s).1.sym

@[simp] theorem raiseFault_src (x : FaultCode) (w : CmdWord) (s : State p) :
    (raiseFault x w s).env.src = if s.r.isOpen then { s.env.src with attached := false } else s.env.src := by
  rw [← (closeSinkOnFault_frame x s).1.src, raiseFault_eq]; split <;> rfl

@[simp] theorem raiseFault_inputs (x : FaultCode) (w : CmdWord) (s : State p) :
    (raiseFault x w s).env.inputs = s.env.inputs := by
  rw [← (closeSinkOnFault_frame x s).1.inputs, raiseFault_eq]; split
  · exact Env.apply_inputs _ _
  · rfl

@[simp] theorem raiseFault_readData (x : FaultCode) (w : CmdWord) (s : State p) :
    (raiseFault x w s).env.readData = s.env.readData := by
  rw [← (closeSinkOnFault_frame x s).1.readData, raiseFault_eq]; split
  · exact Env.apply_readData _ _
  · rfl

/-- The packer and the sink after fault entry are those of step 2. -/
theorem raiseFault_packer (x : FaultCode) (w : CmdWord) (s : State p) :
    (raiseFault x w s).w = (closeSinkOnFault x s).w ∧ (raiseFault x w s).env.snk = (closeSinkOnFault x s).env.snk := by
  rw [raiseFault_eq]; split <;> exact ⟨rfl, rfl⟩

/-- A closed packer and its sink are left alone. -/
theorem raiseFault_closed {x : FaultCode} {w : CmdWord} {s : State p} (h : s.w.isOpen = false) :
    (raiseFault x w s).w = s.w ∧ (raiseFault x w s).env.snk = s.env.snk := by
  rw [(raiseFault_packer x w s).1, (raiseFault_packer x w s).2, (closeSinkOnFault_frame x s).2.2.2.2.2 h]
  exact ⟨rfl, rfl⟩

theorem raiseFault_attached {x : FaultCode} {w : CmdWord} {s : State p} (h : s.w.isOpen = true) :
    (raiseFault x w s).env.snk.attached = false := by
  rw [(raiseFault_packer x w s).2]; exact (closeSinkOnFault_frame x s).2.2.2.2.1 h

/-- The best-effort flush happened: the padded byte is in the sink, the packer is empty (R275, step 2). -/
theorem raiseFault_flushed {x : FaultCode} {w : CmdWord} {s : State p} (h : s.w.isOpen = true) (hx : x ≠ .ioSink)
    (hc : s.w.cnt ≠ 0) (ha : s.env.snk.answer = true) :
    (raiseFault x w s).env.snk.data = s.env.snk.data ++ [padByte s.w.acc s.w.cnt] ∧
      (raiseFault x w s).w.acc = 0#8 ∧ (raiseFault x w s).w.cnt = 0 := by
  rw [(raiseFault_packer x w s).1, (raiseFault_packer x w s).2]
  rcases flushBestEffort_cases s with ⟨h', e⟩ | ⟨_, _, e⟩ | ⟨_, a, _⟩
  · exact absurd h' hc
  · simp [closeSinkOnFault, h, hx, e, releaseSink]
  · simp [ha] at a

/-- Nothing was flushed: the sink's bytes and the buffered bits stay. -/
theorem raiseFault_unflushed {x : FaultCode} {w : CmdWord} {s : State p}
    (h : s.w.isOpen = false ∨ x = .ioSink ∨ s.w.cnt = 0 ∨ s.env.snk.answer = false) :
    (raiseFault x w s).env.snk.data = s.env.snk.data ∧
      (raiseFault x w s).w.acc = s.w.acc ∧ (raiseFault x w s).w.cnt = s.w.cnt := by
  rw [(raiseFault_packer x w s).1, (raiseFault_packer x w s).2]
  cases hw : s.w.isOpen
  · simp [closeSinkOnFault, hw]
  · by_cases hx : x = .ioSink
    · simp [closeSinkOnFault, hw, hx, releaseSink]
    · rcases flushBestEffort_cases s with ⟨h', e⟩ | ⟨hc, ha, e⟩ | ⟨hc, a, e⟩
      · simp [closeSinkOnFault, hw, hx, e, releaseSink]
      · simp_all
      · simp [closeSinkOnFault, hw, hx, e, releaseSink]

/-- Whether or not something is flushed, the sink's bytes only grow (R64, R275). -/
theorem raiseFault_data_prefix (x : FaultCode) (w : CmdWord) (s : State p) :
    s.env.snk.data <+: (raiseFault x w s).env.snk.data := by
  by_cases h : s.w.isOpen = false ∨ x = .ioSink ∨ s.w.cnt = 0 ∨ s.env.snk.answer = false
  · rw [(raiseFault_unflushed h).1]
  · simp only [not_or] at h
    rw [(raiseFault_flushed (by simpa using h.1) h.2.1 h.2.2.1 (by simpa using h.2.2.2)).1]
    exact List.prefix_append _ _

end Sys2Proof.Machine
end

