-- ==== Sys2Proof/Laws/Commands.lean ====
section
/-! SUPPORT. One equation per instruction: what exec is when the block is not faulted (its word, its checks, its
pseudocode), and what it is when the block is (60_exceptions.md R274). -/

namespace Sys2Proof.Machine

theorem exec_openw {s : State} (h : s.flt.faulted = false) :
    exec .openw s = finish 0x1000#16 (require (!s.w.isOpen) .illegalCmd openSink s) := command_live h

theorem exec_wbit {s : State} (opd : Byte) (h : s.flt.faulted = false) :
    exec (.wbit opd) s = finish (0x11#8 ++ opd) (require s.w.isOpen .notOpen (writeBit (operandBit opd)) s) := command_live h

theorem exec_wbyte {s : State} (v : Byte) (h : s.flt.faulted = false) :
    exec (.wbyte v) s = finish (0x12#8 ++ v) (require s.w.isOpen .notOpen (writeByte v) s) := command_live h

theorem exec_flush {s : State} (h : s.flt.faulted = false) :
    exec .flush s = finish 0x1300#16 (require s.w.isOpen .notOpen flushPacker s) := command_live h

theorem exec_closew {s : State} (h : s.flt.faulted = false) :
    exec .closew s = finish 0x1400#16 (require s.w.isOpen .notOpen flushAndRelease s) := command_live h

theorem exec_openr {s : State} (h : s.flt.faulted = false) :
    exec .openr s = finish 0x1800#16 (require (!s.r.isOpen) .illegalCmd openSource s) := command_live h

theorem exec_rbit {s : State} (h : s.flt.faulted = false) :
    exec .rbit s = finish 0x1900#16 (require s.r.isOpen .notOpen readBitToRes s) := command_live h

theorem exec_rbyte {s : State} (h : s.flt.faulted = false) :
    exec .rbyte s = finish 0x1A00#16 (require s.r.isOpen .notOpen readByteToRes s) := command_live h

theorem exec_closer {s : State} (h : s.flt.faulted = false) :
    exec .closer s = finish 0x1B00#16 (require s.r.isOpen .notOpen (fun s => .ok (releaseSource s) ()) s) := command_live h

theorem exec_tbegin {s : State} (h : s.flt.faulted = false) :
    exec .tbegin s = finish 0x2000#16 (.ok (beginLoad s) ()) :=
  command_live (i := .tbegin) (body := fun s => .ok (beginLoad s) ()) h

theorem exec_tnode {s : State} (h : s.flt.faulted = false) :
    exec .tnode s = finish 0x2100#16 (require s.ctl.tload .illegalCmd (accept .internal) s) := command_live h

theorem exec_tleaf {s : State} (v : Byte) (h : s.flt.faulted = false) :
    exec (.tleaf v) s = finish (0x22#8 ++ v) (require s.ctl.tload .illegalCmd (accept (.leaf v)) s) := command_live h

theorem exec_ser {s : State} (h : s.flt.faulted = false) :
    exec .ser s = finish 0x2300#16
      (require s.w.isOpen .notOpen (require s.ctl.treeValid .noTree fun s => serScan s.mem.tm s) s) := command_live h

theorem exec_deser {s : State} (h : s.flt.faulted = false) :
    exec .deser s = finish 0x2400#16
      (require s.r.isOpen .notOpen (fun s => deserLoop (Params.default.nodeCap + 1) (beginDeser s)) s) :=
  command_live h

theorem exec_cmap {s : State} (h : s.flt.faulted = false) :
    exec .cmap s = finish 0x2800#16 (require s.ctl.treeValid .noTree buildCodeMap s) := command_live h

theorem exec_enc {s : State} (v : Byte) (h : s.flt.faulted = false) :
    exec (.enc v) s = finish (0x30#8 ++ v) (require s.w.isOpen .notOpen (encodeByte v) s) := command_live h

theorem exec_decode {s : State} (h : s.flt.faulted = false) :
    exec .decode s = finish 0x3800#16 (decodeChecked runDecoder s) := command_live h

theorem exec_leaf {s : State} (v : Byte) (h : s.flt.faulted = false) :
    exec (.leaf v) s = finish 0x2400#16 (require s.r.isOpen .notOpen
        (fun s => if s.ctl.treeValid then .ok s () else accept (.leaf v) s) s) := command_live h

theorem exec_internal {s : State} (h : s.flt.faulted = false) :
    exec .internal s = finish 0x2400#16 (require s.r.isOpen .notOpen
        (fun s => if s.ctl.treeValid then .ok s () else accept .internal s) s) := command_live h

theorem exec_left {s : State} (h : s.flt.faulted = false) :
    exec .left s = finish 0x3800#16 (decodeChecked (payloadStep false) s) := command_live h

theorem exec_right {s : State} (h : s.flt.faulted = false) :
    exec .right s = finish 0x3800#16 (decodeChecked (payloadStep true) s) := command_live h

/-- A command answers a next state (R13). -/
theorem command_next {p : Params} (i : Instr) (body : State p → Micro p Unit) (s : State p) :
    ∃ t, command i body s = .next t := by
  unfold command
  split
  · exact ⟨s, rfl⟩
  · exact finish_next _ _

/-- Every instruction but RESET is a command with a body. -/
theorem exec_command (i : Instr) (hi : i ≠ .reset) : ∃ body, ∀ s, exec i s = command i body s := by
  cases i <;> first | exact absurd rfl hi | exact ⟨_, fun _ => rfl⟩

/-- R274 (1), R277: every instruction but RESET is dropped while FAULTED. -/
theorem exec_faulted {i : Instr} {s : State} (hi : i ≠ .reset) (h : s.flt.faulted = true) : exec i s = .next s := by
  obtain ⟨body, e⟩ := exec_command i hi
  rw [e, command_faulted h]

/-- R13: exec always answers a next state. -/
theorem exec_next (i : Instr) (s : State) : ∃ t, exec i s = .next t := by
  by_cases hi : i = .reset
  · subst hi; exact ⟨_, rfl⟩
  · obtain ⟨body, e⟩ := exec_command i hi
    rw [e]; exact command_next _ _ _

end Sys2Proof.Machine
end

