-- ==== Sys2Proof/Laws/Encoding.lean ====
section
/-! SUPPORT. Words and tokens: taking them apart and putting them together (30_encoding.md R91 to R100). -/

namespace Sys2Proof

/-- A bit of a command word is a bit of its operand or of its opcode (R91). -/
theorem append_getLsbD (a b : Byte) (i : Nat) :
    (commandWord a b).getLsbD i = if i < 8 then b.getLsbD i else a.getLsbD (i - 8) :=
  BitVec.getLsbD_append (x := a) (y := b)

/-- A word is its opcode and its operand (R91). -/
theorem word_split (w : CmdWord) : commandWord (opcOf w) (opdOf w) = w := by
  apply BitVec.eq_of_getLsbD_eq
  intro i hi
  rw [append_getLsbD]
  by_cases h : i < 8
  · simp [opdOf, h]
  · simp only [opcOf, h, BitVec.getLsbD_extractLsb']
    rw [show 8 + (i - 8) = i by omega]; simp; omega

theorem opc_word (a b : Byte) : opcOf (commandWord a b) = a := by
  apply BitVec.eq_of_getLsbD_eq
  intro i hi
  rw [opcOf, BitVec.getLsbD_extractLsb', append_getLsbD]
  simp [hi]

theorem opd_word (a b : Byte) : opdOf (commandWord a b) = b := by
  apply BitVec.eq_of_getLsbD_eq
  intro i hi
  rw [opdOf, BitVec.getLsbD_extractLsb', append_getLsbD]
  simp [hi]

/-- What takes no operand decodes only with the operand 0x00 (R92, R94). -/
theorem noOperand_ok {a b : Byte} {i j : Instr} (h : noOperand a b i = .ok j) : b = 0#8 ∧ i = j := by
  unfold noOperand at h; split at h <;> simp_all

/-- A word that decodes is the encoding of what it decodes to (R92, R94). -/
theorem decodeCommand_ok {w : CmdWord} {i : Instr} (h : decodeCommand w = .ok i) :
    i.wellFormed = true ∧ encode i = .word w ∧ i.format = .cmd ∧ i.cmdWord = w := by
  suffices i.wellFormed = true ∧ i.format = .cmd ∧ i.cmdWord = w by
    obtain ⟨a, b, c⟩ := this
    refine ⟨a, ?_, b, c⟩
    cases i <;> simp_all [encode, Instr.format]
  have hw := word_split w
  have hc : ∀ n, (opcOf w).toNat = n → opcOf w = BitVec.ofNat 8 n := fun n hn => by rw [← hn]; simp
  unfold decodeCommand at h
  simp only at h
  split at h <;> rename_i hn <;>
  first
  | (obtain ⟨h0, rfl⟩ := noOperand_ok h
     refine ⟨rfl, rfl, ?_⟩
     rw [← hw, h0, hc _ hn]; rfl)
  | (simp only [bitOperand] at h
     split at h <;> simp at h
     subst h
     refine ⟨by assumption, rfl, ?_⟩
     rw [Instr.cmdWord]; conv_rhs => rw [← hw, hc _ hn])
  | (simp only [Except.ok.injEq] at h
     subst h
     refine ⟨rfl, rfl, ?_⟩
     rw [Instr.cmdWord]; conv_rhs => rw [← hw, hc _ hn])
  | (cases h)

/-- A token that was taken stood in front (R99). -/
theorem takeToken_ok {b : List Bool} {tok : Token} {rest : List Bool} (h : takeToken b = some (tok, rest)) :
    b = tok.bits ++ rest := by
  match b, h with
  | false :: s, h => cases h; rfl
  | true :: s, h =>
    simp only [takeToken] at h
    split at h
    · simp at h
    · simp at h
      obtain ⟨rfl, rfl⟩ := h
      rw [Token.bits, bits8_val8 (by simp; omega)]; simp

/-- A token in front of anything is taken off it (R99, R100). -/
theorem takeToken_bits (tok : Token) (rest : List Bool) : takeToken (tok.bits ++ rest) = some (tok, rest) := by
  cases tok with
  | internal => rfl
  | leaf v =>
    have h1 : (bits8 v ++ rest).take 8 = bits8 v := by simp [bits8]
    have h2 : (bits8 v ++ rest).drop 8 = rest := by simp [bits8]
    simp [Token.bits, takeToken, h1, h2, val8_bits8]

end Sys2Proof
end

