-- ==== Sys2Proof/Laws/Tree.lean ====
section
/-! SUPPORT. The abstract tree and its pre-order place in TM (00_scope.md R12, 10_state.md R38, 42_tree_serdes.md R171,
R179): sizes, the header as the tokens' bits, `deser` on a header, and reading a layout by index. -/

namespace Sys2Proof.Machine

variable {p : Params}

/-- The bits SER writes for an entry (R176). -/
def TmEntry.bits : TmEntry p → List Bool
  | .leaf v => true :: bits8 v
  | .int _ => [false]

/-! ### Sizes -/

theorem Tree.size_pos (t : Tree) : 0 < t.size := by cases t <;> simp [Tree.size]

@[simp] theorem layout_length (base : Nat) (t : Tree) : (layout base t p).length = t.size := by
  induction t generalizing base with
  | leaf v => rfl
  | node l r hl hr => simp [layout, Tree.size, hl, hr]; omega

@[simp] theorem Tree.tokens_length (t : Tree) : t.tokens.length = t.size := by
  induction t with
  | leaf v => rfl
  | node l r hl hr => simp [Tree.tokens, Tree.size, hl, hr]; omega

theorem Tree.leaves_pos (t : Tree) : 0 < t.leaves.length := by
  induction t with
  | leaf v => simp [Tree.leaves]
  | node l r hl hr => simp [Tree.leaves]; omega

theorem Tree.size_leaves (t : Tree) : t.size + 1 = 2 * t.leaves.length := by
  induction t with
  | leaf v => rfl
  | node l r hl hr => simp [Tree.leaves, Tree.size]; omega

/-- A tree is no deeper than its internal nodes are many. -/
theorem Tree.height_lt (t : Tree) : 2 * t.height + 1 ≤ t.size := by
  induction t with
  | leaf v => simp [Tree.height, Tree.size]
  | node l r hl hr => simp [Tree.height, Tree.size]; omega

/-- The header has ten bits for every leaf, less one (R171: nine for a leaf, one for an internal node). -/
theorem ser_length (t : Tree) : (ser t).length = 10 * t.leaves.length - 1 := by
  induction t with
  | leaf v => rfl
  | node l r hl hr =>
    have := l.leaves_pos; have := r.leaves_pos
    simp [ser, Tree.leaves, hl, hr]; omega

/-- The header is the tokens' bits, one token after another (R96, R97, R171). -/
theorem ser_eq_tokens (t : Tree) : ser t = t.tokens.flatMap Token.bits := by
  induction t with
  | leaf v => simp [ser, Tree.tokens, Token.bits]
  | node l r hl hr => simp [ser, Tree.tokens, Token.bits, hl, hr]

/-- The header is what SER's scan over the tree in TM writes (R176, R179). -/
theorem layout_bits (base : Nat) (t : Tree) : (layout base t p).flatMap TmEntry.bits = ser t := by
  induction t generalizing base with
  | leaf v => simp [layout, ser, TmEntry.bits]
  | node l r hl hr => simp [layout, ser, TmEntry.bits, hl, hr]

/-! ### The header read back -/

theorem deserWithin_ser (t : Tree) (s : List Bool) (n : Nat) (h : t.height < n) :
    deserWithin n (ser t ++ s) = some (t, s) := by
  induction t generalizing s n with
  | leaf v =>
    obtain ⟨m, rfl⟩ : ∃ m, n = m + 1 := ⟨n - 1, by omega⟩
    have h1 : (bits8 v ++ s).take 8 = bits8 v := by simp [bits8]
    have h2 : (bits8 v ++ s).drop 8 = s := by simp [bits8]
    simp [ser, deserWithin, h1, h2, val8_bits8]
  | node l r hl hr =>
    obtain ⟨m, rfl⟩ : ∃ m, n = m + 1 := ⟨n - 1, by omega⟩
    simp only [Tree.height] at h
    simp [ser, deserWithin, hl _ m (by omega), hr _ m (by omega)]

/-- What `deser` reads as a tree is that tree's header and the bits after it. -/
theorem deserWithin_sound (n : Nat) (s : List Bool) {t : Tree} {rest : List Bool}
    (h : deserWithin n s = some (t, rest)) : s = ser t ++ rest := by
  induction n generalizing s t rest with
  | zero => cases h
  | succ n ih =>
    match s, h with
    | true :: s, h =>
      simp only [deserWithin] at h
      split at h
      · simp at h
      · simp at h
        obtain ⟨rfl, rfl⟩ := h
        rw [ser, bits8_val8 (by simp; omega)]; simp
    | false :: s, h =>
      simp only [deserWithin] at h
      split at h
      · simp at h
      · rename_i l s1 h1
        split at h
        · simp at h
        · rename_i r s2 h2
          simp at h
          obtain ⟨rfl, rfl⟩ := h
          rw [ih s h1, ih s1 h2]; simp [ser]

theorem deser_sound {s : List Bool} {t : Tree} {rest : List Bool} (h : deser s = some (t, rest)) :
    s = ser t ++ rest := deserWithin_sound _ _ h

/-! ### The tree by index -/

/-- The subtree `c` starts at index `i` of TM. -/
def SubtreeAt (tm : List (TmEntry p)) (i : Nat) (c : Tree) : Prop :=
  ∃ a b, tm = a ++ layout i c p ++ b ∧ a.length = i

theorem SubtreeAt.root {m : Memory p} {t : Tree} (h : HoldsTree m t) : SubtreeAt m.tm 0 t :=
  ⟨[], [], by simpa [HoldsTree] using h, rfl⟩

theorem SubtreeAt.size_le {tm : List (TmEntry p)} {i : Nat} {c : Tree} (h : SubtreeAt tm i c) : i + c.size ≤ tm.length := by
  obtain ⟨a, b, rfl, rfl⟩ := h; simp

theorem SubtreeAt.leaf {tm : List (TmEntry p)} {i : Nat} {v : Byte} (h : SubtreeAt tm i (.leaf v)) :
    tm[i]? = some (.leaf v) := by
  obtain ⟨a, b, rfl, rfl⟩ := h; simp [layout]

theorem SubtreeAt.node {tm : List (TmEntry p)} {i : Nat} {l r : Tree} (h : SubtreeAt tm i (.node l r)) :
    tm[i]? = some (.int (some (BitVec.ofNat p.idxW (i + 1 + l.size)))) ∧
      SubtreeAt tm (i + 1) l ∧ SubtreeAt tm (i + 1 + l.size) r := by
  obtain ⟨a, b, rfl, rfl⟩ := h
  refine ⟨by simp [layout], ⟨a ++ [.int (some (BitVec.ofNat p.idxW (a.length + 1 + l.size)))],
    layout (a.length + 1 + l.size) r p ++ b, by simp [layout], by simp⟩,
    ⟨a ++ .int (some (BitVec.ofNat p.idxW (a.length + 1 + l.size))) :: layout (a.length + 1) l p, b, by simp [layout], ?_⟩⟩
  simp; omega

/-- The tree is read back from TM by index (R38). -/
theorem treeAt_subtree {tm : List (TmEntry p)} (hcap : tm.length ≤ p.nodeCap) {c : Tree} {i n : Nat} (h : SubtreeAt tm i c)
    (hn : c.height < n) : treeAt tm n i = some c := by
  induction c generalizing i n with
  | leaf v =>
    obtain ⟨m, rfl⟩ : ∃ m, n = m + 1 := ⟨n - 1, by omega⟩
    simp [treeAt, h.leaf]
  | node l r hl hr =>
    obtain ⟨m, rfl⟩ : ∃ m, n = m + 1 := ⟨n - 1, by omega⟩
    obtain ⟨e, kl, kr⟩ := h.node
    simp only [Tree.height] at hn
    have := kr.size_le; have := r.size_pos
    have hi := index_toNat (p := p) (by omega : i + 1 + l.size < p.nodeCap)
    simp [treeAt, e, hi, hl kl (by omega : l.height < m), hr kr (by omega : r.height < m)]

/-- No other tree has the same TM (R38). -/
theorem layout_injective {t t' : Tree} (h : t.size ≤ p.nodeCap) (he : layout 0 t' p = layout 0 t p) : t' = t := by
  have hs : t'.size = t.size := by rw [← layout_length 0, he, layout_length]
  have k : ∀ c : Tree, c.size ≤ p.nodeCap → treeAt (layout 0 c p) (p.nodeCap + 1) 0 = some c := fun c hc =>
    treeAt_subtree (by rw [layout_length]; omega) ⟨[], [], by simp, rfl⟩ (by have := c.height_lt; omega)
  have k1 := k t' (by omega)
  rw [he, k t h] at k1
  exact (Option.some.inj k1).symm

end Sys2Proof.Machine
end

