-- ==== Sys2Proof/Laws/Accept.lean ====
section
/-! SUPPORT. The acceptor over a whole tree (42_tree_serdes.md R172, R156): what it has put into TM and STK when the last
token of a tree has been accepted. -/

namespace Sys2Proof.Machine

variable {p : Params}

/-- Tokens accepted one after another. -/
def acceptAll : List Token → State p → Micro p Unit
  | [], s => .ok s ()
  | tok :: rest, s => (accept tok s).andThen fun s' _ => acceptAll rest s'

theorem acceptAll_append (a b : List Token) (s : State p) :
    acceptAll (a ++ b) s = (acceptAll a s).andThen fun s' _ => acceptAll b s' := by
  induction a generalizing s with
  | nil => rfl
  | cons x a ih => simp [acceptAll, ih, Micro.andThen_assoc]

/-- The state after the last token of the tree `t` has been accepted in `s`: the tree stands behind what was in TM; the
node that was waiting has its right subtree start behind it, or, with none waiting, the tree is complete. -/
def afterTree (t : Tree) (s : State p) : State p :=
  match s.mem.stk with
  | [] =>
    (s.setMem { s.mem with tm := s.mem.tm ++ layout s.nn t p }).setCtl { s.ctl with treeValid := true, tload := false }
  | q :: rest =>
    s.setMem { s.mem with
      tm := setRight q.toNat (BitVec.ofNat p.idxW (s.nn + t.size)) (s.mem.tm ++ layout s.nn t p), stk := rest }

theorem setRight_waiting (a b : List (TmEntry p)) (r : Index p) (q : Nat) (hq : q = a.length) :
    setRight q r (a ++ .int none :: b) = a ++ .int (some r) :: b := by
  subst hq
  unfold setRight
  induction a with
  | nil => rfl
  | cons x a ih => simpa using ih

/-- The state after an internal node has been accepted in `s` (R172). -/
def afterInternal (s : State p) : State p :=
  s.setMem { s.mem with tm := s.mem.tm ++ [.int none], stk := BitVec.ofNat p.idxW s.nn :: s.mem.stk }

theorem acceptInternal_ok {s : State p} (hn : s.nn ≠ p.nodeCap) (hs : s.sp ≠ p.stackCap) :
    acceptInternal s = .ok (afterInternal s) () := by
  unfold acceptInternal
  rw [if_neg hn, if_neg hs]
  rfl

theorem acceptLeaf_ok {s : State p} (v : Byte) (hn : s.nn ≠ p.nodeCap) :
    acceptLeaf v s = .ok (afterTree (.leaf v) s) () := by
  unfold acceptLeaf afterTree
  rw [if_neg hn]
  cases h : s.mem.stk with
  | nil => simp [layout]
  | cons q rest => simp [layout, Tree.size]

/-- Accepting a tree's tokens, with room for it (R172, R179). -/
theorem acceptAll_tree (t : Tree) (s : State p) (hn : s.nn + t.size ≤ p.nodeCap) (hs : s.sp + t.height ≤ p.stackCap) :
    acceptAll t.tokens s = .ok (afterTree t s) () := by
  induction t generalizing s with
  | leaf v =>
    simp only [Tree.size] at hn
    simp [Tree.tokens, acceptAll, accept, acceptLeaf_ok v (s := s) (by omega)]
  | node l r hl hr =>
    simp only [Tree.size, Tree.height] at hn hs
    have := l.size_pos; have := r.size_pos
    simp only [Tree.tokens, acceptAll, accept, acceptInternal_ok (s := s) (by omega) (by omega), Micro.andThen_ok]
    rw [acceptAll_append, hl _ (by simp [State.nn, afterInternal] at *; omega) (by simp [State.sp, afterInternal] at *; omega)]
    have e1 : afterTree l (afterInternal s) = s.setMem { s.mem with
        tm := s.mem.tm ++ .int (some (BitVec.ofNat p.idxW (s.nn + 1 + l.size))) :: layout (s.nn + 1) l p } := by
      have hq : s.mem.tm.length % 2 ^ p.idxW = s.mem.tm.length :=
        Nat.mod_eq_of_lt (by have := p.nodeCap_le; simp only [State.nn] at hn; omega)
      simp [afterTree, afterInternal, State.nn, hq, setRight_waiting]
    rw [e1, Micro.andThen_ok, hr _ (by simp [State.nn] at *; omega) (by simp [State.sp] at *; omega)]
    cases h : s.mem.stk with
    | nil => simp [afterTree, State.nn, layout, h, Nat.add_assoc, Nat.add_comm 1]
    | cons q rest =>
      simp [afterTree, State.nn, layout, h, Tree.size, Nat.add_assoc, Nat.add_comm 1]

end Sys2Proof.Machine
end

