-- ==== Sys2Proof/Laws/Memory.lean ====
section
/-! SUPPORT. The internal memories (20_memory.md R60 to R62): a read after a write, and that every memory operation keeps
the canonical form `Memory.wf`. -/

namespace Sys2Proof.Machine

variable {p : Params}

/-! ### Reads of TM -/

/-- A read of a written entry gives that entry (R26, R61). -/
theorem readNode_written {tm : List (TmEntry p)} {i : Nat} {e : TmEntry p} (h : tm[i]? = some e) : readNode tm i = e := by
  simp [readNode, h]

theorem readRight_written {tm : List (TmEntry p)} {i : Nat} {r : Index p} (h : tm[i]? = some (.int (some r))) :
    readRight tm i = r := by simp [readRight, readNode_written h]

theorem readVal_written {tm : List (TmEntry p)} {i : Nat} {v : Byte} (h : tm[i]? = some (.leaf v)) : readVal tm i = v := by
  simp [readVal, readNode_written h]

@[simp] theorem setRight_length (q : Nat) (r : Index p) (tm : List (TmEntry p)) : (setRight q r tm).length = tm.length := by
  simp [setRight]

/-- Writing a right link leaves every other entry alone (R172). -/
theorem setRight_other {q i : Nat} {r : Index p} {tm : List (TmEntry p)} (h : q ≠ i) : (setRight q r tm)[i]? = tm[i]? := by
  simp [setRight, h]

/-! ### CM -/

theorem cmLookup_insert_self (v : Byte) (c : List Bool) (cm : List (Byte × List Bool)) :
    cmLookup v (cmInsert v c cm) = some c := by
  induction cm with
  | nil => simp [cmInsert, cmLookup]
  | cons e cm ih =>
    obtain ⟨k, d⟩ := e
    unfold cmInsert
    split
    · simp [cmLookup]
    · split
      · simp [cmLookup]
      · rename_i h
        simp [cmLookup, Ne.symm h, ih]

/-- A write to CM leaves every other byte value alone (R201). -/
theorem cmLookup_insert_other {v u : Byte} (c : List Bool) (cm : List (Byte × List Bool)) (h : v ≠ u) :
    cmLookup u (cmInsert v c cm) = cmLookup u cm := by
  induction cm with
  | nil => simp [cmInsert, cmLookup, h]
  | cons e cm ih =>
    obtain ⟨k, d⟩ := e
    unfold cmInsert
    split
    · simp [cmLookup, h]
    · split
      · rename_i hk
        subst hk
        simp [cmLookup, h]
      · simp [cmLookup, ih]

theorem cmSorted_cons {k : Byte} {c : List Bool} {cm : List (Byte × List Bool)} :
    cmSorted ((k, c) :: cm) = true ↔ (∀ e ∈ cm.head?, k < e.1) ∧ cmSorted cm = true := by
  cases cm with
  | nil => simp [cmSorted]
  | cons e cm => obtain ⟨b, d⟩ := e; simp [cmSorted]

theorem cmInsert_head (v : Byte) (c : List Bool) (cm : List (Byte × List Bool)) :
    ∀ e ∈ (cmInsert v c cm).head?, e.1 = v ∨ ∃ e' ∈ cm.head?, e.1 = e'.1 := by
  cases cm with
  | nil => simp [cmInsert]
  | cons e cm =>
    obtain ⟨k, d⟩ := e
    unfold cmInsert
    split
    · simp
    · split <;> simp

/-- CM stays in its canonical form (R29, R201). -/
theorem cmSorted_insert (v : Byte) (c : List Bool) (cm : List (Byte × List Bool)) (h : cmSorted cm = true) :
    cmSorted (cmInsert v c cm) = true := by
  induction cm with
  | nil => rfl
  | cons e cm ih =>
    obtain ⟨k, d⟩ := e
    have hk := cmSorted_cons.mp h
    unfold cmInsert
    split
    · rename_i hv
      exact cmSorted_cons.mpr ⟨by simpa using hv, h⟩
    · split
      · rename_i hv
        subst hv
        exact cmSorted_cons.mpr ⟨hk.1, hk.2⟩
      · rename_i hlt hne
        refine cmSorted_cons.mpr ⟨?_, ih hk.2⟩
        intro e he
        rcases cmInsert_head v c cm e he with h1 | ⟨e', h1, h2⟩
        · rw [h1]
          have h3 : v ≠ k := hne
          bv_omega
        · rw [h2]; exact hk.1 e' h1

/-! ### The canonical form -/

theorem Memory.wf_iff (m : Memory p) : m.wf = true ↔ m.tm.length ≤ p.nodeCap ∧ cmSorted m.cm = true := by
  rw [Memory.wf, Bool.and_eq_true, decide_eq_true_eq]

theorem Memory.wf_reset : (Memory.reset : Memory p).wf = true := by simp [Memory.wf_iff, Memory.reset, cmSorted]

theorem State.reset_mem_wf : State.reset.mem.wf = true := by decide

theorem clearMemory_wf (s : State p) : (clearMemory s).mem.wf = true := by simp [clearMemory, Memory.wf_iff, cmSorted]

theorem beginLoad_wf (s : State p) : (beginLoad s).mem.wf = true := clearMemory_wf s

theorem beginDeser_wf (s : State p) : (beginDeser s).mem.wf = true := clearMemory_wf s

/-- Everything the acceptor can do (R172). -/
theorem accept_cases (tok : Token) (s : State p) :
    accept tok s = .raise .treeOvf s ∨
    (s.nn ≠ p.nodeCap ∧ s.sp ≠ p.stackCap ∧ tok = .internal ∧ accept tok s = .ok (afterInternal s) ()) ∨
    (s.nn ≠ p.nodeCap ∧ ∃ v, tok = .leaf v ∧ accept tok s = .ok (afterTree (.leaf v) s) ()) := by
  by_cases hn : s.nn = p.nodeCap
  · left; cases tok <;> simp [accept, acceptInternal, acceptLeaf, hn]
  · cases tok with
    | leaf v => exact .inr (.inr ⟨hn, v, rfl, acceptLeaf_ok v hn⟩)
    | internal =>
      by_cases hs : s.sp = p.stackCap
      · left; simp [accept, acceptInternal, hs]
      · exact .inr (.inl ⟨hn, hs, rfl, acceptInternal_ok hn hs⟩)

theorem accept_wf {tok : Token} {s t : State p} (h : accept tok s = .ok t ()) (hw : s.mem.wf = true) :
    t.mem.wf = true := by
  rw [Memory.wf_iff] at hw ⊢
  rcases accept_cases tok s with e | ⟨hn, _, _, e⟩ | ⟨hn, v, _, e⟩ <;> rw [e] at h <;> cases h
  · refine ⟨?_, hw.2⟩
    simp [afterInternal, State.nn] at hn ⊢; omega
  · unfold afterTree
    simp only [State.nn] at hn
    split
    · refine ⟨?_, hw.2⟩
      simp [layout]; omega
    · refine ⟨?_, hw.2⟩
      simp [layout]; omega

theorem clearCodeMap_wf {s : State p} (hw : s.mem.wf = true) : (clearCodeMap s).mem.wf = true := by
  rw [Memory.wf_iff] at hw ⊢; exact ⟨hw.1, rfl⟩

theorem beginWalk_wf {s : State p} (hw : s.mem.wf = true) : (beginWalk s).mem.wf = true := by
  rw [Memory.wf_iff] at hw ⊢; exact hw

theorem cmapInternal_wf {s : State p} (hw : s.mem.wf = true) : (cmapInternal s).mem.wf = true := by
  rw [Memory.wf_iff] at hw ⊢; exact hw

/-- Everything CMAP's scan can do at a leaf (R201, R204). -/
theorem cmapLeaf_cases (v : Byte) (s : State p) :
    (∃ c, cmLookup v s.mem.cm = some c ∧ cmapLeaf v s = .raise .dupSymbol s) ∨
    (cmLookup v s.mem.cm = none ∧ s.mem.stk = [] ∧
      cmapLeaf v s = .ok (s.setMem { s.mem with cm := cmInsert v s.ctl.path s.mem.cm }) ()) ∨
    (∃ d rest, cmLookup v s.mem.cm = none ∧ s.mem.stk = d :: rest ∧ cmapLeaf v s =
      .ok ((s.setMem { s.mem with cm := cmInsert v s.ctl.path s.mem.cm, stk := rest }).setCtl
        { s.ctl with path := s.ctl.path.take d.toNat ++ [true] }) ()) := by
  unfold cmapLeaf
  cases hl : cmLookup v s.mem.cm with
  | some c => exact .inl ⟨c, rfl, rfl⟩
  | none =>
    cases hs : s.mem.stk with
    | nil => exact .inr (.inl ⟨rfl, rfl, rfl⟩)
    | cons d rest => exact .inr (.inr ⟨d, rest, rfl, rfl, rfl⟩)

theorem cmapLeaf_wf {v : Byte} {s t : State p} (h : cmapLeaf v s = .ok t ()) (hw : s.mem.wf = true) :
    t.mem.wf = true := by
  rw [Memory.wf_iff] at hw ⊢
  rcases cmapLeaf_cases v s with ⟨_, _, e⟩ | ⟨_, _, e⟩ | ⟨_, _, _, _, e⟩ <;> rw [e] at h <;> cases h <;>
    exact ⟨hw.1, cmSorted_insert _ _ _ hw.2⟩

/-! ### Reset -/

/-- Reset is the reset values with the channels detached (R240, R300). -/
theorem resetBlock_eq (s : State p) : resetBlock s = State.resetWith (resetBlock s).env := rfl

theorem resetBlock_env (s : State p) :
    (resetBlock s).env.snk = { s.env.snk with attached := false } ∧
      (resetBlock s).env.src = { s.env.src with attached := false } ∧ (resetBlock s).env.sym = s.env.sym ∧
      (resetBlock s).env.inputs = s.env.inputs ∧ (resetBlock s).env.readData = s.env.readData := by
  have k : ∀ (c : Sink), c.attached = false → c = { c with attached := false } := by
    intro c h; cases c; simp_all
  have j : ∀ (c : Source), c.attached = false → c = { c with attached := false } := by
    intro c h; cases c; simp_all
  unfold resetBlock
  cases hw : s.env.snk.attached <;> cases hr : s.env.src.attached <;> simp [hr]
  · exact ⟨k _ hw, j _ hr⟩
  · exact k _ hw
  · exact j _ hr

end Sys2Proof.Machine
end

