-- ==== Sys2Proof/Laws/CodeMap.lean ====
section
/-! SUPPORT. The code-map walk in terms of the tree (43_codemap.md R200 to R202): CMAP's scan over a tree in TM records
the walk of that tree, or finds a repeated value. -/

namespace Sys2Proof.Machine

variable {p : Params}

/-- Record one code after another; none when a value already has one (R204). -/
def recordAll : List (Byte × List Bool) → List (Byte × List Bool) → Option (List (Byte × List Bool))
  | [], cm => some cm
  | (v, c) :: rest, cm =>
    match cmLookup v cm with
    | some _ => none
    | none => recordAll rest (cmInsert v c cm)

theorem recordAll_append (a b cm : List (Byte × List Bool)) :
    recordAll (a ++ b) cm = (recordAll a cm).bind (recordAll b) := by
  induction a generalizing cm with
  | nil => rfl
  | cons e a ih =>
    obtain ⟨v, c⟩ := e
    simp only [List.cons_append, recordAll]
    split
    · rfl
    · exact ih _

theorem cmapScan_append (a b : List (TmEntry p)) (s : State p) :
    cmapScan (a ++ b) s = (cmapScan a s).andThen fun s' _ => cmapScan b s' := by
  induction a generalizing s with
  | nil => rfl
  | cons e a ih =>
    cases e with
    | leaf v => simp only [List.cons_append, cmapScan, Micro.andThen_assoc]; congr; funext s' _; exact ih s'
    | int r => simp only [List.cons_append, cmapScan]; exact ih _

/-- Where the walk goes on after the tree in TM has been scanned: the last node that was left, its right side. -/
def afterWalk (cm : List (Byte × List Bool)) (last : List Bool) (s : State p) : State p :=
  match s.mem.stk with
  | [] => (s.setMem { s.mem with cm := cm }).setCtl { s.ctl with path := last }
  | d :: rest =>
    (s.setMem { s.mem with cm := cm, stk := rest }).setCtl { s.ctl with path := s.ctl.path.take d.toNat ++ [true] }

/-- The path to the last leaf of a tree whose root is at `path`. -/
def lastPath : Tree → List Bool → List Bool
  | .leaf _, path => path
  | .node _ r, path => lastPath r (path ++ [true])

/-- CMAP's scan over a tree whose root is at the path so far (R201): the codes of the walk are recorded, in order, and
the walk goes on after the tree; a repeated value faults and has changed CM, STK and PATH only. -/
theorem cmapScan_layout (t : Tree) (base : Nat) (s : State p)
    (hd : ∀ d rest, s.mem.stk = d :: rest → d.toNat ≤ s.ctl.path.length)
    (hp : s.ctl.path.length + t.height ≤ p.nodeCap) :
    (∀ cm, recordAll (walk t s.ctl.path) s.mem.cm = some cm →
      cmapScan (layout base t p) s = .ok (afterWalk cm (lastPath t s.ctl.path) s) ()) ∧
    (recordAll (walk t s.ctl.path) s.mem.cm = none →
      ∃ cm stk path, cmapScan (layout base t p) s = .raise .dupSymbol
        ((s.setMem { s.mem with cm := cm, stk := stk }).setCtl { s.ctl with path := path })) := by
  induction t generalizing base s with
  | leaf v =>
    simp only [walk, recordAll, layout, cmapScan]
    rcases cmapLeaf_cases v s with ⟨c, hl, e⟩ | ⟨hl, hs, e⟩ | ⟨d, rest, hl, hs, e⟩
    · rw [hl, e]
      exact ⟨fun cm h => by simp at h, fun _ => ⟨s.mem.cm, s.mem.stk, s.ctl.path, rfl⟩⟩
    · rw [hl, e]
      refine ⟨fun cm h => ?_, fun h => by simp at h⟩
      cases h; simp [afterWalk, hs, lastPath]
      rfl
    · rw [hl, e]
      refine ⟨fun cm h => ?_, fun h => by simp at h⟩
      cases h; simp [afterWalk, hs]
  | node l r hl hr =>
    simp only [Tree.height] at hp
    simp only [walk, layout, cmapScan, recordAll_append, cmapScan_append]
    have hlen := index_toNat (p := p) (by omega : s.ctl.path.length < p.nodeCap)
    have il := hl (base + 1) (cmapInternal s) (by
        intro d rest h
        simp only [cmapInternal, State.setCtl_mem, State.setMem_mem, List.cons.injEq] at h
        rw [← h.1, hlen]; simp [cmapInternal]) (by simp [cmapInternal]; omega)
    have hpath : (cmapInternal s).ctl.path = s.ctl.path ++ [false] := rfl
    have hcm : (cmapInternal s).mem.cm = s.mem.cm := rfl
    rw [hpath, hcm] at il
    cases hw : recordAll (walk l (s.ctl.path ++ [false])) s.mem.cm with
    | none =>
      refine ⟨fun cm h => by simp at h, fun _ => ?_⟩
      obtain ⟨cm, stk, path, e⟩ := il.2 hw
      exact ⟨cm, stk, path, by rw [e]; rfl⟩
    | some cm1 =>
      have e1 : afterWalk cm1 (lastPath l (s.ctl.path ++ [false])) (cmapInternal s) =
          (s.setMem { s.mem with cm := cm1 }).setCtl { s.ctl with path := s.ctl.path ++ [true] } := by
        simp [afterWalk, cmapInternal]
        rw [Nat.mod_eq_of_lt (by omega)]; simp
        rfl
      rw [il.1 cm1 hw, e1]
      have ir := hr (base + 1 + l.size)
        ((s.setMem { s.mem with cm := cm1 }).setCtl { s.ctl with path := s.ctl.path ++ [true] })
        (by intro d rest h; have := hd d rest h; simp; omega) (by simp; omega)
      simp only [State.setCtl_ctl, State.setCtl_mem, State.setMem_mem] at ir
      simp only [Option.bind_some, Micro.andThen_ok]
      refine ⟨fun cm h => ?_, fun h => ?_⟩
      · rw [ir.1 cm h]
        congr 1
        unfold afterWalk
        cases hs : s.mem.stk with
        | nil => simp [hs, lastPath]; rfl
        | cons d rest =>
          have := hd d rest hs
          simp [List.take_append_of_le_length this]; rfl
      · obtain ⟨cm, stk, path, e⟩ := ir.2 h
        exact ⟨cm, stk, path, by rw [e]; rfl⟩

end Sys2Proof.Machine
end

