-- ==== Sys2Proof/Laws/Decoder.lean ====
section
/-! SUPPORT. The decoder's steps in terms of the tree (45_decoder.md R222, R224): what an emit can do, and what a payload
bit does at an internal node and at a pending leaf. -/

namespace Sys2Proof.Machine

variable {p : Params}

/-- Everything an emit to the symbol sink can do (20_memory.md R65). -/
theorem symEmit_cases (b : Byte) (s : State p) :
    (atMax s.cnt.dec = true ∧ symEmit b s = .raise .countOvf s) ∨
    (atMax s.cnt.dec = false ∧ s.env.sym.answer = true ∧ symEmit b s =
      .ok ((s.port (.symEmit b true)).setCnt { s.cnt with dec := s.cnt.dec + 1#p.cntW }) ()) ∨
    (atMax s.cnt.dec = false ∧ s.env.sym.answer = false ∧ symEmit b s =
      .raise .ioSym (s.port (.symEmit b false))) := by
  unfold symEmit
  cases hm : atMax s.cnt.dec <;> cases ha : s.env.sym.answer <;> simp

/-- What a successful emit does: the symbol is in the sink and counted, and nothing else but the trace changes. -/
structure Emitted (b : Byte) (s t : State p) : Prop where
  w : t.w = s.w
  r : t.r = s.r
  res : t.res = s.res
  mem : t.mem = s.mem
  ctl : t.ctl = s.ctl
  enc : t.cnt.enc = s.cnt.enc
  dec : t.cnt.dec.toNat = s.cnt.dec.toNat + 1
  cfg : t.cfg = s.cfg
  flt : t.flt = s.flt
  snk : t.env.snk = s.env.snk
  src : t.env.src = s.env.src
  data : t.env.sym.data = s.env.sym.data ++ [b]
  inputs : t.env.inputs = s.env.inputs
  readData : t.env.readData = s.env.readData
  reliable : symReliable s → symReliable t

theorem symEmit_emitted {b : Byte} {s t : State p} (h : symEmit b s = .ok t ()) : Emitted b s t := by
  rcases symEmit_cases b s with ⟨_, e⟩ | ⟨hm, _, e⟩ | ⟨_, _, e⟩ <;> rw [e] at h <;> cases h
  refine ⟨rfl, rfl, rfl, rfl, rfl, rfl, counter_succ hm, rfl, rfl, ?_, ?_, ?_, ?_, ?_, ?_⟩
  · simp
  · simp
  · simp
  · simp
  · simp
  · intro hr; simpa [symReliable] using tail_of_all hr

/-- With a reliable symbol sink and room to count, a symbol is emitted (R65). -/
theorem symEmit_completes {s : State p} (b : Byte) (hr : symReliable s) (hc : s.cnt.dec.toNat + 1 < 2 ^ p.cntW) :
    ∃ t, symEmit b s = .ok t () ∧ Emitted b s t := by
  have hm := atMax_false hc
  have ha : s.env.sym.answer = true := headD_of_all hr
  rcases symEmit_cases b s with ⟨h, _⟩ | ⟨_, _, e⟩ | ⟨_, h, _⟩
  · simp [hm] at h
  · exact ⟨_, e, symEmit_emitted e⟩
  · simp [ha] at h

/-- Whether the tree is a single leaf, in TM (R220, R224). -/
theorem rootIsLeaf_leaf {s : State p} {v : Byte} (h : HoldsTree s.mem (.leaf v)) :
    rootIsLeaf s = true ∧ readVal s.mem.tm 0 = v := by
  have e := (SubtreeAt.root h).leaf
  exact ⟨by simp [rootIsLeaf, readNode_written e, TmEntry.isLeaf], readVal_written e⟩

theorem rootIsLeaf_node {s : State p} {l r : Tree} (h : HoldsTree s.mem (.node l r)) : rootIsLeaf s = false := by
  simp [rootIsLeaf, readNode_written (SubtreeAt.root h).node.1, TmEntry.isLeaf]

/-- A payload bit at an internal node moves the cursor to the child (R222, R248 (a)). -/
theorem walkStep_node {s : State p} {l r : Tree} (b : Bool) (hcap : s.mem.tm.length ≤ p.nodeCap)
    (h : SubtreeAt s.mem.tm s.ctl.cur.toNat (.node l r)) :
    ∃ x, walkStep b s = .ok (setCur x s) () ∧ SubtreeAt s.mem.tm x.toNat ((Tree.node l r).child b) := by
  obtain ⟨e, kl, kr⟩ := h.node
  have := kr.size_le; have := r.size_pos; have := kl.size_le; have := l.size_pos
  unfold walkStep emitPending
  rw [readNode_written e]
  cases b with
  | false =>
    refine ⟨s.ctl.cur + 1#p.idxW, rfl, ?_⟩
    have : (s.ctl.cur + 1#p.idxW).toNat = s.ctl.cur.toNat + 1 := by
      rw [BitVec.toNat_add, index_toNat (by omega)]
      exact Nat.mod_eq_of_lt (by have := p.nodeCap_le; omega)
    rw [this]; exact kl
  | true =>
    refine ⟨BitVec.ofNat p.idxW (s.ctl.cur.toNat + 1 + l.size), by simp [descend, readRight_written e], ?_⟩
    rw [index_toNat (by omega)]; exact kr

/-- A payload bit at a pending leaf emits its value and goes on from the root (R222). -/
theorem walkStep_leaf {s : State p} {v : Byte} (b : Bool) (h : SubtreeAt s.mem.tm s.ctl.cur.toNat (.leaf v)) :
    walkStep b s = (symEmit v s).andThen fun s' _ => .ok (descend b (setCur 0#p.idxW s')) () := by
  unfold walkStep emitPending
  rw [readNode_written h.leaf]
  exact Micro.andThen_assoc _ _ _

end Sys2Proof.Machine
end

