-- ==== Sys2Proof/Laws/Header.lean ====
section
/-! SUPPORT. SER's scan and DESER's fetch (42_tree_serdes.md R176, R177): what they write and what they read, as bits. -/

namespace Sys2Proof.Machine

variable {p : Params}

/-- SER's scan writes the bits of the entries, in index order (R176). -/
theorem serScan_eq (es : List (TmEntry p)) (s : State p) : serScan es s = writeBits (es.flatMap TmEntry.bits) s := by
  induction es generalizing s with
  | nil => rfl
  | cons e es ih =>
    rw [List.flatMap_cons, writeBits_append]
    have he : serEntry e s = writeBits e.bits s := by
      cases e with
      | leaf v => rfl
      | int r => simp [serEntry, TmEntry.bits, writeBits]; cases writeBit false s <;> rfl
    rw [serScan, he]
    simp only [ih]

/-- A token that is there is fetched whole, and nothing more (R99, R177). -/
theorem fetchToken_completes {s : State p} {tok : Token} {rest : List Bool} (hb : remainingBits s = tok.bits ++ rest)
    (hr : sourceReliable s) (hc : readRoom s tok.bits.length) :
    ∃ t, fetchToken s = .ok t (some tok) ∧ Took tok.bits s t ∧ remainingBits t = rest := by
  cases tok with
  | internal =>
    obtain ⟨t, h, k, e⟩ := readBit_completes (by simpa [Token.bits] using hb) hr hc
    exact ⟨t, by simp [fetchToken, h], k, e⟩
  | leaf v =>
    obtain ⟨s1, h1, k1, e1⟩ := readBit_completes (s := s) (b := true) (rest := bits8 v ++ rest)
      (by simpa [Token.bits] using hb) hr (by simp [readRoom, Token.bits] at hc ⊢; omega)
    obtain ⟨t, h2, k2, e2⟩ := readByte_completes (bits8_length v) e1 (k1.reliable hr)
      (by have := k1.rbits; simp [readRoom, Token.bits] at hc this ⊢; omega)
    exact ⟨t, by simp [fetchToken, h1, h2, val8_bits8], k1.trans k2, e2⟩

/-- When the bits end inside the token, what there was is consumed and no token comes (R101, R177). -/
theorem fetchToken_short {s : State p} (hb : takeToken (remainingBits s) = none) (hr : sourceReliable s)
    (hc : readRoom s (remainingBits s).length) :
    ∃ t, fetchToken s = .ok t none ∧ Took (remainingBits s) s t ∧ t.r.eos = true := by
  match hl : remainingBits s, hb with
  | [], _ =>
    obtain ⟨t, h⟩ := readBit_completes_eos hl hr
    obtain ⟨k, _, e, _⟩ := readBit_eos h
    exact ⟨t, by simp [fetchToken, h], k, e⟩
  | true :: rest, hb =>
    rw [hl] at hc
    have hlen : rest.length < 8 := by
      rw [takeToken] at hb
      split at hb
      · assumption
      · cases hb
    obtain ⟨s1, h1, k1, e1⟩ := readBit_completes hl hr (by simp [readRoom] at hc ⊢; omega)
    obtain ⟨t, h2, k2, e2⟩ := readByte_eos (s := s1) (by rw [e1]; exact hlen) (k1.reliable hr)
      (by rw [e1]; have := k1.rbits; simp [readRoom] at hc this ⊢; omega)
    rw [e1] at k2
    exact ⟨t, by simp [fetchToken, h1, h2], k1.trans k2, e2⟩
  | false :: rest, hb => rw [takeToken] at hb; cases hb

end Sys2Proof.Machine
end

