-- ==== Sys2Proof/Laws/Loops.lean ====
section
/-! SUPPORT. The loops of DESER and DECODE never use up the iterations they are given (log 18): more iterations change
nothing (42_tree_serdes.md R177, 45_decoder.md R225; 70_reset_and_hazards.md R321: every command terminates). -/

namespace Sys2Proof.Machine

variable {p : Params}

/-! ### DESER -/

theorem readBit_mem {s t : State p} {o : Option Bool} (h : readBit s = .ok t o) : t.mem = s.mem := by
  cases o with
  | none => exact (readBit_eos h).1.frame.mem
  | some b => exact (readBit_took h).frame.mem

theorem readBitsInto_mem (n : Nat) (v : Byte) {s t : State p} {o : Option Byte} (h : readBitsInto n v s = .ok t o) :
    t.mem = s.mem := by
  induction n generalizing v s with
  | zero => cases h; rfl
  | succ n ih =>
    obtain ⟨s1, r, h1, h2⟩ := Micro.andThen_eq_ok.mp h
    cases r with
    | none => cases h2; exact readBit_mem h1
    | some b => exact (ih _ h2).trans (readBit_mem h1)

theorem fetchToken_mem {s t : State p} {o : Option Token} (h : fetchToken s = .ok t o) : t.mem = s.mem := by
  obtain ⟨s1, r, h1, h2⟩ := Micro.andThen_eq_ok.mp h
  match r with
  | none => cases h2; exact readBit_mem h1
  | some false => cases h2; exact readBit_mem h1
  | some true =>
    obtain ⟨s2, v, h3, h4⟩ := Micro.andThen_eq_ok.mp h2
    have e := (readBitsInto_mem 8 0#8 h3).trans (readBit_mem h1)
    cases v <;> cases h4 <;> exact e

/-- Every accepted token takes an entry of TM (R172). -/
theorem accept_nn {tok : Token} {s t : State p} (h : accept tok s = .ok t ()) : t.nn = s.nn + 1 ∧ s.nn ≠ p.nodeCap := by
  rcases accept_cases tok s with e | ⟨hn, _, _, e⟩ | ⟨hn, v, _, e⟩ <;> rw [e] at h <;> cases h
  · exact ⟨by simp [afterInternal, State.nn], hn⟩
  · refine ⟨?_, hn⟩
    unfold afterTree
    split <;> simp [State.nn, layout]

/-- DESER's loop with more iterations than TM has room for (R177). -/
theorem deserLoop_fuel (n k : Nat) (s : State p) (hn : s.nn ≤ p.nodeCap) (h : p.nodeCap < s.nn + n) :
    deserLoop (n + k) s = deserLoop n s := by
  induction n generalizing s with
  | zero => omega
  | succ n ih =>
    rw [show n + 1 + k = (n + k) + 1 by omega, deserLoop, deserLoop]
    split
    · rfl
    · cases hf : fetchToken s with
      | raise x t => rfl
      | ok t o =>
        cases o with
        | none => rfl
        | some tok =>
          simp only [Micro.andThen_ok]
          cases ha : accept tok t with
          | raise x u => rfl
          | ok u a =>
            have hm := fetchToken_mem hf
            have ⟨h1, h2⟩ := accept_nn ha
            have h3 : t.nn = s.nn := by unfold State.nn; rw [hm]
            exact ih u (by omega) (by omega)

/-! ### DECODE -/

/-- What the unpacker has left is no more than what DECODE allows for. -/
theorem remainingBits_le (s : State p) : (remainingBits s).length ≤ bitsLeft s := by
  unfold remainingBits bitsLeft
  split
  · simp
  · simp

theorem emitPending_stream {s t : State p} (h : emitPending s = .ok t ()) : t.r = s.r ∧ t.env.src = s.env.src := by
  unfold emitPending at h
  split at h
  · obtain ⟨s1, _, h1, h2⟩ := Micro.andThen_eq_ok.mp h
    have e := symEmit_emitted h1
    cases h2
    exact ⟨e.r, e.src⟩
  · cases h; exact ⟨rfl, rfl⟩

/-- A payload bit reads nothing by itself. -/
theorem payloadStep_stream {b : Bool} {s t : State p} (h : payloadStep b s = .ok t ()) :
    t.r = s.r ∧ t.env.src = s.env.src := by
  unfold payloadStep at h
  split at h
  · unfold rootLeafStep at h
    split at h
    · exact ⟨(symEmit_emitted h).r, (symEmit_emitted h).src⟩
    · cases h; exact ⟨rfl, rfl⟩
  · obtain ⟨s1, _, h1, h2⟩ := Micro.andThen_eq_ok.mp h
    have e := emitPending_stream h1
    cases h2
    unfold descend
    cases b <;> exact e

/-- DECODE's loop with more iterations than bits are left (R225). -/
theorem decodeLoop_fuel (n k : Nat) (s : State p) (h : (remainingBits s).length < n) :
    decodeLoop (n + k) s = decodeLoop n s := by
  induction n generalizing s with
  | zero => omega
  | succ n ih =>
    rw [show n + 1 + k = (n + k) + 1 by omega, decodeLoop, decodeLoop]
    split
    · rfl
    · cases hr : readBit s with
      | raise x t => rfl
      | ok t o =>
        cases o with
        | none => rfl
        | some b =>
          simp only [Micro.andThen_ok]
          cases hp : payloadStep b t with
          | raise x u => rfl
          | ok u a =>
            have hlt := readBit_remaining_lt hr
            have ⟨h1, h2⟩ := payloadStep_stream hp
            have h3 : remainingBits u = remainingBits t := by unfold remainingBits; rw [h1, h2]
            exact ih u (by rw [h3]; omega)

end Sys2Proof.Machine
end

