-- ==== Sys2Proof/Laws/Step.lean ====
section
/-! SUPPORT. What a step and a word on the command port can do, once each (10_state.md R30, 60_exceptions.md R274), so
that no proof unfolds them. -/

namespace Sys2Proof.Machine

/-- R300: with nothing to take the block is idle. -/
theorem step_idle {s : State} (h : s.env.inputs = []) : step s = .next s := by simp [step, stepAt, h]

/-- A step takes the first host input. -/
theorem step_take {s : State} {i : HostInput} {rest : List HostInput} (h : s.env.inputs = i :: rest) :
    step s = takeInput i (s.setEnv { s.env with inputs := rest }) := by simp [step, stepAt, h]

/-- R274 (1): a word other than RESET's is dropped while FAULTED. -/
theorem takeWord_dropped {w : CmdWord} {s : State} (hw : w ≠ 0x0100#16) (h : s.flt.faulted = true) :
    takeWord w s = .next s := if_pos (by rw [h, Bool.true_and, bne_iff_ne]; exact hw)

/-- R274: a command's word runs its instruction. -/
theorem takeWord_decoded {w : CmdWord} {i : Instr} {s : State} (hd : decode (.word w) = .ok i)
    (h : s.flt.faulted = false ∨ w = 0x0100#16) : takeWord w s = exec i s := by
  unfold takeWord
  rw [if_neg (by rcases h with h | h <;> rw [h] <;> simp [show (0x0100#16 != resetWord) = false from rfl]), hd]
  exact execAt_default i s

/-- R274 (2), R94: a reserved word is ILLEGAL_CMD. -/
theorem takeWord_reserved {w : CmdWord} {x : Reserved} {s : State} (hd : decode (.word w) = .error x)
    (h : s.flt.faulted = false) : takeWord w s = .next (raiseFault .illegalCmd w s) := by
  unfold takeWord
  rw [if_neg (by simp [h]), hd]

/-- R13: a word always gives a next state. -/
theorem takeWord_next (w : CmdWord) (s : State) : ∃ t, takeWord w s = .next t := by
  unfold takeWord
  split
  · exact ⟨s, rfl⟩
  · split
    · rw [execAt_default]; exact exec_next _ _
    · exact ⟨_, rfl⟩

/-- R13: every host input gives a next state. -/
theorem takeInput_next (i : HostInput) (s : State) : ∃ t, takeInput i s = .next t := by
  cases i with
  | command w => exact takeWord_next w s
  | resetDuring w k =>
    obtain ⟨t, e⟩ := takeWord_next w s
    exact ⟨_, by simp only [takeInput, resetDuring, e]; rfl⟩
  | writeReg | readReg | resetInput | offerSink | offerSource | attachSym => exact ⟨_, rfl⟩

end Sys2Proof.Machine
end

