-- ==== Sys2Proof/Laws/Macro.lean ====
section
/-! SUPPORT. How a macro ends (46_system_and_macros.md R243, R244): at the first fault, or with every command done. -/

namespace Sys2Proof.Machine

variable {p : Params}

/-- A host input that faults ends the macro, and its fault is reported. -/
theorem runMacro_faulting {i : HostInput p} {s t : State p} (rest : List (HostInput p)) (h : takeInput i s = .next t)
    (hf : t.flt.faulted = true) : runMacro (i :: rest) s = some (.faulted t.flt t) := by
  simp [runMacro, h, hf]

/-- A host input that does not fault is followed by the rest. -/
theorem runMacro_next {i : HostInput p} {s t : State p} (rest : List (HostInput p)) (h : takeInput i s = .next t)
    (hf : t.flt.faulted = false) : runMacro (i :: rest) s = runMacro rest t := by
  simp [runMacro, h, hf]

/-- A macro that is done has done all its inputs, without a fault. -/
theorem runMacro_done {is : List (HostInput p)} {s u : State p} (h : runMacro is s = some (.done u)) :
    runHost is s = some u ∧ (s.flt.faulted = false → u.flt.faulted = false) := by
  induction is generalizing s with
  | nil => cases h; exact ⟨rfl, id⟩
  | cons i rest ih =>
    cases e : takeInput i s with
    | next t =>
      cases hf : t.flt.faulted with
      | true => rw [runMacro_faulting rest e hf] at h; cases h
      | false =>
        rw [runMacro_next rest e hf] at h
        exact ⟨by simpa [runHost, e] using (ih h).1, fun _ => (ih h).2 hf⟩
    | fault x => simp [runMacro, e] at h
    | refused x => simp [runMacro, e] at h

/-- A macro that faults stopped right after the first input that faulted: the inputs before it are done, none after it
is, and the state and the report are those of that fault (R243: "the macro ends there"). -/
theorem runMacro_faulted {is : List (HostInput p)} {s u : State p} {f : FaultRecord}
    (h : runMacro is s = some (.faulted f u)) :
    ∃ pre i post v, is = pre ++ i :: post ∧ runMacro pre s = some (.done v) ∧ takeInput i v = .next u ∧
      u.flt.faulted = true ∧ f = u.flt := by
  induction is generalizing s with
  | nil => cases h
  | cons i rest ih =>
    cases e : takeInput i s with
    | next t =>
      cases hf : t.flt.faulted with
      | true =>
        rw [runMacro_faulting rest e hf] at h
        cases h
        exact ⟨[], i, rest, s, rfl, rfl, e, hf, rfl⟩
      | false =>
        rw [runMacro_next rest e hf] at h
        obtain ⟨pre, j, post, v, rfl, h1, h2⟩ := ih h
        exact ⟨i :: pre, j, post, v, rfl, by rw [runMacro_next pre e hf, h1], h2⟩
    | fault x => simp [runMacro, e] at h
    | refused x => simp [runMacro, e] at h

/-- Every macro ends (R13). -/
theorem runMacro_ends (is : List HostInput) (s : State) : ∃ e, runMacro is s = some e := by
  induction is generalizing s with
  | nil => exact ⟨_, rfl⟩
  | cons i rest ih =>
    obtain ⟨t, e⟩ := takeInput_next i s
    cases hf : t.flt.faulted with
    | true => exact ⟨_, runMacro_faulting rest e hf⟩
    | false => rw [runMacro_next rest e hf]; exact ih t

/-- R272: an empty buffer is rejected before any command. -/
theorem runCompress_empty (s : State p) : runCompress [] s = some (.rejected .emptyInput s) := by
  have : compress [] p = .error .emptyInput := by
    have : buildTree (frequencies []) = none := by decide
    simp [compress, this]
  simp [runCompress, this]

end Sys2Proof.Machine
end

