-- ==== Sys2Proof/Laws/PerInstr.lean ====
section
/-! SUPPORT. The family EncodeDecode, one lemma per instruction: a well-formed instruction's encoding decodes to it
(30_encoding.md R92, R96 to R98). -/

/-- Decoding undoes encoding. -/
def Sys2Proof.Laws.EncodeDecode.Statement (i : Sys2Proof.Instr) : Prop :=
  i.wellFormed = true → Sys2Proof.decode (Sys2Proof.encode i) = .ok i

namespace Sys2Proof.Laws.EncodeDecode

open Sys2Proof

theorem word_ok {i : Instr} {w : CmdWord} (he : encode i = .word w) (hd : decodeCommand w = .ok i) : Statement i :=
  fun _ => by rw [he]; exact hd

theorem token_ok {tok : Token} (he : encode tok.toInstr = .token tok.bits) : Statement tok.toInstr := fun _ => by
  have := takeToken_bits tok []
  rw [List.append_nil] at this
  rw [he, decode, this]

theorem reset : Statement .reset := word_ok rfl rfl

theorem openw : Statement .openw := word_ok rfl rfl

theorem wbit (opd : Byte) : Statement (.wbit opd) := fun h => by
  simp only [Instr.wellFormed] at h
  simp [encode, decode, decodeCommand, Instr.cmdWord, opc_word, opd_word, bitOperand, h]

theorem wbyte (v : Byte) : Statement (.wbyte v) := word_ok rfl (by simp [decodeCommand, Instr.cmdWord, opc_word, opd_word])

theorem flush : Statement .flush := word_ok rfl rfl

theorem closew : Statement .closew := word_ok rfl rfl

theorem openr : Statement .openr := word_ok rfl rfl

theorem rbit : Statement .rbit := word_ok rfl rfl

theorem rbyte : Statement .rbyte := word_ok rfl rfl

theorem closer : Statement .closer := word_ok rfl rfl

theorem tbegin : Statement .tbegin := word_ok rfl rfl

theorem tnode : Statement .tnode := word_ok rfl rfl

theorem tleaf (v : Byte) : Statement (.tleaf v) := word_ok rfl (by simp [decodeCommand, Instr.cmdWord, opc_word, opd_word])

theorem ser : Statement .ser := word_ok rfl rfl

theorem deser : Statement .deser := word_ok rfl rfl

theorem cmap : Statement .cmap := word_ok rfl rfl

theorem enc (v : Byte) : Statement (.enc v) := word_ok rfl (by simp [decodeCommand, Instr.cmdWord, opc_word, opd_word])

theorem decode : Statement .decode := word_ok rfl rfl

theorem leaf (v : Byte) : Statement (.leaf v) := token_ok (tok := .leaf v) rfl

theorem internal : Statement .internal := token_ok (tok := .internal) rfl

theorem left : Statement .left := fun _ => rfl

theorem right : Statement .right := fun _ => rfl

end Sys2Proof.Laws.EncodeDecode
end

