-- ==== Sys2Proof/Laws/Stop.lean ====
section
/-! SUPPORT. Where the decoder stops on a payload (45_decoder.md R228): `decStop` leaves unread what R228 says. -/

namespace Sys2Proof.Machine

/-- A code leads from its node to its leaf, and reads no further (R200, R222). -/
theorem walkStop_code (t : Tree) (lim : Option Nat) {c : Tree} {pre code : List Bool} {v : Byte}
    (h : (v, code) ∈ walk c pre) : ∃ q, code = pre ++ q ∧
      ∀ s n, lim ≠ some n → walkStop t lim (q ++ s) c n = walkStop t lim s (.leaf v) n := by
  induction c generalizing pre with
  | leaf w =>
    simp only [walk, List.mem_singleton, Prod.mk.injEq] at h
    obtain ⟨rfl, rfl⟩ := h
    exact ⟨[], by simp, fun _ _ _ => rfl⟩
  | node l r hl hr =>
    rcases List.mem_append.mp h with h | h
    · obtain ⟨q, rfl, e⟩ := hl h
      exact ⟨false :: q, by simp, fun s n hn => by simp [walkStop, hn, Tree.child, e s n hn]⟩
    · obtain ⟨q, rfl, e⟩ := hr h
      exact ⟨true :: q, by simp, fun s n hn => by simp [walkStop, hn, Tree.child, e s n hn]⟩

/-- From a pending leaf the walk goes on as from the root with one symbol more (R222). -/
theorem walkStop_pending {l r : Tree} {lim : Option Nat} (v : Byte) (s : List Bool) {n : Nat} (h : lim ≠ some n)
    (h1 : lim ≠ some (n + 1)) :
    walkStop (.node l r) lim s (.leaf v) n = walkStop (.node l r) lim s (.node l r) (n + 1) := by
  cases s <;> simp [walkStop, h, h1]

/-- The last symbol of the limit is emitted by the next bit or the sentinel (R223, R228). -/
theorem walkStop_last {l r : Tree} (v : Byte) (s : List Bool) (n : Nat) :
    walkStop (.node l r) (some (n + 1)) s (.leaf v) n = (s.drop 1, decide (s = [])) := by
  rcases s with _ | ⟨b, s⟩
  · simp [walkStop]
  · cases s <;> simp [walkStop]

theorem code_of_leaf {l r : Tree} {v : Byte} (h : v ∈ (Tree.node l r).leaves) :
    ∃ code, codeOf (.node l r) v = some code ∧ (v, code) ∈ walk (.node l r) [] := by
  have hw : ∀ (c : Tree) (pre : List Bool), (walk c pre).map Prod.fst = c.leaves := by
    intro c
    induction c with
    | leaf w => intro pre; rfl
    | node a b ha hb => intro pre; simp [walk, Tree.leaves, ha, hb]
  have hm : ∀ e : List (Byte × List Bool), v ∈ e.map Prod.fst → ∃ code, e.lookup v = some code ∧ (v, code) ∈ e := by
    intro e
    induction e with
    | nil => simp
    | cons x e ih =>
      obtain ⟨k, c⟩ := x
      intro hv
      by_cases hk : v = k
      · subst hk; exact ⟨c, by simp [List.lookup], by simp⟩
      · have : v ∈ e.map Prod.fst := by simpa [hk] using hv
        obtain ⟨code, e1, e2⟩ := ih this
        exact ⟨code, by simp [List.lookup, beq_eq_false_iff_ne.mpr hk, e1], List.mem_cons_of_mem _ e2⟩
  exact hm _ (by rw [codes, hw]; exact h)

theorem walkStop_payload {l r : Tree} (b : List Byte) (hb : b ≠ []) (hv : ∀ v ∈ b, v ∈ (Tree.node l r).leaves)
    (rest : List Bool) (n : Nat) :
    walkStop (.node l r) (some (n + b.length)) (payload (.node l r) b ++ rest) (.node l r) n =
      (rest.drop 1, decide (rest = [])) := by
  induction b generalizing n with
  | nil => exact absurd rfl hb
  | cons v b ih =>
    obtain ⟨code, hc, hm⟩ := code_of_leaf (hv v (by simp))
    obtain ⟨q, rfl, e⟩ := walkStop_code (.node l r) (some (n + (v :: b).length)) hm
    simp only [payload, List.flatMap_cons, hc, Option.getD_some, List.append_assoc] at e ⊢
    rw [e _ _ (by simp)]
    rcases b with _ | ⟨w, b⟩
    · exact walkStop_last v rest n
    · rw [walkStop_pending v _ (by simp) (by simp)]
      have := ih (by simp) (fun x hx => hv x (by simp [hx])) (n + 1)
      rw [show n + (v :: w :: b).length = n + 1 + (w :: b).length by simp; omega]
      exact this

theorem onesStop_payload (v : Byte) (b : List Byte) (hv : ∀ x ∈ b, x = v) (rest : List Bool) (n : Nat) :
    onesStop (some (n + b.length)) (payload (.leaf v) b ++ rest) n = (rest, false) := by
  induction b generalizing n with
  | nil => cases rest <;> simp [payload, onesStop]
  | cons x b ih =>
    obtain rfl := hv x (by simp)
    have := ih (fun y hy => hv y (by simp [hy])) (n + 1)
    simp only [payload, List.flatMap_cons, codeOf, codes, List.lookup, beq_self_eq_true, Option.getD_some,
      List.cons_append, List.nil_append, onesStop] at this ⊢
    rw [if_neg (by simp), if_pos trivial, show n + (x :: b).length = n + 1 + b.length by simp; omega]
    exact this

/-- R228: with the byte count as the limit the bits consumed are the payload, and one more if the tree has at least two
leaves, there is a byte, and a bit is left. -/
theorem decStop_payload (t : Tree) (b : List Byte) (hv : ∀ v ∈ b, v ∈ t.leaves) (rest : List Bool) :
    decStop t (payload t b ++ rest) (some b.length) =
      match t with
      | .leaf _ => (rest, false)
      | .node _ _ => if b = [] then (rest, false) else (rest.drop 1, decide (rest = [])) := by
  cases t with
  | leaf v =>
    have := onesStop_payload v b (by simpa [Tree.leaves] using hv) rest 0
    simpa [decStop] using this
  | node l r =>
    by_cases hb : b = []
    · subst hb; cases rest <;> simp [decStop, payload, walkStop]
    · have := walkStop_payload b hb hv rest 0
      simpa [decStop, hb] using this

end Sys2Proof.Machine
end

