-- ==== Sys2Proof/Tests/Slice0.lean ====
section
/-! SUPPORT. The model's own tests. Expected results are the spec's own vectors (95_test_vectors.md, named beside each
test) or its encodings (30_encoding.md); the second half shows, for each statement, a concrete case that meets its
hypotheses. -/

namespace Sys2Proof.Tests

open Sys2Proof Sys2Proof.Machine

/-! ### WellFormed refuses -/

/-- R92: WBIT's `opd[7:1]` must be 0; bit 1, bit 7 and all of them set. -/
theorem test_wellFormed_refuses_wbit :
    (Instr.wbit 0x02#8).wellFormed = false ∧ (Instr.wbit 0x81#8).wellFormed = false ∧
      (Instr.wbit 0xFE#8).wellFormed = false := by decide

theorem test_wellFormed_accepts_wbit :
    (Instr.wbit 0x00#8).wellFormed = true ∧ (Instr.wbit 0x01#8).wellFormed = true := by decide

/-! ### Decoding, from words and tokens written out from the spec's encodings (R92, R96 to R98) -/

theorem test_decode_reset : decode (.word 0b0000000100000000#16) = .ok .reset := by decide
theorem test_decode_openw : decode (.word 0b0001000000000000#16) = .ok .openw := by decide
theorem test_decode_wbit : decode (.word 0b0001000100000001#16) = .ok (.wbit 1#8) := by decide
theorem test_decode_wbyte : decode (.word 0b0001001001000001#16) = .ok (.wbyte 0x41#8) := by decide
theorem test_decode_flush : decode (.word 0b0001001100000000#16) = .ok .flush := by decide
theorem test_decode_closew : decode (.word 0b0001010000000000#16) = .ok .closew := by decide
theorem test_decode_openr : decode (.word 0b0001100000000000#16) = .ok .openr := by decide
theorem test_decode_rbit : decode (.word 0b0001100100000000#16) = .ok .rbit := by decide
theorem test_decode_rbyte : decode (.word 0b0001101000000000#16) = .ok .rbyte := by decide
theorem test_decode_closer : decode (.word 0b0001101100000000#16) = .ok .closer := by decide
theorem test_decode_tbegin : decode (.word 0b0010000000000000#16) = .ok .tbegin := by decide
theorem test_decode_tnode : decode (.word 0b0010000100000000#16) = .ok .tnode := by decide
theorem test_decode_tleaf : decode (.word 0b0010001001100011#16) = .ok (.tleaf 0x63#8) := by decide
theorem test_decode_ser : decode (.word 0b0010001100000000#16) = .ok .ser := by decide
theorem test_decode_deser : decode (.word 0b0010010000000000#16) = .ok .deser := by decide
theorem test_decode_cmap : decode (.word 0b0010100000000000#16) = .ok .cmap := by decide
theorem test_decode_enc : decode (.word 0b0011000001111010#16) = .ok (.enc 0x7A#8) := by decide
theorem test_decode_decode : decode (.word 0b0011100000000000#16) = .ok .decode := by decide
/-- S6: `L(63)` is `101100011`. -/
theorem test_decode_leaf :
    decode (.token [true, false, true, true, false, false, false, true, true]) = .ok (.leaf 0x63#8) := by decide
theorem test_decode_internal : decode (.token [false]) = .ok .internal := by decide
theorem test_decode_left : decode (.step false) = .ok .left := by decide
theorem test_decode_right : decode (.step true) = .ok .right := by decide

/-- R94, B15, B16, X3, X4 and the word 0x0101 of X2: reserved words are refused by name. -/
theorem test_decode_reserved :
    decode (.word 0x1102#16) = .error (.bitOperand 0x02#8) ∧
      decode (.word 0x1301#16) = .error (.operand 0x13#8 0x01#8) ∧
      decode (.word 0x0000#16) = .error (.opcode 0x00#8) ∧ decode (.word 0xFF00#16) = .error (.opcode 0xFF#8) ∧
      decode (.word 0x0101#16) = .error (.operand 0x01#8 0x01#8) := by decide

/-- R101: a token cut short, and bits behind a token. -/
theorem test_decode_token_refused :
    decode (.token []) = .error .tokenShort ∧ decode (.token [true, false]) = .error .tokenShort ∧
      decode (.token [false, true]) = .error .tokenLong := by decide

/-! ### Small states -/

/-- What an instruction comes to. -/
def after (i : Instr) (s : State) : State :=
  match exec i s with
  | .next t => t
  | .fault _ | .refused _ => s

/-- An open packer with `cnt` bits in `acc`, after `bits` bits. -/
def writer (acc : Byte) (cnt : Fin 8) (bits : Counter) : State :=
  (State.reset.setW { acc := acc, cnt := cnt, isOpen := true, wbits := bits }).setEnv
    { Env.fresh with snk := { Env.fresh.snk with attached := true } }

/-- An open unpacker at the first bit of `src`. -/
def reader (src : List Byte) : State :=
  (State.reset.setR { Unpacker.reset with isOpen := true }).setEnv
    { Env.fresh with src := { Env.fresh.src with data := src, attached := true, offered := src } }

/-- The tree `t` in TM, complete. -/
def holding (t : Machine.Tree) (s : State) : State :=
  (s.setMem { tm := layout 0 t, stk := [], cm := [] }).setCtl { s.ctl with treeValid := true }

/-- A token load with TM and STK as given. -/
def loading (tm : List (TmEntry Params.default)) (stk : List Index) : State :=
  (State.reset.setMem { tm := tm, stk := stk, cm := [] }).setCtl { State.reset.ctl with tload := true }

/-- The sink's next answers. -/
def sinkSays (a : List Bool) (s : State) : State := s.setEnv { s.env with snk := { s.env.snk with answers := a } }

/-- The source's next answers. -/
def sourceSays (a : List Bool) (s : State) : State := s.setEnv { s.env with src := { s.env.src with answers := a } }

/-- The symbol sink's next answers. -/
def symSays (a : List Bool) (s : State) : State := s.setEnv { s.env with sym := { s.env.sym with answers := a } }

/-- What the host does next. -/
def given (is : List HostInput) (s : State) : State := s.setEnv { s.env with inputs := is }

/-- Limit mode with the limit `n`. -/
def limited (n : Counter) (s : State) : State := s.setCfg { limitEn := true, decLimit := n }

/-- A faulted block (B11). -/
def broken : State := raiseFault .notOpen 0x1101#16 State.reset

/-- The tree of S6, DV1: `I L(63) I L(61) L(62)`. -/
def abc : Machine.Tree := .node (.leaf 0x63#8) (.node (.leaf 0x61#8) (.leaf 0x62#8))

/-- The file of DV1. -/
def file : List Byte := [0x58#8, 0xD6#8, 0x1B#8, 0x15#8, 0xE0#8]

/-- The unpacker after DESER of DV1: three bits of byte 15 left, then byte E0 (T6), the tree in TM. -/
def payloadOfFile : State :=
  holding abc ((reader file).setR { buf := 0x15#8, rem := 3, isOpen := true, eos := false, rbits := 29#64 } |>.setEnv
    { (reader file).env with src := { (reader file).env.src with pos := 4 } })

/-! ### One step of each instruction -/

/-- X1: RESET leaves the faulted state. -/
theorem test_reset : readReg (after .reset broken) 0#4 = 0#64 ∧ readReg (after .reset broken) 1#4 = 0#64 := by decide

/-- B17: RESET does not flush. -/
theorem test_reset_drops_bits :
    (after .reset (writer 0b101#8 3 3#64)).env.snk = Env.fresh.snk ∧
      readReg (after .reset (writer 0b101#8 3 3#64)) 0#4 = 0#64 := by decide

/-- B1. -/
theorem test_openw : readReg (after .openw State.reset) 0#4 = 0x0004#64 ∧ (after .openw State.reset).w.wbits = 0#64 := by
  decide

/-- B12. -/
theorem test_openw_open :
    readReg (after .openw (writer 0#8 0 0#64)) 1#4 = 0x0010000A#64 ∧
      readReg (after .openw (writer 0#8 0 0#64)) 0#4 = 0x0002#64 := by decide

/-- B9: the eighth bit emits. -/
theorem test_wbit_emits :
    (after (.wbit 0#8) (writer 0b0101100#8 7 7#64)).env.snk.data = [0x58#8] ∧
      (after (.wbit 0#8) (writer 0b0101100#8 7 7#64)).w.cnt = 0 := by decide

/-- X10: COUNT_OVF before the bit is taken. -/
theorem test_wbit_countOvf :
    (after (.wbit 0#8) (writer 0#8 0 (BitVec.allOnes 64))).flt.code = .countOvf ∧
      (after (.wbit 0#8) (writer 0#8 0 (BitVec.allOnes 64))).w.wbits = BitVec.allOnes 64 := by decide

/-- B8: a byte across a byte boundary. -/
theorem test_wbyte :
    (after (.wbyte 0x41#8) (writer 1#8 1 1#64)).env.snk.data = [0xA0#8] ∧
      (after (.wbyte 0x41#8) (writer 1#8 1 1#64)).w = { acc := 1#8, cnt := 1, isOpen := true, wbits := 9#64 } := by decide

/-- B14: the emit of the fifth bit fails. -/
theorem test_wbyte_ioSink :
    let t := after (.wbyte 0xFF#8) (sinkSays [false] (writer 0b101#8 3 3#64))
    readReg t 1#4 = 0x0012FF01#64 ∧ t.w = { acc := 0xBF#8, cnt := 7, isOpen := false, wbits := 8#64 } ∧
      t.env.snk.data = [] := by decide

/-- B3. -/
theorem test_flush :
    let t := after .flush (writer 0b101#8 3 3#64)
    t.env.snk.data = [0xA0#8] ∧ t.w = { acc := 0#8, cnt := 0, isOpen := true, wbits := 3#64 } := by decide

/-- B4. -/
theorem test_flush_empty : after .flush (writer 0#8 0 3#64) = writer 0#8 0 3#64 := by decide

/-- B5. -/
theorem test_closew :
    let t := after .closew (writer 1#8 1 4#64)
    t.env.snk.data = [0x80#8] ∧ readReg t 0#4 = 0#64 ∧ readReg t 7#4 = 4#64 := by decide

/-- B7. -/
theorem test_closew_empty : (after .closew (writer 0#8 0 8#64)).env.snk = Env.fresh.snk := by decide

/-- U1: nothing is fetched. -/
theorem test_openr :
    let t := after .openr (State.reset.setEnv { Env.fresh with src := { Env.fresh.src with offered := [0xA0#8, 0xC0#8] } })
    readReg t 0#4 = 0x0008#64 ∧ t.env.src.pos = 0 ∧ t.env.src.data = [0xA0#8, 0xC0#8] := by decide

/-- U10. -/
theorem test_openr_open : readReg (after .openr (reader [])) 1#4 = 0x0018000A#64 := by decide

/-- U2. -/
theorem test_rbit :
    let t := after .rbit (reader [0xA0#8, 0xC0#8])
    t.res = 0x001#9 ∧ t.r.rem = 7 ∧ t.r.rbits = 1#64 ∧ t.env.src.pos = 1 := by decide

/-- U11. -/
theorem test_rbit_ioSource :
    let t := after .rbit (sourceSays [false] (reader [0xA0#8, 0xC0#8]))
    readReg t 1#4 = 0x00190002#64 ∧ t.res = 0#9 ∧ t.env.src.pos = 0 := by decide

/-- U3: eight bits across a byte boundary. -/
theorem test_rbyte :
    let t := after .rbyte (after .rbit (reader [0xA0#8, 0xC0#8]))
    t.res = 0x041#9 ∧ t.r.rem = 7 ∧ t.r.rbits = 9#64 ∧ t.env.src.pos = 2 := by decide

/-- U5: the sentinel inside the byte; the six bits before it are lost. -/
theorem test_rbyte_eos :
    let t := after .rbyte ((reader []).setR { buf := 0xC0#8, rem := 6, isOpen := true, eos := false, rbits := 10#64 })
    t.res = 0x100#9 ∧ t.r.rbits = 16#64 ∧ readReg t 0#4 = 0x0088#64 := by decide

/-- U7. -/
theorem test_closer :
    let t := after .closer ((reader []).setR { buf := 0#8, rem := 0, isOpen := true, eos := true, rbits := 16#64 })
    readReg t 0#4 = 0x0080#64 ∧ readReg t 8#4 = 16#64 := by decide

/-- CV8: a new load makes every code invalid. -/
theorem test_tbegin :
    let t := after .tbegin (after .cmap (holding abc State.reset))
    readReg t 0#4 = 0x0010#64 ∧ t.mem = Memory.reset := by decide

/-- T3, second command. -/
theorem test_tnode : (after .tnode (loading [] [])).mem = { tm := [.int none], stk := [0#9], cm := [] } := by decide

/-- T13. -/
theorem test_tnode_no_load : readReg (after .tnode State.reset) 1#4 = 0x0021000A#64 := by decide

/-- T3, third command: the right link is written. -/
theorem test_tleaf :
    (after (.tleaf 0x63#8) (loading [.int none] [0#9])).mem =
      { tm := [.int (some 2#9), .leaf 0x63#8], stk := [], cm := [] } := by decide

/-- T1: the last leaf completes the tree. -/
theorem test_tleaf_completes : readReg (after (.tleaf 0x41#8) (loading [] [])) 0#4 = 0x0020#64 := by decide

/-- T3: the header of S6. -/
theorem test_ser :
    let t := after .ser (holding abc (writer 0#8 0 0#64))
    t.env.snk.data = [0x58#8, 0xD6#8, 0x1B#8] ∧ t.w.acc = 0b00010#8 ∧ t.w.cnt = 5 ∧ t.w.wbits = 29#64 := by decide

/-- T17. -/
theorem test_ser_noTree : readReg (after .ser (writer 0#8 0 0#64)) 1#4 = 0x00230006#64 := by decide

/-- T6. -/
theorem test_deser :
    let t := after .deser (reader file)
    t.mem.tm = [.int (some 2#9), .leaf 0x63#8, .int (some 4#9), .leaf 0x61#8, .leaf 0x62#8] ∧ t.r.rbits = 29#64 ∧
      t.r.rem = 3 ∧ t.env.src.pos = 4 ∧ readReg t 0#4 = 0x0028#64 := by decide

/-- T9: the header cut short inside a value. -/
theorem test_deser_truncated :
    let t := after .deser (reader [0x58#8, 0xD6#8])
    readReg t 1#4 = 0x00240004#64 ∧ t.nn = 3 ∧ t.sp = 1 ∧ t.r.rbits = 16#64 ∧ t.ctl.treeValid = false := by decide

/-- CV3. -/
theorem test_cmap :
    let t := after .cmap (holding abc State.reset)
    t.mem.cm = [(0x61#8, [true, false]), (0x62#8, [true, true]), (0x63#8, [false])] ∧ t.ctl.cmapValid = true := by decide

/-- CV6. -/
theorem test_cmap_dupSymbol :
    let t := after .cmap (holding (.node (.leaf 0x61#8) (.leaf 0x61#8)) State.reset)
    readReg t 1#4 = 0x00280009#64 ∧ readReg t 0#4 = 0x0022#64 := by decide

/-- E2: the first code bit fills the byte. -/
theorem test_enc :
    let s := (after .cmap (holding abc State.reset)).setW { acc := 0b0001010#8, cnt := 7, isOpen := true, wbits := 31#64 }
    let t := after (.enc 0x62#8) (s.setCnt { s.cnt with enc := 1#64 })
    t.env.snk.data = [0x15#8] ∧ t.w.acc = 1#8 ∧ t.w.cnt = 1 ∧ t.cnt.enc = 2#64 := by decide

/-- E4: a byte with no code; fault entry flushes. -/
theorem test_enc_noCode :
    let t := after (.enc 0x61#8) (holding abc (writer 0b00010#8 5 29#64))
    readReg t 1#4 = 0x00306107#64 ∧ t.env.snk.data = [0x10#8] := by decide

/-- DV1, naive: two spurious symbols from the two pad bits. -/
theorem test_decode_naive :
    let t := after .decode payloadOfFile
    t.env.sym.data = [0x61#8, 0x62#8, 0x62#8, 0x63#8, 0x63#8, 0x63#8, 0x63#8, 0x63#8] ∧ t.r.rbits = 40#64 ∧
      readReg t 0#4 = 0x00A8#64 := by decide

/-- DV1, limit: exact, and the last pad bit is not read. -/
theorem test_decode_limit :
    let t := after .decode (limited 6#64 payloadOfFile)
    t.env.sym.data = [0x61#8, 0x62#8, 0x62#8, 0x63#8, 0x63#8, 0x63#8] ∧ t.r.rbits = 39#64 ∧
      readReg t 0#4 = 0x0028#64 := by decide

/-- T11, T1: the token `L(41)` completes a single-leaf tree. -/
theorem test_leaf : (after (.leaf 0x41#8) (reader [])).mem.tm = [.leaf 0x41#8] ∧
    (after (.leaf 0x41#8) (reader [])).ctl.treeValid = true := by decide

/-- T12: a token `I`. -/
theorem test_internal : (after .internal (reader [])).mem = { tm := [.int none], stk := [0#9], cm := [] } := by decide

/-- DV1's trace: "1 (leaf 63), 0, emit 63, to 1". -/
theorem test_left :
    let s := holding abc (reader [])
    let t := after .left (s.setCtl { s.ctl with cur := 1#9 })
    t.env.sym.data = [0x63#8] ∧ t.ctl.cur = 1#9 ∧ t.cnt.dec = 1#64 := by decide

/-- DV1's trace: "2, 1, to 4". -/
theorem test_right :
    let s := holding abc (reader [])
    let t := after .right (s.setCtl { s.ctl with cur := 2#9 })
    t.env.sym.data = [] ∧ t.ctl.cur = 4#9 := by decide

/-! ### Steps and registers -/

/-- What a step comes to. -/
def stepped (s : State) : State :=
  match step s with
  | .next t => t
  | .fault _ | .refused _ => s

/-- X2: while FAULTED a word is dropped. -/
theorem test_step_dropped : stepped (given [.command 0x1900#16] broken) = broken := by decide

/-- X5, X6, X7. -/
theorem test_registers :
    readReg (writeReg State.reset 3#4 0xFFFF#64) 3#4 = 1#64 ∧ readReg (writeReg State.reset 0#4 0xFFFF#64) 0#4 = 0#64 ∧
      readReg State.reset 12#4 = 0#64 := by decide

/-- From reset a placed word runs as the first instruction: OPENW (B1). -/
theorem test_withFetchWord_runs :
    readReg (stepped (State.reset.withFetchWord 16 0x1000)) 0#4 = 0x0004#64 ∧
      decodeTableWord 16 0x1000 = some .openw := by decide

/-- A placed token runs inside DESER: a LEAF completes a single-leaf tree. -/
theorem test_withFetchWord_token :
    decodeTableWord 9 0x163 = some (.leaf 0x63#8) ∧
      (stepped (State.reset.withFetchWord 9 0x163)).mem.tm = [.leaf 0x63#8] ∧
      (stepped (State.reset.withFetchWord 9 0x163)).ctl.treeValid = true := by decide

/-- P3: the whole way from a truncated header to the reset that ends it. -/
theorem test_fault_and_reset :
    let s := stepped (given [.command 0x2400#16] (reader [0x58#8, 0xD6#8]))
    readReg s 0#4 = 0x0082#64 ∧ readReg (stepped (given [.command 0x0100#16] s)) 0#4 = 0#64 := by decide

/-! ### Other parameters (R8), and a macro's end (R243) -/

/-- A block of three TM entries and two-bit counters. -/
def small : Params where
  nodeCap := 3
  cntW := 2
  idxW := 2
  nodeCap_odd := by decide
  nodeCap_le := by decide
  idxW_least := by decide

/-- An open, empty packer of that block that has counted `n` bits. -/
def smallWriter (n : Counter small) : State small :=
  (State.resetWith (Env.fresh small)).setW { acc := 0#8, cnt := 0, isOpen := true, wbits := n }

/-- R8, R273: with `CNT_W` = 2 the third bit is counted and the fourth is COUNT_OVF. -/
theorem test_small_counter :
    execWbit 1#8 (smallWriter 2#2) =
        .next ((smallWriter 2#2).setW { acc := 1#8, cnt := 1, isOpen := true, wbits := 3#2 }) ∧
      execWbit 1#8 (smallWriter 3#2) = .next (raiseFault .countOvf 0x1101#16 (smallWriter 3#2)) := ⟨rfl, rfl⟩

/-- R8, R268: with `NODE_CAP` = 3, so `STACK_CAP` = 1, a second pending internal node is TREE_OVF. -/
theorem test_small_tree :
    let s : State small := ((State.resetWith (Env.fresh small)).setMem { tm := [.int none], stk := [0#2], cm := [] }).setCtl
      { Control.reset with tload := true }
    small.stackCap = 1 ∧ execTnode s = .next (raiseFault .treeOvf 0x2100#16 s) := ⟨rfl, rfl⟩

/-- R243: the macro ends at its first fault and reports it; the TBEGIN after it is not issued. -/
theorem test_macro_ends_at_fault :
    runMacro [issue .flush, issue .tbegin] State.reset =
      some (.faulted { faulted := true, code := .notOpen, cmdw := 0x1300#16 }
        (raiseFault .notOpen 0x1300#16 State.reset)) := rfl

/-! ### Witnesses: concrete cases that meet the hypotheses of the statements -/

theorem witness_DecodeInvertsEncode :
    Instr.decode.wellFormed = true ∧ (Instr.wbit 1#8).wellFormed = true ∧ (Instr.wbit 2#8).wellFormed = false := by
  decide

theorem witness_EncodingsAreUnique :
    decode (.word 0x30FF#16) = .ok (.enc 0xFF#8) ∧ decode (.token [false]) = .ok .internal ∧
      decode (.step true) = .ok .right := by decide

/-- 0x0000 is no command's word. -/
theorem witness_ReservedWordRaisesIllegalCmd :
    (¬ ∃ i : Instr, i.format = .cmd ∧ i.wellFormed = true ∧ i.cmdWord = 0x0000#16) ∧
      (given [.command 0x0000#16] State.reset).env.inputs = .command 0x0000#16 :: [] ∧
      (given [.command 0x0000#16] State.reset).flt.faulted = false := by
  refine ⟨?_, rfl, rfl⟩
  rintro ⟨i, _, _, h⟩
  have k : opcOf i.cmdWord = 0#8 := by rw [h]; decide
  cases i <;> simp [Instr.cmdWord, opc_word] at k

theorem witness_StepRunsDecodedCommand :
    (given [.command 0x1800#16] State.reset).env.inputs = .command 0x1800#16 :: [] ∧
      decode (.word 0x1800#16) = .ok .openr ∧ State.reset.env.inputs = [] := by decide

theorem witness_FaultedUntilReset :
    Instr.rbit ≠ .reset ∧ broken.flt.faulted = true ∧ (0x0101#16 : CmdWord) ≠ 0x0100#16 ∧
      (given [.command 0x0101#16] broken).flt.faulted = true ∧
      (given [.command 0x0101#16] broken).env.inputs = .command 0x0101#16 :: [] ∧
      (given [.command 0x0100#16] broken).flt.faulted = true := by decide

theorem witness_FaultedUntilReset_step :
    step (given [.command 0x0100#16] broken) = .next (stepped (given [.command 0x0100#16] broken)) := rfl

theorem witness_FailedPrecondition :
    State.reset.flt.faulted = false ∧ State.reset.w.isOpen = false ∧ State.reset.r.isOpen = false ∧
      State.reset.ctl.tload = false ∧ State.reset.ctl.treeValid = false ∧
      (writer 0#8 0 0#64).flt.faulted = false ∧ (writer 0#8 0 0#64).w.isOpen = true ∧
      (writer 0#8 0 0#64).ctl.treeValid = false ∧ cmLookup 0x61#8 (writer 0#8 0 0#64).mem.cm = none ∧
      (reader []).flt.faulted = false ∧ (reader []).r.isOpen = true ∧ (reader []).ctl.treeValid = false := by decide

theorem witness_OpenwStartsAnOutputStream :
    State.reset.flt.faulted = false ∧ State.reset.w.isOpen = false ∧ State.reset.env.snk.answer = true ∧
      (sinkSays [false] State.reset).flt.faulted = false ∧ (sinkSays [false] State.reset).w.isOpen = false ∧
      (sinkSays [false] State.reset).env.snk.answer = false ∧ (writer 0#8 0 0#64).w.isOpen = true := by decide

theorem witness_WbitAppendsOneBit :
    (writer 0#8 0 0#64).flt.faulted = false ∧ (writer 0#8 0 0#64).w.isOpen = true ∧
      (writer 0#8 0 0#64).w.wbits ≠ BitVec.allOnes 64 ∧ (writer 0x3F#8 6 6#64).w.cnt.val < 7 ∧
      (writer 0x7F#8 7 7#64).w.wbits ≠ BitVec.allOnes 64 ∧ (writer 0x7F#8 7 7#64).w.cnt.val = 7 ∧
      (writer 0x7F#8 7 7#64).env.snk.answer = true ∧ (sinkSays [false] (writer 0x7F#8 7 7#64)).w.cnt.val = 7 ∧
      (sinkSays [false] (writer 0x7F#8 7 7#64)).env.snk.answer = false ∧
      (writer 0#8 0 (BitVec.allOnes 64)).w.wbits = BitVec.allOnes 64 ∧ State.reset.w.isOpen = false := by decide

/-- The last byte that WBITS can count. -/
theorem witness_WbyteIsEightWbits :
    (writer 1#8 1 (BitVec.ofNat 64 (2 ^ 64 - 9))).flt.faulted = false ∧
      (writer 1#8 1 (BitVec.ofNat 64 (2 ^ 64 - 9))).w.isOpen = true ∧
      sinkReliable (writer 1#8 1 (BitVec.ofNat 64 (2 ^ 64 - 9))) ∧
      writeRoom (writer 1#8 1 (BitVec.ofNat 64 (2 ^ 64 - 9))) 8 := by
  unfold sinkReliable writeRoom; decide

theorem witness_FlushPadsAndEmits :
    (writer 1#8 1 1#64).flt.faulted = false ∧ (writer 1#8 1 1#64).w.isOpen = true ∧ (writer 1#8 1 1#64).w.cnt ≠ 0 ∧
      (writer 1#8 1 1#64).env.snk.answer = true ∧ (writer 0#8 0 0#64).w.cnt = 0 ∧ (writer 0#8 0 0#64).w.isOpen = true ∧
      (sinkSays [false] (writer 0x7F#8 7 7#64)).w.cnt ≠ 0 ∧
      (sinkSays [false] (writer 0x7F#8 7 7#64)).env.snk.answer = false ∧ State.reset.w.isOpen = false := by decide

theorem witness_ClosewFlushesAndReleases :
    (writer 1#8 1 1#64).flt.faulted = false ∧ (writer 1#8 1 1#64).w.isOpen = true ∧
      (writer 1#8 1 1#64).env.snk.answer = true ∧ (sinkSays [false] (writer 0#8 0 0#64)).w.cnt = 0 ∧
      (sinkSays [false] (writer 1#8 1 1#64)).w.cnt ≠ 0 ∧
      (sinkSays [false] (writer 1#8 1 1#64)).env.snk.answer = false := by decide

/-- Nine bits, one more than a byte. -/
theorem witness_PackerIsPack :
    (writer 0#8 0 0#64).flt.faulted = false ∧ (writer 0#8 0 0#64).w.isOpen = true ∧ (writer 0#8 0 0#64).w.cnt = 0 ∧
      (writer 0#8 0 0#64).w.acc = 0#8 ∧ sinkReliable (writer 0#8 0 0#64) ∧
      writeRoom (writer 0#8 0 0#64) [true, false, true, false, false, false, false, false, true].length := by
  unfold sinkReliable writeRoom; decide

theorem witness_OpenrStartsAnInputStream :
    State.reset.flt.faulted = false ∧ State.reset.r.isOpen = false ∧ State.reset.env.src.openAnswer = true ∧
      (sourceSays [false] State.reset).env.src.openAnswer = false ∧ (sourceSays [false] State.reset).r.isOpen = false ∧
      (reader []).r.isOpen = true := by decide

theorem witness_RbitDeliversTheNextBit :
    (reader [0xA0#8]).flt.faulted = false ∧ (reader [0xA0#8]).r.isOpen = true ∧ (reader [0xA0#8]).r.rem = 0 ∧
      remainingBits (reader [0xA0#8]) = true :: [false, true, false, false, false, false, false] ∧
      sourceReliable (reader [0xA0#8]) ∧ readRoom (reader [0xA0#8]) 1 ∧
      remainingBits (reader []) = [] ∧ sourceReliable (reader []) ∧
      (sourceSays [false] (reader [0xA0#8])).r.eos = false ∧
      (sourceSays [false] (reader [0xA0#8])).env.src.fetchAnswer = .fail := by
  unfold sourceReliable readRoom; decide

/-- RBITS at its last value, with and without a bit buffered. -/
theorem witness_RbitCountOvf :
    let r : Unpacker Params.default := { buf := 0xA0#8, rem := 8, isOpen := true, eos := false, rbits := BitVec.allOnes 64 }
    ((reader []).setR r).flt.faulted = false ∧ ((reader []).setR r).r.isOpen = true ∧ r.eos = false ∧ r.rem ≠ 0 ∧
      r.rbits = BitVec.allOnes 64 ∧
      ((reader [0xA0#8]).setR { r with rem := 0 }).env.src.fetchAnswer = .byte 0xA0#8 := by decide

theorem witness_RbyteDeliversTheNextByte :
    (reader [0xA0#8]).flt.faulted = false ∧ (reader [0xA0#8]).r.isOpen = true ∧ sourceReliable (reader [0xA0#8]) ∧
      remainingBits (reader [0xA0#8]) = bits8 0xA0#8 ++ [] ∧ readRoom (reader [0xA0#8]) 8 ∧
      (remainingBits (reader [])).length < 8 ∧ sourceReliable (reader []) ∧
      readRoom (reader []) (remainingBits (reader [])).length ∧
      (after .rbyte (sourceSays [false] (reader [0xA0#8]))).flt.faulted = true := by
  unfold sourceReliable readRoom; decide

theorem witness_CloserReleasesTheSource :
    (reader []).flt.faulted = false ∧ (reader []).r.isOpen = true ∧ State.reset.r.isOpen = false := by decide

theorem witness_UnpackerIsUnpack :
    (reader file).flt.faulted = false ∧ (reader file).r.isOpen = true ∧ (reader file).r.rem = 0 ∧
      (reader file).r.eos = false ∧ (reader file).r.rbits = 0#64 ∧ (reader file).env.src.pos = 0 ∧
      sourceReliable (reader file) ∧ 8 * (reader file).env.src.data.length < 2 ^ 64 := by
  unfold sourceReliable; decide

theorem witness_UnpackInvertsPack :
    let a := State.reset.setEnv { Env.fresh with snk := { Env.fresh.snk with offered := some [] } }
    [true, false, true].length + 8 < 2 ^ 64 ∧ a.flt.faulted = false ∧ a.w.isOpen = false ∧ sinkReliable a ∧
      a.env.snk.offered = some [] ∧ State.reset.flt.faulted = false ∧ State.reset.r.isOpen = false ∧
      sourceReliable State.reset := by
  unfold sinkReliable sourceReliable; decide

theorem witness_TbeginStartsALoad : State.reset.flt.faulted = false := by decide

/-- 511 entries, and a stack of 255 with fewer. -/
theorem witness_TnodeAcceptsAnInternalNode :
    (loading [] []).flt.faulted = false ∧ (loading [] []).ctl.tload = true ∧ (loading [] []).nn ≠ 511 ∧
      (loading [] []).sp ≠ 255 ∧ (loading (List.replicate 511 (.int none)) []).nn = 511 ∧
      (loading (List.replicate 255 (.int none)) (List.replicate 255 0#9)).sp = 255 ∧
      State.reset.ctl.tload = false := by
  exact ⟨rfl, rfl, by decide, by decide, List.length_replicate, List.length_replicate, rfl⟩

theorem witness_TleafAcceptsALeaf :
    (loading [.int none] [0#9]).flt.faulted = false ∧ (loading [.int none] [0#9]).ctl.tload = true ∧
      (loading [.int none] [0#9]).nn ≠ 511 ∧ (loading [.int none] [0#9]).mem.stk = 0#9 :: [] ∧
      (0#9 : Index).toNat < (loading [.int none] [0#9]).nn ∧
      (loading [.int none] [0#9]).mem.tm[(0#9 : Index).toNat]? = some (.int none) ∧
      (loading [] []).mem.stk = [] ∧ (loading [] []).nn ≠ 511 := by decide

theorem witness_HeaderTokensBuildTheTree :
    (reader []).flt.faulted = false ∧ (reader []).r.isOpen = true ∧ (reader []).ctl.treeValid = false ∧
      (reader []).nn ≠ 511 ∧ (reader []).sp ≠ 255 ∧ (reader []).mem.stk = [] ∧
      (after .internal (reader [])).mem.stk = 0#9 :: [] ∧ (after .internal (reader [])).r.isOpen = true ∧
      (holding abc (reader [])).ctl.treeValid = true ∧ State.reset.r.isOpen = false ∧
      (0#9 : Index).toNat < (after .internal (reader [])).nn ∧
      (after .internal (reader [])).mem.tm[(0#9 : Index).toNat]? = some (.int none) := by decide

/-- TM full, and STK full in a TM that is not. -/
theorem witness_HeaderTokensOverflow :
    let full := (reader []).setMem { tm := List.replicate 511 (.int none), stk := [], cm := [] }
    let deep := (reader []).setMem { tm := List.replicate 255 (.int none), stk := List.replicate 255 0#9, cm := [] }
    full.flt.faulted = false ∧ full.r.isOpen = true ∧ full.ctl.treeValid = false ∧ full.nn = 511 ∧
      deep.flt.faulted = false ∧ deep.r.isOpen = true ∧ deep.ctl.treeValid = false ∧ deep.sp = 255 :=
  ⟨rfl, rfl, rfl, List.length_replicate, rfl, rfl, rfl, List.length_replicate⟩

theorem witness_DeserRunsTheFetchedToken :
    takeToken (remainingBits (reader [0xA0#8, 0xC0#8])) = some (.leaf 0x41#8, [true, false, false, false, false, false, false]) ∧
      (reader [0xA0#8, 0xC0#8]).flt.faulted = false ∧ (reader [0xA0#8, 0xC0#8]).r.isOpen = true ∧
      (reader [0xA0#8, 0xC0#8]).ctl.treeValid = false ∧ sourceReliable (reader [0xA0#8, 0xC0#8]) ∧
      readRoom (reader [0xA0#8, 0xC0#8]) (Token.leaf 0x41#8).bits.length := by
  unfold sourceReliable readRoom; decide

theorem witness_LoadedTreeIsTheTree :
    State.reset.flt.faulted = false ∧ abc.size ≤ 511 ∧ 4 < abc.tokens.length := by decide

/-- A tree whose right spine is `n` deep. -/
def spine : Nat → Machine.Tree
  | 0 => .leaf 0#8
  | n + 1 => .node (.leaf 0#8) (spine n)

/-- The header of the tree with a right spine 256 deep, and seven pad bits. -/
def bigHeader : List Byte := (List.replicate 64 [0x40#8, 0x10#8, 0x04#8, 0x01#8, 0x00#8]).flatten ++ [0x80#8, 0x00#8]

/-- 513 nodes, two more than TM holds. -/
theorem witness_OversizedTreeOverflows :
    (reader bigHeader).flt.faulted = false ∧ 511 < (spine 256).size ∧ (reader bigHeader).r.isOpen = true ∧
      sourceReliable (reader bigHeader) ∧
      remainingBits (reader bigHeader) = ser (spine 256) ++ List.replicate 7 false ∧
      readRoom (reader bigHeader) (ser (spine 256)).length :=
  ⟨rfl, by decide +kernel, rfl, (by intro a h; cases h), by decide +kernel,
    by unfold readRoom; decide +kernel⟩

theorem witness_TreeMemoryHoldsOneTree : abc.size ≤ 511 := by decide

theorem witness_SerWritesTheHeader :
    (holding abc (writer 0#8 0 0#64)).flt.faulted = false ∧ (holding abc (writer 0#8 0 0#64)).w.isOpen = true ∧
      (holding abc (writer 0#8 0 0#64)).ctl.treeValid = true ∧ HoldsTree (holding abc (writer 0#8 0 0#64)).mem abc ∧
      sinkReliable (holding abc (writer 0#8 0 0#64)) ∧
      writeRoom (holding abc (writer 0#8 0 0#64)) (ser abc).length := by
  unfold HoldsTree sinkReliable writeRoom; decide

/-- B14: the fifth of eight bits faults. -/
theorem witness_WriteFaultsArePrecise :
    ∃ t, writeBits (bits8 0xFF#8) (sinkSays [false] (writer 0b101#8 3 3#64)) = .raise .ioSink t := ⟨_, rfl⟩

/-- The end of the file of DV1 is behind its header. -/
theorem witness_DeserBuildsTheHeadersTree :
    (reader file).flt.faulted = false ∧ (reader file).r.isOpen = true ∧ sourceReliable (reader file) ∧
      deser (remainingBits (reader file)) =
        some (abc, [true, false, true, true, true, true, false, false, false, false, false]) ∧
      abc.size ≤ 511 ∧ readRoom (reader file) (ser abc).length := by
  unfold sourceReliable readRoom; decide

/-- T9 (cut inside a value) and T7 (cut to nothing). -/
theorem witness_TruncatedHeaderFaults :
    ser abc = (ser abc).take 16 ++ (ser abc).drop 16 ∧ (ser abc).drop 16 ≠ [] ∧ ser abc = [] ++ ser abc ∧
      ser abc ≠ [] ∧ (reader [0x58#8, 0xD6#8]).flt.faulted = false ∧ (reader [0x58#8, 0xD6#8]).r.isOpen = true ∧
      sourceReliable (reader [0x58#8, 0xD6#8]) ∧ remainingBits (reader [0x58#8, 0xD6#8]) = (ser abc).take 16 ∧
      abc.size ≤ 511 ∧ readRoom (reader [0x58#8, 0xD6#8]) ((ser abc).take 16).length ∧
      remainingBits (reader []) = [] := by
  unfold sourceReliable readRoom; decide

theorem witness_HeaderRoundTrips :
    let a := holding abc (State.reset.setEnv { Env.fresh with snk := { Env.fresh.snk with offered := some [] } })
    a.flt.faulted = false ∧ a.w.isOpen = false ∧ a.ctl.treeValid = true ∧ HoldsTree a.mem abc ∧ abc.size ≤ 511 ∧
      sinkReliable a ∧ a.env.snk.offered = some [] ∧ State.reset.flt.faulted = false ∧
      State.reset.r.isOpen = false ∧ sourceReliable State.reset := by
  unfold HoldsTree sinkReliable sourceReliable; decide

theorem witness_CmapBuildsTheCodeMap :
    (holding abc State.reset).flt.faulted = false ∧ (holding abc State.reset).ctl.treeValid = true ∧
      HoldsTree (holding abc State.reset).mem abc ∧ abc.size ≤ 511 ∧ abc.leaves.Nodup := by
  unfold HoldsTree; decide

theorem witness_CmapRefusesRepeatedValues :
    (holding (spine 1) State.reset).flt.faulted = false ∧ (holding (spine 1) State.reset).ctl.treeValid = true ∧
      HoldsTree (holding (spine 1) State.reset).mem (spine 1) ∧ (spine 1).size ≤ 511 ∧
      ¬ (spine 1).leaves.Nodup := by
  unfold HoldsTree; decide

theorem witness_CodesArePrefixFree :
    abc.leaves.Nodup ∧ codeOf abc 0x63#8 = some [false] ∧ codeOf abc 0x61#8 = some [true, false] ∧
      (0x63#8 : Byte) ≠ 0x61#8 ∧ abc.size ≤ 511 := by decide

/-- An open packer with the code map of the tree of DV1. -/
def encoding : State := (after .cmap (holding abc (writer 0#8 0 0#64)))

theorem witness_EncWritesTheCode :
    encoding.flt.faulted = false ∧ encoding.w.isOpen = true ∧ cmLookup 0x61#8 encoding.mem.cm = some [true, false] ∧
      encoding.cnt.enc ≠ BitVec.allOnes 64 ∧ sinkReliable encoding ∧ writeRoom encoding [true, false].length ∧
      (encoding.setCnt { enc := BitVec.allOnes 64, dec := 0#64 }).cnt.enc = BitVec.allOnes 64 := by
  unfold sinkReliable writeRoom; decide

theorem witness_PayloadIsTheCodesInOrder :
    encoding.flt.faulted = false ∧ encoding.w.isOpen = true ∧ HoldsCodes encoding.mem abc ∧
      (∀ v ∈ [0x61#8, 0x62#8, 0x62#8, 0x63#8], v ∈ abc.leaves) ∧ sinkReliable encoding ∧
      writeRoom encoding (payload abc [0x61#8, 0x62#8, 0x62#8, 0x63#8]).length ∧
      encoding.cnt.enc.toNat + 4 < 2 ^ 64 := by
  unfold HoldsCodes sinkReliable writeRoom; decide

/-- DV1 in naive mode, in limit mode with DEC_LIMIT = 8 (DV12, all there is) and with 0 (DV10). -/
theorem witness_DecodeEmitsDec :
    payloadOfFile.flt.faulted = false ∧ payloadOfFile.r.isOpen = true ∧ payloadOfFile.ctl.treeValid = true ∧
      HoldsTree payloadOfFile.mem abc ∧ abc.size ≤ 511 ∧ sourceReliable payloadOfFile ∧ symReliable payloadOfFile ∧
      readRoom payloadOfFile (remainingBits payloadOfFile).length ∧ payloadOfFile.cfg.limitEn = false ∧
      (limited 8#64 payloadOfFile).cfg.decLimit.toNat ≤
        (dec abc (remainingBits (limited 8#64 payloadOfFile)) (decodeLimit (limited 8#64 payloadOfFile))).length ∧
      (limited 0#64 payloadOfFile).cfg.decLimit.toNat ≤
        (dec abc (remainingBits (limited 0#64 payloadOfFile)) (decodeLimit (limited 0#64 payloadOfFile))).length := by
  unfold HoldsTree sourceReliable symReliable readRoom; decide

/-- DV10, DV11, DV12: of eleven bits none, seven and all are read; the sentinel only in the last. -/
theorem test_decStop :
    (decStop abc (remainingBits payloadOfFile) (some 0)).1 = remainingBits payloadOfFile ∧
      (decStop abc (remainingBits payloadOfFile) (some 3)).1 = (remainingBits payloadOfFile).drop 7 ∧
      (decStop abc (remainingBits payloadOfFile) (some 3)).2 = false ∧
      decStop abc (remainingBits payloadOfFile) (some 8) = ([], true) := by decide

/-- DV13: one symbol short. -/
theorem witness_ShortPayloadFaults :
    (limited 9#64 payloadOfFile).flt.faulted = false ∧ (limited 9#64 payloadOfFile).r.isOpen = true ∧
      (limited 9#64 payloadOfFile).ctl.treeValid = true ∧ HoldsTree (limited 9#64 payloadOfFile).mem abc ∧
      sourceReliable (limited 9#64 payloadOfFile) ∧ symReliable (limited 9#64 payloadOfFile) ∧
      readRoom (limited 9#64 payloadOfFile) (remainingBits (limited 9#64 payloadOfFile)).length ∧
      (limited 9#64 payloadOfFile).cfg.limitEn = true ∧
      (dec abc (remainingBits (limited 9#64 payloadOfFile)) none).length <
        (limited 9#64 payloadOfFile).cfg.decLimit.toNat := by
  unfold HoldsTree sourceReliable symReliable readRoom; decide

/-- DV15: the third symbol is refused. -/
theorem witness_DecodeFaultsArePrecise :
    let s := symSays [true, true, false] payloadOfFile
    s.flt.faulted = false ∧ s.r.isOpen = true ∧ s.ctl.treeValid = true ∧ HoldsTree s.mem abc ∧
      (after .decode s).flt.code = .ioSym ∧ (after .decode s).env.sym.data = [0x61#8, 0x62#8] := by
  unfold HoldsTree; decide

theorem witness_PayloadBitsWalkTheTree :
    let s := holding abc (reader [])
    s.flt.faulted = false ∧ s.r.isOpen = true ∧ s.ctl.treeValid = true ∧ symReliable s ∧
      s.cnt.dec ≠ BitVec.allOnes 64 ∧ HoldsTree s.mem abc ∧ s.mem.tm[s.ctl.cur.toNat]? = some (.int (some 2#9)) ∧
      (s.setCtl { s.ctl with cur := 4#9 }).mem.tm[4]? = some (.leaf 0x62#8) ∧
      HoldsTree (holding (.leaf 0x41#8) (reader [])).mem (.leaf 0x41#8) ∧
      (reader []).ctl.treeValid = false ∧ State.reset.r.isOpen = false := by
  unfold HoldsTree symReliable; decide

/-- The pad as long as it can be, and none. -/
theorem witness_NaiveDecodingAppendsPadSymbols :
    abc.leaves.Nodup ∧ (∀ v ∈ [0x61#8, 0x63#8], v ∈ abc.leaves) ∧ 7 ≤ 7 ∧
      dec abc (payload abc [0x61#8, 0x63#8] ++ List.replicate 0 false) none = [0x61#8, 0x63#8] ∧
      (Machine.Tree.leaf 0x41#8).leaves.Nodup := by decide

theorem witness_LimitDecodingIsExact :
    abc.leaves.Nodup ∧ ∀ v ∈ [0x61#8, 0x62#8, 0x62#8, 0x63#8, 0x63#8, 0x63#8], v ∈ abc.leaves := by decide

theorem witness_ResetInputKeepsATransferPrefix :
    (0x1300#16 : CmdWord) ≠ 0x1000#16 ∧
      (eventsSince (writer 1#8 1 1#64).env (after .flush (writer 1#8 1 1#64)).env).length ≤ 1 := by decide

/-- The first and the last register, and the sixteen-entry boundary values 9 and 10. -/
theorem witness_RegisterRead :
    (given [.readReg 9#4] State.reset).env.inputs = .readReg 9#4 :: [] ∧ State.reset.nn < 512 ∧
      10 ≤ (10#4 : BitVec 4).toNat ∧ 10 ≤ (15#4 : BitVec 4).toNat := by decide

theorem witness_RegisterWrite :
    (given [.writeReg 3#4 1#64] State.reset).env.inputs = .writeReg 3#4 1#64 :: [] ∧
      (given [.writeReg 4#4 5#64] broken).env.inputs = .writeReg 4#4 5#64 :: [] ∧ (5#4 : BitVec 4) ≠ 3#4 ∧
      (5#4 : BitVec 4) ≠ 4#4 := by decide

/-- The best-effort flush happens, is refused, or has nothing to do. -/
theorem witness_FaultEntry :
    (writer 1#8 1 1#64).w.isOpen = true ∧ FaultCode.noCode ≠ .ioSink ∧ (writer 1#8 1 1#64).w.cnt ≠ 0 ∧
      (writer 1#8 1 1#64).env.snk.answer = true ∧ (sinkSays [false] (writer 1#8 1 1#64)).env.snk.answer = false ∧
      (writer 0#8 0 0#64).w.cnt = 0 ∧ State.reset.w.isOpen = false := by decide

theorem witness_only_writers :
    exec .rbit (reader [0xA0#8]) = .next (after .rbit (reader [0xA0#8])) ∧
      exec .decode payloadOfFile = .next (after .decode payloadOfFile) := ⟨rfl, rfl⟩

theorem witness_ChannelsChangeByTransfersOnly :
    takeWord 0x1300#16 (writer 1#8 1 1#64) = .next (after .flush (writer 1#8 1 1#64)) := rfl

/-- The invariants hold in a state with both streams open and a tree and its codes in place, and it steps. -/
theorem witness_StepKeepsInv :
    Inv (writer 1#8 1 1#64) ∧
      step (given [.command 0x1300#16] (writer 1#8 1 1#64)) =
        .next (stepped (given [.command 0x1300#16] (writer 1#8 1 1#64))) :=
  ⟨⟨by decide, by decide, by decide, by decide, by decide, by decide, by decide, by decide, by decide, by decide⟩, rfl⟩

/-- In the middle of a load: one leaf of two accepted. -/
theorem witness_StepKeepsTreeInv :
    TreeInv (loading [.int (some 2#9), .leaf 0x61#8] []) ∧
      step (given [.command 0x2262#16] (loading [.int (some 2#9), .leaf 0x61#8] [])) =
        .next (stepped (given [.command 0x2262#16] (loading [.int (some 2#9), .leaf 0x61#8] []))) :=
  ⟨⟨by decide, by decide, (fun h => by cases h), fun _ => ⟨[.inRight (.leaf 0x61#8)], rfl, rfl⟩, by decide,
    (fun h => by cases h), by decide, by decide⟩, rfl⟩

/-- One distinct value, and two. -/
theorem witness_TreeBuilderCoversTheInput :
    [0x41#8, 0x41#8] ≠ ([] : List Byte) ∧ (∀ x ∈ [0x41#8, 0x41#8], x = 0x41#8) ∧ [0x61#8, 0x62#8] ≠ ([] : List Byte) := by
  decide

theorem witness_CompressWritesHeaderAndPayload :
    (∃ is, compress [0x61#8, 0x62#8, 0x62#8] = .ok is) ∧ State.reset.flt.faulted = false ∧
      State.reset.w.isOpen = false ∧ sinkReliable State.reset ∧
      255 * [0x61#8, 0x62#8, 0x62#8].length + 2560 < 2 ^ 64 := by
  refine ⟨?_, rfl, rfl, by unfold sinkReliable; decide, by decide⟩
  cases h : buildTree (frequencies [0x61#8, 0x62#8, 0x62#8]) with
  | none => exact absurd h (by decide)
  | some t => exact ⟨compressWith t [0x61#8, 0x62#8, 0x62#8], by simp only [compress, h]⟩

theorem witness_DecompressInvertsCompress :
    let s := State.reset.setEnv { Env.fresh with snk := { Env.fresh.snk with offered := some [] } }
    [0x61#8, 0x62#8, 0x62#8] ≠ [] ∧ 255 * [0x61#8, 0x62#8, 0x62#8].length + 2568 < 2 ^ 64 ∧
      s.flt.faulted = false ∧ s.w.isOpen = false ∧ sinkReliable s ∧ s.env.snk.offered = some [] ∧
      State.reset.flt.faulted = false ∧ State.reset.r.isOpen = false ∧ sourceReliable State.reset ∧
      symReliable State.reset := by
  unfold sinkReliable sourceReliable symReliable; decide

end Sys2Proof.Tests
end

section
/-! What a step does with the command it takes (00_scope.md R13, R19; 60_exceptions.md R274). -/

namespace Sys2Proof.Machine

/-- Only RESET's own word decodes to RESET, so a word that is dropped while FAULTED names another instruction (R92,
R274 (1)). -/
theorem decode_word_ne_reset {w : CmdWord} {i : Instr} (hd : decode (.word w) = .ok i) (hw : w ≠ 0x0100#16) :
    i ≠ .reset := by
  rintro rfl
  obtain ⟨-, -, -, hword⟩ := decodeCommand_ok hd
  exact hw hword.symm

/-- A word that decodes runs its instruction, also while FAULTED: what the port drops, exec drops (R274 (1)). -/
theorem takeWord_eq_exec {w : CmdWord} {i : Instr} (s : State) (hd : decode (.word w) = .ok i) :
    takeWord w s = exec i s := by
  by_cases hrun : s.flt.faulted = false ∨ w = 0x0100#16
  · exact takeWord_decoded hd hrun
  · obtain ⟨hf, hw⟩ := not_or.mp hrun
    have hf : s.flt.faulted = true := by simpa using hf
    rw [takeWord_dropped hw hf, exec_faulted (decode_word_ne_reset hd hw) hf]

/-- R13: a step always gives a next state. -/
theorem step_next (s : State) : NoStop s := by
  unfold NoStop
  cases h : s.env.inputs with
  | nil => exact ⟨s, step_idle h⟩
  | cons i rest => rw [step_take h]; exact takeInput_next i _

/-- Settles O5: a step takes the word off the port, and a word that decodes runs its instruction. -/
theorem stepRunsDecodedCommand : Obligations.StepRunsDecodedCommand := by
  unfold Obligations.StepRunsDecodedCommand
  refine ⟨fun w i s rest hin hd => ?_, fun s hin => step_idle hin⟩
  rw [step_take hin]
  exact takeWord_eq_exec _ hd

/-- Settles O6: every host input and every instruction has a next state, its fault being one. -/
theorem stepAlwaysAnswersNext : Obligations.StepAlwaysAnswersNext := ⟨step_next, exec_next⟩

end Sys2Proof.Machine
end

section
/-! The channels change by transfers only (00_scope.md R18; 20_memory.md R72, R75 (d)): every micro-step leaves the
environment alone or drives one channel event, and what is made of such steps replays as the list of its events. -/

namespace Sys2Proof.Machine

variable {p : Params}

/-! ### Lists of transfers -/

/-- `e'` is what some transfers, in their order, make of `e`. -/
def Transfers (e e' : Env p) : Prop := ∃ evs : List PortEvent, e' = evs.foldl Env.apply e

theorem Transfers.refl (e : Env p) : Transfers e e := ⟨[], rfl⟩

theorem Transfers.event (e : Env p) (ev : PortEvent) : Transfers e (e.apply ev) := ⟨[ev], rfl⟩

theorem Transfers.trans {e e' e'' : Env p} (h : Transfers e e') (k : Transfers e' e'') : Transfers e e'' := by
  obtain ⟨evs, rfl⟩ := h
  obtain ⟨evs', rfl⟩ := k
  exact ⟨evs ++ evs', List.foldl_append.symm⟩

@[simp] theorem foldl_apply_trace (evs : List PortEvent) (e : Env p) :
    (evs.foldl Env.apply e).trace = e.trace ++ evs := by
  induction evs generalizing e with
  | nil => simp
  | cons ev evs ih => simp [ih]

/-- Transfers extend the trace. -/
theorem Transfers.trace_extends {e e' : Env p} (h : Transfers e e') : e.trace <+: e'.trace := by
  obtain ⟨evs, rfl⟩ := h
  simp

/-- The transfers are those that the trace has seen since. -/
theorem Transfers.replay {e e' : Env p} (h : Transfers e e') : e' = (eventsSince e e').foldl Env.apply e := by
  obtain ⟨evs, rfl⟩ := h
  simp [eventsSince]

/-! ### Micro-steps -/

/-- The state in which micro-steps complete or raise their fault. -/
def Micro.endState {α : Type} : Micro p α → State p
  | .ok s _ => s
  | .raise _ s => s

@[simp] theorem Micro.endState_ok {α : Type} (s : State p) (a : α) : (Micro.ok s a).endState = s := rfl

@[simp] theorem Micro.endState_raise {α : Type} (x : FaultCode) (s : State p) :
    (Micro.raise x s : Micro p α).endState = s := rfl

/-- From every state these micro-steps change the environment by transfers only, also when they fault. -/
def OnlyTransfers {α : Type} (f : State p → Micro p α) : Prop := ∀ s, Transfers s.env (f s).endState.env

theorem Transfers.andThen {α β : Type} {e : Env p} {m : Micro p α} {f : State p → α → Micro p β}
    (hm : Transfers e m.endState.env) (hf : ∀ a, OnlyTransfers fun s => f s a) :
    Transfers e (m.andThen f).endState.env := by
  cases m with
  | ok s a => exact hm.trans (hf a s)
  | raise x s => exact hm

theorem OnlyTransfers.require {body : State p → Micro p Unit} {c : State p → Bool} {x : FaultCode}
    (h : OnlyTransfers body) : OnlyTransfers fun s => require (c s) x body s := fun s => by
  dsimp only
  cases c s with
  | true => exact h s
  | false => exact .refl _

/-! ### The packer and the unpacker -/

theorem writeBit_onlyTransfers (b : Bool) : OnlyTransfers (writeBit (p := p) b) := fun s => by
  rcases writeBit_cases b s with ⟨_, e⟩ | ⟨_, _, e⟩ | ⟨_, _, _, e⟩ | ⟨_, _, _, e⟩ <;> rw [e]
  · exact .refl _
  · exact .refl _
  · exact .event _ _
  · exact .event _ _

theorem writeBits_onlyTransfers (bs : List Bool) : OnlyTransfers (writeBits (p := p) bs) := by
  induction bs with
  | nil => exact fun s => .refl _
  | cons b bs ih => exact fun s => (writeBit_onlyTransfers b s).andThen fun _ => ih

theorem flushPacker_onlyTransfers : OnlyTransfers (flushPacker (p := p)) := fun s => by
  rcases flushPacker_cases s with ⟨_, e⟩ | ⟨_, _, e⟩ | ⟨_, _, e⟩ <;> rw [e]
  · exact .refl _
  · exact .event _ _
  · exact .event _ _

theorem flushAndRelease_onlyTransfers : OnlyTransfers (flushAndRelease (p := p)) := fun s =>
  (flushPacker_onlyTransfers s).andThen fun _ _ => .event _ .snkRelease

theorem openSink_onlyTransfers : OnlyTransfers (openSink (p := p)) := fun s => by
  unfold openSink
  split
  · exact .event _ (.snkOpen true)
  · exact .event _ (.snkOpen false)

theorem openSource_onlyTransfers : OnlyTransfers (openSource (p := p)) := fun s => by
  unfold openSource
  split
  · exact .event _ (.srcOpen true)
  · exact .event _ (.srcOpen false)

theorem deliverBit_onlyTransfers : OnlyTransfers (deliverBit (p := p)) := fun s => by
  rcases deliverBit_cases s with ⟨_, e⟩ | ⟨_, e⟩ <;> rw [e] <;> exact .refl _

theorem readBit_onlyTransfers : OnlyTransfers (readBit (p := p)) := fun s => by
  rcases readBit_cases s with ⟨_, e⟩ | ⟨_, _, e⟩ | ⟨_, _, _, e⟩ | ⟨_, _, _, e⟩ | ⟨b, _, _, _, e⟩ <;> rw [e]
  · exact .refl _
  · exact deliverBit_onlyTransfers s
  · exact .event _ _
  · exact .event _ _
  · exact (Transfers.event s.env (.srcFetch (.byte b))).trans (deliverBit_onlyTransfers _)

theorem readBitsInto_onlyTransfers (n : Nat) (v : Byte) : OnlyTransfers (readBitsInto (p := p) n v) := by
  induction n generalizing v with
  | zero => exact fun s => .refl _
  | succ n ih =>
    refine fun s => (readBit_onlyTransfers s).andThen fun r => ?_
    cases r with
    | none => exact fun _ => .refl _
    | some b => exact ih _

theorem readByte_onlyTransfers : OnlyTransfers (readByte (p := p)) := readBitsInto_onlyTransfers 8 0#8

theorem readBitToRes_onlyTransfers : OnlyTransfers (readBitToRes (p := p)) := fun s =>
  (readBit_onlyTransfers s).andThen fun _ _ => .refl _

theorem readByteToRes_onlyTransfers : OnlyTransfers (readByteToRes (p := p)) := fun s =>
  (readByte_onlyTransfers s).andThen fun _ _ => .refl _

/-! ### The tree, its header and its code map -/

theorem accept_onlyTransfers (tok : Token) : OnlyTransfers (accept (p := p) tok) := fun s => by
  rcases accept_cases tok s with e | ⟨_, _, _, e⟩ | ⟨_, v, _, e⟩ <;> rw [e]
  · exact .refl _
  · exact .refl _
  · unfold afterTree
    split <;> exact .refl _

/-- A header token is accepted unless the tree is complete (R177). -/
theorem acceptUnlessDone_onlyTransfers (tok : Token) :
    OnlyTransfers fun s : State p => if s.ctl.treeValid then .ok s () else accept tok s := fun s => by
  dsimp only
  split
  · exact .refl _
  · exact accept_onlyTransfers tok s

/-- SER's scan writes bits (R176). -/
theorem serTree_onlyTransfers : OnlyTransfers fun s : State p => serScan s.mem.tm s := fun s => by
  dsimp only
  rw [serScan_eq]
  exact writeBits_onlyTransfers _ s

theorem fetchToken_onlyTransfers : OnlyTransfers (fetchToken (p := p)) := fun s =>
  (readBit_onlyTransfers s).andThen fun tag =>
    match tag with
    | none => fun _ => .refl _
    | some false => fun _ => .refl _
    | some true => fun s1 => (readByte_onlyTransfers s1).andThen fun v =>
      match v with
      | none => fun _ => .refl _
      | some _ => fun _ => .refl _

theorem deserLoop_onlyTransfers (n : Nat) : OnlyTransfers (deserLoop (p := p) n) := by
  induction n with
  | zero => exact fun s => .refl _
  | succ n ih =>
    intro s
    rw [deserLoop]
    split
    · exact .refl _
    · refine (fetchToken_onlyTransfers s).andThen fun o => ?_
      cases o with
      | none => exact fun _ => .refl _
      | some tok => exact fun s1 => (accept_onlyTransfers tok s1).andThen fun _ => ih

theorem cmapLeaf_onlyTransfers (v : Byte) : OnlyTransfers (cmapLeaf (p := p) v) := fun s => by
  rcases cmapLeaf_cases v s with ⟨_, _, e⟩ | ⟨_, _, e⟩ | ⟨_, _, _, _, e⟩ <;> rw [e] <;> exact .refl _

theorem cmapScan_onlyTransfers (es : List (TmEntry p)) : OnlyTransfers (cmapScan es) := by
  induction es with
  | nil => exact fun s => .refl _
  | cons e es ih =>
    cases e with
    | int _ => exact fun s => ih (cmapInternal s)
    | leaf v => exact fun s => (cmapLeaf_onlyTransfers v s).andThen fun _ => ih

theorem buildCodeMap_onlyTransfers : OnlyTransfers (buildCodeMap (p := p)) := fun s => by
  refine Transfers.andThen (e := s.env) ?_ fun _ _ => .refl _
  unfold buildCodes
  split
  · exact .refl _
  · exact cmapScan_onlyTransfers _ (beginWalk (clearCodeMap s))

/-! ### The encoder and the decoder -/

theorem encodeByte_onlyTransfers (v : Byte) : OnlyTransfers (encodeByte (p := p) v) := fun s => by
  unfold encodeByte
  split
  · exact .refl _
  · unfold writeCode
    split
    · exact .refl _
    · exact (writeBits_onlyTransfers _ s).andThen fun _ _ => .refl _

theorem symEmit_onlyTransfers (b : Byte) : OnlyTransfers (symEmit (p := p) b) := fun s => by
  rcases symEmit_cases b s with ⟨_, e⟩ | ⟨_, _, e⟩ | ⟨_, _, e⟩ <;> rw [e]
  · exact .refl _
  · exact .event _ _
  · exact .event _ _

theorem emitPending_onlyTransfers : OnlyTransfers (emitPending (p := p)) := fun s => by
  unfold emitPending
  split
  · exact (symEmit_onlyTransfers _ s).andThen fun _ _ => .refl _
  · exact .refl _

theorem descend_env (b : Bool) (s : State p) : (descend b s).env = s.env := by cases b <;> rfl

theorem walkStep_onlyTransfers (b : Bool) : OnlyTransfers (walkStep (p := p) b) := fun s =>
  (emitPending_onlyTransfers s).andThen fun _ s1 => by
    rw [Micro.endState_ok, descend_env]; exact .refl _

theorem payloadStep_onlyTransfers (b : Bool) : OnlyTransfers (payloadStep (p := p) b) := fun s => by
  unfold payloadStep
  split
  · cases b with
    | false => exact .refl _
    | true => exact symEmit_onlyTransfers _ s
  · exact walkStep_onlyTransfers b s

theorem stopAtEos_onlyTransfers : OnlyTransfers (stopAtEos (p := p)) := fun s => by
  unfold stopAtEos
  split <;> exact .refl _

theorem payloadEnd_onlyTransfers : OnlyTransfers (payloadEnd (p := p)) := fun s => by
  unfold payloadEnd
  split
  · exact stopAtEos_onlyTransfers s
  · exact (emitPending_onlyTransfers s).andThen fun _ => stopAtEos_onlyTransfers

theorem decodeLoop_onlyTransfers (n : Nat) : OnlyTransfers (decodeLoop (p := p) n) := by
  induction n with
  | zero => exact fun s => .refl _
  | succ n ih =>
    intro s
    rw [decodeLoop]
    split
    · exact .refl _
    · refine (readBit_onlyTransfers s).andThen fun r => ?_
      cases r with
      | none => exact payloadEnd_onlyTransfers
      | some b => exact fun s1 => (payloadStep_onlyTransfers b s1).andThen fun _ => ih

theorem runDecoder_onlyTransfers : OnlyTransfers (runDecoder (p := p)) := fun s =>
  decodeLoop_onlyTransfers _ (beginDecode s)

theorem decodeChecked_onlyTransfers {body : State p → Micro p Unit} (h : OnlyTransfers body) :
    OnlyTransfers (decodeChecked body) :=
  .require (c := fun s => s.r.isOpen) (.require (c := fun s => s.ctl.treeValid) h)

/-! ### Fault entry, reset and whole commands -/

theorem flushBestEffort_transfers (s : State p) : Transfers s.env (flushBestEffort s).env := by
  rcases flushBestEffort_cases s with ⟨_, e⟩ | ⟨_, _, e⟩ | ⟨_, _, e⟩ <;> rw [e]
  · exact .refl _
  · exact .event _ _
  · exact .event _ _

theorem closeSinkOnFault_transfers (x : FaultCode) (s : State p) : Transfers s.env (closeSinkOnFault x s).env := by
  unfold closeSinkOnFault
  split
  · refine Transfers.trans ?_ (.event _ .snkRelease)
    split
    · exact .refl _
    · exact flushBestEffort_transfers s
  · exact .refl _

/-- Fault entry emits at most the flushed byte and releases what is open (R275). -/
theorem raiseFault_transfers (x : FaultCode) (w : CmdWord) (s : State p) :
    Transfers s.env (raiseFault x w s).env := by
  refine (closeSinkOnFault_transfers x s).trans ?_
  rw [raiseFault_eq]
  split
  · exact .event _ .srcRelease
  · exact .refl _

/-- Reset releases what is attached (R240, R300). -/
theorem resetBlock_transfers (s : State p) : Transfers s.env (resetBlock s).env := by
  have release (c : Bool) (t : State p) (ev : PortEvent) : Transfers t.env (if c then t.port ev else t).env := by
    cases c with
    | true => exact .event _ ev
    | false => exact .refl _
  exact (release s.env.snk.attached s .snkRelease).trans (release _ _ .srcRelease)

/-- A command whose pseudocode changes the channels by transfers only does so itself: it is dropped, or completes, or
enters its fault (R274, R275). -/
theorem command_transfers {i : Instr} {body : State p → Micro p Unit} {s t : State p}
    (h : command i body s = .next t) (hb : OnlyTransfers body) : Transfers s.env t.env := by
  cases hf : s.flt.faulted with
  | true => rw [command_faulted hf] at h; cases h; exact .refl _
  | false =>
    have hs := hb s
    rw [command_live hf] at h
    cases hm : body s with
    | ok u a => rw [hm] at h hs; cases h; exact hs
    | raise x u => rw [hm] at h hs; cases h; exact hs.trans (raiseFault_transfers _ _ _)

/-- Every instruction changes the channels by transfers only (R75). -/
theorem exec_transfers {i : Instr} {s t : State} (h : exec i s = .next t) : Transfers s.env t.env := by
  cases i with
  | reset => cases h; exact resetBlock_transfers s
  | openw => exact command_transfers h openSink_onlyTransfers.require
  | wbit opd => exact command_transfers h (writeBit_onlyTransfers _).require
  | wbyte v => exact command_transfers h (writeBits_onlyTransfers _).require
  | flush => exact command_transfers h flushPacker_onlyTransfers.require
  | closew => exact command_transfers h flushAndRelease_onlyTransfers.require
  | openr => exact command_transfers h openSource_onlyTransfers.require
  | rbit => exact command_transfers h readBitToRes_onlyTransfers.require
  | rbyte => exact command_transfers h readByteToRes_onlyTransfers.require
  | closer => exact command_transfers h (.require fun s => .event s.env .srcRelease)
  | tbegin =>
    exact command_transfers (i := .tbegin) (body := fun s => .ok (beginLoad s) ()) h fun s => .refl s.env
  | tnode => exact command_transfers h (accept_onlyTransfers _).require
  | tleaf v => exact command_transfers h (accept_onlyTransfers _).require
  | ser => exact command_transfers h serTree_onlyTransfers.require.require
  | deser => exact command_transfers h (.require fun s => deserLoop_onlyTransfers _ (beginDeser s))
  | cmap => exact command_transfers h buildCodeMap_onlyTransfers.require
  | enc v => exact command_transfers h (encodeByte_onlyTransfers v).require
  | decode => exact command_transfers h (decodeChecked_onlyTransfers runDecoder_onlyTransfers)
  | leaf v => exact command_transfers h (acceptUnlessDone_onlyTransfers _).require
  | internal => exact command_transfers h (acceptUnlessDone_onlyTransfers _).require
  | left => exact command_transfers h (decodeChecked_onlyTransfers (payloadStep_onlyTransfers _))
  | right => exact command_transfers h (decodeChecked_onlyTransfers (payloadStep_onlyTransfers _))

/-- A word on the command port is dropped, runs its instruction, or is reserved and enters ILLEGAL_CMD (R274). -/
theorem takeWord_transfers {w : CmdWord} {s t : State} (h : takeWord w s = .next t) : Transfers s.env t.env := by
  cases hd : decode (.word w) with
  | ok i => rw [takeWord_eq_exec s hd] at h; exact exec_transfers h
  | error why =>
    cases hf : s.flt.faulted with
    | false => rw [takeWord_reserved hd hf] at h; cases h; exact raiseFault_transfers _ _ s
    | true =>
      have hw : w ≠ 0x0100#16 := by rintro rfl; cases hd
      rw [takeWord_dropped hw hf] at h; cases h; exact .refl _

/-- Settles O53: what a word does to the channels is a list of transfers, which extends the trace and replays. -/
theorem channelsChangeByTransfersOnly : Obligations.ChannelsChangeByTransfersOnly := by
  unfold Obligations.ChannelsChangeByTransfersOnly
  intro w s t h
  have key := takeWord_transfers h
  exact ⟨key.trace_extends, key.replay⟩

end Sys2Proof.Machine
end

section
/-! Rules for micro-steps (60_exceptions.md R275, R276): what holds between the micro-steps of a command's pseudocode
holds where it completes, and what every raise ensures holds where it faults. One rule per way the pseudocodes are put
together, each loop's induction done once. -/

namespace Sys2Proof.Machine

variable {p : Params} {α β : Type} {Q Q' : State p → Prop} {R R' : FaultCode → State p → Prop}

/-- How micro-steps end: `Q` holds where they complete, `R` where they raise (R276). -/
def Micro.Ends (Q : State p → Prop) (R : FaultCode → State p → Prop) : Micro p α → Prop
  | .ok s _ => Q s
  | .raise x s => R x s

@[simp] theorem Micro.ends_ok (s : State p) (a : α) : (Micro.ok s a).Ends Q R ↔ Q s := Iff.rfl

@[simp] theorem Micro.ends_raise (x : FaultCode) (s : State p) : (Micro.raise x s : Micro p α).Ends Q R ↔ R x s :=
  Iff.rfl

theorem Micro.Ends.mono {m : Micro p α} (h : m.Ends Q R) (hQ : ∀ s, Q s → Q' s) (hR : ∀ x s, R x s → R' x s) :
    m.Ends Q' R' := by
  cases m with
  | ok s a => exact hQ s h
  | raise x s => exact hR x s h

/-- `Q` between micro-steps is kept, and a fault is raised with `R`. -/
def Keeps (Q : State p → Prop) (R : FaultCode → State p → Prop) (f : State p → Micro p α) : Prop :=
  ∀ s, Q s → (f s).Ends Q R

theorem Micro.Ends.andThen {m : Micro p α} {f : State p → α → Micro p β} (hm : m.Ends Q R)
    (hf : ∀ a, Keeps Q R fun s => f s a) : (m.andThen f).Ends Q R := by
  cases m with
  | ok s a => exact hf a s hm
  | raise x s => exact hm

/-- A precondition is checked on the unchanged state, and where it holds the body runs (R120). -/
theorem Micro.Ends.require {c : Bool} {x : FaultCode} {body : State p → Micro p Unit} {s : State p}
    (hx : R x s) (hb : c = true → (body s).Ends Q R) : (require c x body s).Ends Q R := by
  cases c with
  | true => exact hb rfl
  | false => exact hx

/-- A command is dropped, completes, or enters its fault (R274, R275). -/
theorem command_ends {P : State p → Prop} {i : Instr} {body : State p → Micro p Unit} {s t : State p}
    (h : command i body s = .next t) (hdrop : s.flt.faulted = true → P s)
    (hb : s.flt.faulted = false → (body s).Ends P fun x u => P (raiseFault x i.cmdWord u)) : P t := by
  cases hf : s.flt.faulted with
  | true => rw [command_faulted hf] at h; cases h; exact hdrop hf
  | false =>
    have hends := hb hf
    rw [command_live hf] at h
    cases hm : body s with
    | ok u a => rw [hm] at h hends; cases h; exact hends
    | raise x u => rw [hm] at h hends; cases h; exact hends

/-! ### Bits -/

theorem Keeps.writeBits (h : ∀ b, Keeps Q R (writeBit b)) (bs : List Bool) : Keeps Q R (writeBits bs) := by
  induction bs with
  | nil => exact fun s hs => hs
  | cons b bs ih => exact fun s hs => (h b s hs).andThen fun _ => ih

/-- SER's scan writes bits (R176). -/
theorem Keeps.serTree (h : ∀ b, Keeps Q R (writeBit b)) : Keeps Q R fun s : State p => serScan s.mem.tm s :=
  fun s hs => by
    dsimp only
    rw [serScan_eq]
    exact Keeps.writeBits h _ s hs

theorem Keeps.readBitsInto (h : Keeps Q R readBit) (n : Nat) (v : Byte) : Keeps Q R (readBitsInto n v) := by
  induction n generalizing v with
  | zero => exact fun s hs => hs
  | succ n ih =>
    refine fun s hs => (h s hs).andThen fun r => ?_
    cases r with
    | none => exact fun _ hs => hs
    | some b => exact ih _

theorem Keeps.readByte (h : Keeps Q R readBit) : Keeps Q R readByte := Keeps.readBitsInto h 8 0#8

theorem Keeps.fetchToken (h : Keeps Q R readBit) : Keeps Q R fetchToken := fun s hs =>
  (h s hs).andThen fun tag =>
    match tag with
    | none => fun _ hs => hs
    | some false => fun _ hs => hs
    | some true => fun s1 h1 => (Keeps.readByte h s1 h1).andThen fun v =>
      match v with
      | none => fun _ hs => hs
      | some _ => fun _ hs => hs

/-! ### Loops and scans -/

theorem Keeps.deserLoop (hr : Keeps Q R readBit) (ha : ∀ tok, Keeps Q R (accept tok))
    (hx : ∀ s, Q s → R .truncHeader s) (n : Nat) : Keeps Q R (deserLoop n) := by
  induction n with
  | zero => exact fun s hs => hs
  | succ n ih =>
    intro s hs
    rw [Machine.deserLoop]
    split
    · exact hs
    · refine (Keeps.fetchToken hr s hs).andThen fun o => ?_
      cases o with
      | none => exact hx
      | some tok => exact fun s1 h1 => (ha tok s1 h1).andThen fun _ => ih

theorem Keeps.cmapScan (hi : ∀ s, Q s → Q (cmapInternal s)) (hl : ∀ v, Keeps Q R (cmapLeaf v))
    (es : List (TmEntry p)) : Keeps Q R (cmapScan es) := by
  induction es with
  | nil => exact fun s hs => hs
  | cons e es ih =>
    cases e with
    | int _ => exact fun s hs => ih _ (hi s hs)
    | leaf v => exact fun s hs => (hl v s hs).andThen fun _ => ih

theorem Keeps.emitPending (he : ∀ b, Keeps Q R (symEmit b)) (hc : ∀ x s, Q s → Q (setCur x s)) :
    Keeps Q R emitPending := by
  intro s hs
  unfold Machine.emitPending
  split
  · exact (he _ s hs).andThen fun _ s1 h1 => hc _ s1 h1
  · exact hs

/-- A payload bit emits or moves the cursor, in either mode (R222, R224). -/
theorem Keeps.payloadStep (he : ∀ b, Keeps Q R (symEmit b)) (hc : ∀ x s, Q s → Q (setCur x s)) (b : Bool) :
    Keeps Q R (payloadStep b) := by
  intro s hs
  unfold Machine.payloadStep
  split
  · cases b with
    | false => exact hs
    | true => exact he _ s hs
  · refine (Keeps.emitPending he hc s hs).andThen fun _ s1 h1 => ?_
    cases b <;> exact hc _ s1 h1

/-- DECODE's stops set MIDTREE or raise PAYLOAD_SHORT (R225). -/
theorem Keeps.stopAtEos (hm : ∀ b s, Q s → Q (s.setCtl { s.ctl with midtree := b }))
    (hx : ∀ s, Q s → R .payloadShort s) : Keeps Q R stopAtEos := by
  intro s hs
  unfold Machine.stopAtEos
  split
  · exact hx s hs
  · exact hm _ s hs

theorem Keeps.payloadEnd (he : ∀ b, Keeps Q R (symEmit b)) (hc : ∀ x s, Q s → Q (setCur x s))
    (hm : ∀ b s, Q s → Q (s.setCtl { s.ctl with midtree := b })) (hx : ∀ s, Q s → R .payloadShort s) :
    Keeps Q R payloadEnd := by
  intro s hs
  unfold Machine.payloadEnd
  split
  · exact Keeps.stopAtEos hm hx s hs
  · exact (Keeps.emitPending he hc s hs).andThen fun _ => Keeps.stopAtEos hm hx

theorem Keeps.decodeLoop (hr : Keeps Q R readBit) (he : ∀ b, Keeps Q R (symEmit b))
    (hc : ∀ x s, Q s → Q (setCur x s)) (hm : ∀ b s, Q s → Q (s.setCtl { s.ctl with midtree := b }))
    (hx : ∀ s, Q s → R .payloadShort s) (n : Nat) : Keeps Q R (decodeLoop n) := by
  induction n with
  | zero => exact fun s hs => hs
  | succ n ih =>
    intro s hs
    rw [Machine.decodeLoop]
    split
    · exact hm _ s hs
    · refine (hr s hs).andThen fun o => ?_
      cases o with
      | none => exact Keeps.payloadEnd he hc hm hx
      | some b => exact fun s1 h1 => (Keeps.payloadStep he hc b s1 h1).andThen fun _ => ih

end Sys2Proof.Machine
end

section
/-! What a word on the command port, a register write and a reset input can do, once each (60_exceptions.md R274;
46_system_and_macros.md R242; 70_reset_and_hazards.md R302). -/

namespace Sys2Proof.Machine

/-- A word on the command port is dropped, runs its instruction, or is reserved and enters ILLEGAL_CMD (R274). -/
theorem takeWord_cases (w : CmdWord) (s : State) :
    (s.flt.faulted = true ∧ takeWord w s = .next s) ∨
    (∃ i, decode (.word w) = .ok i ∧ takeWord w s = exec i s) ∨
    (s.flt.faulted = false ∧ takeWord w s = .next (raiseFault .illegalCmd w s)) := by
  cases hd : decode (.word w) with
  | ok i => exact .inr (.inl ⟨i, rfl, takeWord_eq_exec s hd⟩)
  | error why =>
    cases hf : s.flt.faulted with
    | false => exact .inr (.inr ⟨rfl, takeWord_reserved hd hf⟩)
    | true => exact .inl ⟨rfl, takeWord_dropped (by rintro rfl; cases hd) hf⟩

/-- A reset input in the middle of a command takes the reset state, with some of the command's transfers done (R302). -/
theorem resetDuring_eq (w : CmdWord) (k : Nat) (s : State) : ∃ t, takeWord w s = .next t ∧
    takeInput (.resetDuring w k) s =
      .next (resetBlock (s.setEnv (((eventsSince s.env t.env).take k).foldl Env.apply s.env))) := by
  obtain ⟨t, e⟩ := takeWord_next w s
  exact ⟨t, e, by simp only [takeInput, resetDuring, e]⟩

/-- A register write sets the configuration or is ignored (R242). -/
theorem writeReg_cases {p : Params} (s : State p) (reg : BitVec 4) (value : Counter p) :
    ∃ c, writeReg s reg value = s.setCfg c := by
  unfold writeReg
  split
  · exact ⟨_, rfl⟩
  · exact ⟨_, rfl⟩
  · exact ⟨s.cfg, rfl⟩

end Sys2Proof.Machine
end

section
/-! What each instruction may write (10_state.md R22, R24 to R26, R29, R32, R33, R79): a table of write sets, and that
every instruction keeps to its row, also when it faults. -/

namespace Sys2Proof.Machine

variable {p : Params} {α : Type}

/-- A part of the state that only some instructions write. -/
inductive Part where
  | res
  | cfg
  | wbits
  | enc
  | dec
  | rbits
  | tm
  | stk
  | cm
  | tload
  | treeValid
  | cmapValid
  | flt
  | sym
  deriving DecidableEq

/-- The part is in `t` as it is in `s`. -/
def Part.Same (s t : State p) : Part → Prop
  | .res => t.res = s.res
  | .cfg => t.cfg = s.cfg
  | .wbits => t.w.wbits = s.w.wbits
  | .enc => t.cnt.enc = s.cnt.enc
  | .dec => t.cnt.dec = s.cnt.dec
  | .rbits => t.r.rbits = s.r.rbits
  | .tm => t.mem.tm = s.mem.tm
  | .stk => t.mem.stk = s.mem.stk
  | .cm => t.mem.cm = s.mem.cm
  | .tload => t.ctl.tload = s.ctl.tload
  | .treeValid => t.ctl.treeValid = s.ctl.treeValid
  | .cmapValid => t.ctl.cmapValid = s.ctl.cmapValid
  | .flt => t.flt = s.flt
  | .sym => t.env.sym = s.env.sym

/-- From `s` to `t` no part but those of `ws` changes. -/
def KeepsBut (ws : List Part) (s t : State p) : Prop := ∀ x, x ∉ ws → x.Same s t

theorem KeepsBut.refl (ws : List Part) (s : State p) : KeepsBut ws s s := fun x _ => by cases x <;> rfl

theorem KeepsBut.trans {ws : List Part} {s t u : State p} (h : KeepsBut ws s t) (k : KeepsBut ws t u) :
    KeepsBut ws s u := fun x hx => by
  have h1 := h x hx
  have h2 := k x hx
  cases x <;> exact Eq.trans h2 h1

theorem KeepsBut.mono {ws ws' : List Part} {s t : State p} (h : KeepsBut ws s t) (hw : ws ⊆ ws') :
    KeepsBut ws' s t := fun x hx => h x fun hm => hx (hw hm)

/-- These micro-steps write no part but those of `ws`, also when they fault. -/
def WritesOnly (ws : List Part) (f : State p → Micro p α) : Prop :=
  ∀ s, Keeps (KeepsBut ws s) (fun _ => KeepsBut ws s) f

theorem WritesOnly.of {ws : List Part} {f : State p → Micro p α} (h : ∀ s, KeepsBut ws s (f s).endState) :
    WritesOnly ws f := by
  intro s0 s hs
  have hf := h s
  cases hm : f s <;> rw [hm] at hf <;> exact hs.trans hf

theorem WritesOnly.endState {ws : List Part} {f : State p → Micro p α} (h : WritesOnly ws f) (s : State p) :
    KeepsBut ws s (f s).endState := by
  have hf := h s s (.refl ws s)
  cases hm : f s <;> rw [hm] at hf <;> exact hf

theorem WritesOnly.mono {ws ws' : List Part} {f : State p → Micro p α} (h : WritesOnly ws f) (hw : ws ⊆ ws') :
    WritesOnly ws' f := .of fun s => (h.endState s).mono hw

/-- A step between two pieces of pseudocode. -/
theorem WritesOnly.andThen {β : Type} {ws : List Part} {f : State p → Micro p α} {g : State p → α → Micro p β}
    (hf : WritesOnly ws f) (hg : ∀ a, WritesOnly ws fun s => g s a) : WritesOnly ws fun s => (f s).andThen g :=
  fun s0 s hs => (hf s0 s hs).andThen fun a => hg a s0

theorem WritesOnly.require {ws : List Part} {body : State p → Micro p Unit} {c : State p → Bool} {x : FaultCode}
    (h : WritesOnly ws body) : WritesOnly ws fun s => require (c s) x body s :=
  fun s0 s hs => .require hs fun _ => h s0 s hs

/-! ### One rule per write and per transfer -/

section
variable {ws : List Part} {s t : State p} (h : KeepsBut ws s t)
include h

theorem KeepsBut.setW {w : Packer p} (hw : .wbits ∈ ws ∨ w.wbits = t.w.wbits := by simp) : KeepsBut ws s (t.setW w) :=
  h.trans fun x hx => by cases x <;> simp_all [Part.Same]

theorem KeepsBut.setR {r : Unpacker p} (hr : .rbits ∈ ws ∨ r.rbits = t.r.rbits := by simp) : KeepsBut ws s (t.setR r) :=
  h.trans fun x hx => by cases x <;> simp_all [Part.Same]

theorem KeepsBut.setRes {v : BitVec 9} (hv : .res ∈ ws := by simp) : KeepsBut ws s (t.setRes v) :=
  h.trans fun x hx => by cases x <;> simp_all [Part.Same]

theorem KeepsBut.setMem {m : Memory p} (htm : .tm ∈ ws ∨ m.tm = t.mem.tm := by simp)
    (hstk : .stk ∈ ws ∨ m.stk = t.mem.stk := by simp) (hcm : .cm ∈ ws ∨ m.cm = t.mem.cm := by simp) :
    KeepsBut ws s (t.setMem m) :=
  h.trans fun x hx => by cases x <;> simp_all [Part.Same]

theorem KeepsBut.setCtl {c : Control p} (hl : .tload ∈ ws ∨ c.tload = t.ctl.tload := by simp)
    (hv : .treeValid ∈ ws ∨ c.treeValid = t.ctl.treeValid := by simp)
    (hm : .cmapValid ∈ ws ∨ c.cmapValid = t.ctl.cmapValid := by simp) :
    KeepsBut ws s (t.setCtl c) :=
  h.trans fun x hx => by cases x <;> simp_all [Part.Same]

theorem KeepsBut.setCnt {n : Counts p} (he : .enc ∈ ws ∨ n.enc = t.cnt.enc := by simp)
    (hd : .dec ∈ ws ∨ n.dec = t.cnt.dec := by simp) :
    KeepsBut ws s (t.setCnt n) :=
  h.trans fun x hx => by cases x <;> simp_all [Part.Same]

theorem KeepsBut.port {ev : PortEvent} (he : .sym ∈ ws ∨ (t.env.apply ev).sym = t.env.sym := by simp) :
    KeepsBut ws s (t.port ev) :=
  h.trans fun x hx => by cases x <;> simp_all [Part.Same]

end

/-! ### The packer and the unpacker -/

theorem writeBit_writesOnly (b : Bool) : WritesOnly [.wbits] (writeBit (p := p) b) := fun s0 s h => by
  rcases writeBit_cases b s with ⟨_, e⟩ | ⟨_, _, e⟩ | ⟨_, _, _, e⟩ | ⟨_, _, _, e⟩ <;> rw [e]
  · exact h
  · exact h.setW
  · exact h.port.setW
  · exact h.port.setW

theorem writeBits_writesOnly (bs : List Bool) : WritesOnly [.wbits] (writeBits (p := p) bs) := fun s0 =>
  .writeBits (fun b => writeBit_writesOnly b s0) bs

theorem serTree_writesOnly : WritesOnly [.wbits] fun s : State p => serScan s.mem.tm s := fun s0 =>
  .serTree fun b => writeBit_writesOnly b s0

theorem flushPacker_writesOnly : WritesOnly [] (flushPacker (p := p)) := fun s0 s h => by
  rcases flushPacker_cases s with ⟨_, e⟩ | ⟨_, _, e⟩ | ⟨_, _, e⟩ <;> rw [e]
  · exact h
  · exact h.port.setW
  · exact h.port

theorem flushAndRelease_writesOnly : WritesOnly [] (flushAndRelease (p := p)) :=
  flushPacker_writesOnly.andThen fun _ _ _ h => h.port.setW

theorem openSink_writesOnly : WritesOnly [.wbits, .enc] (openSink (p := p)) := fun s0 s h => by
  unfold openSink
  split
  · exact h.port.setW.setCnt
  · exact h.port

theorem openSource_writesOnly : WritesOnly [.rbits] (openSource (p := p)) := fun s0 s h => by
  unfold openSource
  split
  · exact h.port.setR
  · exact h.port

theorem deliverBit_writesOnly : WritesOnly [.rbits] (deliverBit (p := p)) := fun s0 s h => by
  rcases deliverBit_cases s with ⟨_, e⟩ | ⟨_, e⟩ <;> rw [e]
  · exact h
  · exact h.setR

theorem readBit_writesOnly : WritesOnly [.rbits] (readBit (p := p)) := fun s0 s h => by
  rcases readBit_cases s with ⟨_, e⟩ | ⟨_, _, e⟩ | ⟨_, _, _, e⟩ | ⟨_, _, _, e⟩ | ⟨b, _, _, _, e⟩ <;> rw [e]
  · exact h
  · exact deliverBit_writesOnly s0 s h
  · exact h.port
  · exact h.port.setR
  · exact deliverBit_writesOnly s0 _ (h.port.setR)

theorem readBitToRes_writesOnly : WritesOnly [.rbits, .res] (readBitToRes (p := p)) :=
  (readBit_writesOnly.mono (by simp)).andThen fun _ _ _ h => h.setRes

theorem readByteToRes_writesOnly : WritesOnly [.rbits, .res] (readByteToRes (p := p)) :=
  WritesOnly.andThen (fun s0 => .readByte (readBit_writesOnly.mono (by simp) s0)) fun _ _ _ h => h.setRes

theorem releaseSource_writesOnly : WritesOnly [] fun s : State p => .ok (releaseSource s) () := fun _ _ h =>
  h.port.setR

/-! ### The tree, its header and its code map -/

theorem beginLoad_writesOnly :
    WritesOnly [.tm, .stk, .cm, .tload, .treeValid, .cmapValid] fun s : State p => .ok (beginLoad s) () :=
  fun _ _ h => h.setMem.setCtl

theorem accept_writesOnly (tok : Token) : WritesOnly [.tm, .stk, .tload, .treeValid] (accept (p := p) tok) :=
  fun s0 s h => by
    rcases accept_cases tok s with e | ⟨_, _, _, e⟩ | ⟨_, v, _, e⟩ <;> rw [e]
    · exact h
    · exact h.setMem
    · unfold afterTree
      split
      · exact h.setMem.setCtl
      · exact h.setMem

/-- A header token is accepted unless the tree is complete (R177). -/
theorem acceptUnlessDone_writesOnly (tok : Token) : WritesOnly [.tm, .stk, .tload, .treeValid]
    fun s : State p => if s.ctl.treeValid then .ok s () else accept tok s := fun s0 s h => by
  dsimp only
  split
  · exact h
  · exact accept_writesOnly tok s0 s h

theorem deserTree_writesOnly (n : Nat) : WritesOnly [.rbits, .tm, .stk, .cm, .tload, .treeValid, .cmapValid]
    fun s : State p => deserLoop n (beginDeser s) := fun s0 s h =>
  Keeps.deserLoop (readBit_writesOnly.mono (by simp) s0) (fun tok => (accept_writesOnly tok).mono (by simp) s0)
    (fun _ h => h) n _ (h.setMem.setCtl)

theorem cmapLeaf_writesOnly (v : Byte) : WritesOnly [.cm, .stk] (cmapLeaf (p := p) v) := fun s0 s h => by
  rcases cmapLeaf_cases v s with ⟨_, _, e⟩ | ⟨_, _, e⟩ | ⟨_, _, _, _, e⟩ <;> rw [e]
  · exact h
  · exact h.setMem
  · exact h.setMem.setCtl

theorem cmapScan_writesOnly (es : List (TmEntry p)) : WritesOnly [.cm, .stk] (cmapScan es) := fun s0 =>
  .cmapScan (fun _ h => h.setMem.setCtl)
    (fun v => cmapLeaf_writesOnly v s0) es

theorem buildCodes_writesOnly : WritesOnly [.cm, .stk] (buildCodes (p := p)) := fun s0 s h => by
  unfold buildCodes
  split
  · exact h.setMem
  · exact cmapScan_writesOnly _ s0 _
      (h.setMem.setCtl)

theorem buildCodeMap_writesOnly : WritesOnly [.cm, .stk, .cmapValid] (buildCodeMap (p := p)) := fun s0 s h =>
  (buildCodes_writesOnly.mono (by simp) s0 (clearCodeMap s)
    h.setMem.setCtl).andThen
    fun _ _ h => h.setCtl

/-! ### The encoder and the decoder -/

theorem encodeByte_writesOnly (v : Byte) : WritesOnly [.wbits, .enc] (encodeByte (p := p) v) := fun s0 s h => by
  unfold encodeByte
  split
  · exact h
  · unfold writeCode
    split
    · exact h
    · exact ((writeBits_writesOnly _).mono (by simp) s0 s h).andThen fun _ _ h => h.setCnt

theorem symEmit_writesOnly (b : Byte) : WritesOnly [.dec, .sym] (symEmit (p := p) b) := fun s0 s h => by
  rcases symEmit_cases b s with ⟨_, e⟩ | ⟨_, _, e⟩ | ⟨_, _, e⟩ <;> rw [e]
  · exact h
  · exact h.port.setCnt
  · exact h.port

theorem payloadStep_writesOnly (b : Bool) : WritesOnly [.dec, .sym] (payloadStep (p := p) b) := fun s0 =>
  .payloadStep (fun b => symEmit_writesOnly b s0) (fun _ _ h => h.setCtl) b

theorem runDecoder_writesOnly : WritesOnly [.rbits, .dec, .sym] (runDecoder (p := p)) := fun s0 _ h =>
  Keeps.decodeLoop (readBit_writesOnly.mono (by simp) s0) (fun b => (symEmit_writesOnly b).mono (by simp) s0)
    (fun _ _ h => h.setCtl) (fun _ _ h => h.setCtl)
    (fun _ h => h) _ _ (h.setCnt.setCtl)

theorem decodeChecked_writesOnly {ws : List Part} {body : State p → Micro p Unit} (h : WritesOnly ws body) :
    WritesOnly ws (decodeChecked body) :=
  .require (c := fun s => s.r.isOpen) (.require (c := fun s => s.ctl.treeValid) h)

/-! ### Whole commands -/

/-- Fault entry writes the fault record and ends the load (R275). -/
theorem raiseFault_keepsBut (x : FaultCode) (w : CmdWord) (s : State p) :
    KeepsBut [.tload, .flt] s (raiseFault x w s) := fun y hy => by
  cases y <;> simp_all [Part.Same]
  split <;> rfl

/-- The parts an instruction writes when it completes. -/
def partsWritten : Instr → List Part
  | .reset => [.res, .cfg, .wbits, .enc, .dec, .rbits, .tm, .stk, .cm, .tload, .treeValid, .cmapValid, .flt]
  | .openw | .enc _ => [.wbits, .enc]
  | .wbit _ | .wbyte _ | .ser => [.wbits]
  | .flush | .closew | .closer => []
  | .openr => [.rbits]
  | .rbit | .rbyte => [.rbits, .res]
  | .tbegin => [.tm, .stk, .cm, .tload, .treeValid, .cmapValid]
  | .tnode | .tleaf _ | .leaf _ | .internal => [.tm, .stk, .tload, .treeValid]
  | .deser => [.rbits, .tm, .stk, .cm, .tload, .treeValid, .cmapValid]
  | .cmap => [.cm, .stk, .cmapValid]
  | .decode => [.rbits, .dec, .sym]
  | .left | .right => [.dec, .sym]

/-- Reset writes the block; the symbol sink stays (R240). -/
theorem resetBlock_keepsBut (s : State p) : KeepsBut (partsWritten .reset) s (resetBlock s) := fun x hx => by
  obtain ⟨_, _, hsym, _, _⟩ := resetBlock_env s
  cases x <;> simp_all [partsWritten, Part.Same]

theorem command_keepsBut {ws : List Part} {i : Instr} {body : State p → Micro p Unit} {s t : State p}
    (h : command i body s = .next t) (hb : WritesOnly ws body) : KeepsBut (.tload :: .flt :: ws) s t :=
  command_ends h (fun _ => .refl _ s) fun _ => (hb s s (.refl ws s)).mono (fun _ k => k.mono (by simp))
    fun x u k => (k.mono (by simp)).trans ((raiseFault_keepsBut x i.cmdWord u).mono (by simp))

/-- Every instruction writes its parts only, and where it faults the fault record and TLOAD besides. -/
theorem exec_keepsBut {i : Instr} {s t : State} (h : exec i s = .next t) :
    KeepsBut (.tload :: .flt :: partsWritten i) s t := by
  cases i with
  | reset => cases h; exact (resetBlock_keepsBut s).mono (by simp [partsWritten])
  | openw => exact command_keepsBut h openSink_writesOnly.require
  | wbit opd => exact command_keepsBut h (writeBit_writesOnly _).require
  | wbyte v => exact command_keepsBut h (writeBits_writesOnly _).require
  | flush => exact command_keepsBut h flushPacker_writesOnly.require
  | closew => exact command_keepsBut h flushAndRelease_writesOnly.require
  | openr => exact command_keepsBut h openSource_writesOnly.require
  | rbit => exact command_keepsBut h readBitToRes_writesOnly.require
  | rbyte => exact command_keepsBut h readByteToRes_writesOnly.require
  | closer => exact command_keepsBut h releaseSource_writesOnly.require
  | tbegin => exact command_keepsBut (i := .tbegin) (body := fun s => .ok (beginLoad s) ()) h beginLoad_writesOnly
  | tnode => exact command_keepsBut h (accept_writesOnly _).require
  | tleaf v => exact command_keepsBut h (accept_writesOnly _).require
  | ser => exact command_keepsBut h serTree_writesOnly.require.require
  | deser => exact command_keepsBut h (deserTree_writesOnly _).require
  | cmap => exact command_keepsBut h buildCodeMap_writesOnly.require
  | enc v => exact command_keepsBut h (encodeByte_writesOnly v).require
  | decode => exact command_keepsBut h (decodeChecked_writesOnly runDecoder_writesOnly)
  | leaf v => exact command_keepsBut h (acceptUnlessDone_writesOnly _).require
  | internal => exact command_keepsBut h (acceptUnlessDone_writesOnly _).require
  | left => exact command_keepsBut h (decodeChecked_writesOnly (payloadStep_writesOnly _))
  | right => exact command_keepsBut h (decodeChecked_writesOnly (payloadStep_writesOnly _))

/-- Settles O51: each register is in the write sets of its own writers only. -/
theorem registersHaveTheirOnlyWriters : Obligations.RegistersHaveTheirOnlyWriters := by
  unfold Obligations.RegistersHaveTheirOnlyWriters
  intro i s t h
  have key := exec_keepsBut h
  refine ⟨fun _ _ _ => key .res ?_, fun _ => key .cfg ?_, fun _ _ _ _ _ _ => key .wbits ?_,
    fun _ _ _ => key .enc ?_, fun _ _ _ _ => key .dec ?_, fun _ _ _ _ _ _ => key .rbits ?_⟩ <;>
    cases i <;> simp_all [partsWritten]

/-- Settles O52: TM, CM and the symbol sink are in the write sets of their own writers only. -/
theorem memoriesHaveTheirOnlyWriters : Obligations.MemoriesHaveTheirOnlyWriters := by
  unfold Obligations.MemoriesHaveTheirOnlyWriters
  intro i s t h
  have key := exec_keepsBut h
  refine ⟨fun _ _ _ _ _ _ _ => key .tm ?_, fun _ _ _ _ => key .cm ?_, fun _ _ _ => key .sym ?_⟩ <;>
    cases i <;> simp_all [partsWritten]

end Sys2Proof.Machine
end

section
/-! Transfers that stay inside the source (20_memory.md R64): after any number of a command's transfers the position is
not past the end, which is what a reset input in the middle of the command needs (70_reset_and_hazards.md R302). -/

namespace Sys2Proof.Machine

variable {p : Params}

/-- R64: the position is not past the end of the source. -/
def Env.PosInside (e : Env p) : Prop := e.src.pos ≤ e.src.data.length

/-- `e'` is what some transfers make of `e`, and after any number of them the position is inside the source. -/
def InsideTransfers (e e' : Env p) : Prop :=
  ∃ evs : List PortEvent, e' = evs.foldl Env.apply e ∧ ∀ k, ((evs.take k).foldl Env.apply e).PosInside

theorem InsideTransfers.refl {e : Env p} (h : e.PosInside) : InsideTransfers e e :=
  ⟨[], rfl, fun k => by simpa using h⟩

theorem InsideTransfers.posInside {e e' : Env p} (h : InsideTransfers e e') : e'.PosInside := by
  obtain ⟨evs, rfl, hk⟩ := h
  simpa using hk evs.length

/-- One more transfer that ends inside the source. -/
theorem InsideTransfers.event {e e' : Env p} (h : InsideTransfers e e') {ev : PortEvent}
    (hev : (e'.apply ev).PosInside) : InsideTransfers e (e'.apply ev) := by
  obtain ⟨evs, rfl, hk⟩ := h
  refine ⟨evs ++ [ev], by simp, fun k => ?_⟩
  by_cases hlen : k ≤ evs.length
  · rw [List.take_append_of_le_length hlen]; exact hk k
  · rw [List.take_of_length_le (by simp; omega)]; simpa using hev

/-- One more transfer of another channel, or one that does not move the source. -/
theorem InsideTransfers.still {e e' : Env p} (h : InsideTransfers e e') {ev : PortEvent}
    (hpos : (e'.apply ev).src.pos = e'.src.pos := by simp) (hdata : (e'.apply ev).src.data = e'.src.data := by simp) :
    InsideTransfers e (e'.apply ev) :=
  h.event (by rw [Env.PosInside, hpos, hdata]; exact h.posInside)

/-- Any number of the transfers that the trace has seen since leaves the position inside. -/
theorem InsideTransfers.take_posInside {e e' : Env p} (h : InsideTransfers e e') (k : Nat) :
    (((eventsSince e e').take k).foldl Env.apply e).PosInside := by
  obtain ⟨evs, rfl, hk⟩ := h
  simpa [eventsSince] using hk k

theorem flushBestEffort_inside {e : Env p} {s : State p} (h : InsideTransfers e s.env) :
    InsideTransfers e (flushBestEffort s).env := by
  rcases flushBestEffort_cases s with ⟨_, hs⟩ | ⟨_, _, hs⟩ | ⟨_, _, hs⟩ <;> rw [hs]
  · exact h
  · exact h.still
  · exact h.still

theorem closeSinkOnFault_inside {e : Env p} {s : State p} (x : FaultCode) (h : InsideTransfers e s.env) :
    InsideTransfers e (closeSinkOnFault x s).env := by
  unfold closeSinkOnFault
  split
  · refine InsideTransfers.still (ev := .snkRelease) ?_
    split
    · exact h
    · exact flushBestEffort_inside h
  · exact h

/-- Fault entry reads nothing (R275). -/
theorem raiseFault_inside {e : Env p} {s : State p} (x : FaultCode) (w : CmdWord) (h : InsideTransfers e s.env) :
    InsideTransfers e (raiseFault x w s).env := by
  have k := closeSinkOnFault_inside x h
  rw [raiseFault_eq]
  split
  · exact k.still (ev := .srcRelease)
  · exact k

/-- Reset reads nothing (R240, R300). -/
theorem resetBlock_inside {e : Env p} {s : State p} (h : InsideTransfers e s.env) :
    InsideTransfers e (resetBlock s).env := by
  have release (c : Bool) (t : State p) {ev : PortEvent} (hev : ev = .snkRelease ∨ ev = .srcRelease)
      (ht : InsideTransfers e t.env) : InsideTransfers e (if c then t.port ev else t).env := by
    cases c with
    | true => exact ht.still (by rcases hev with rfl | rfl <;> simp) (by rcases hev with rfl | rfl <;> simp)
    | false => exact ht
  exact release _ _ (.inr rfl) (release s.env.snk.attached s (.inl rfl) h)

end Sys2Proof.Machine
end

section
/-! The bookkeeping invariant is kept by every step (10_state.md R21, R25, R34, R39; 40_bitstream.md R127, R129;
60_exceptions.md R275). Inside a command it holds between the micro-steps, and a fault is raised with what fault entry
needs to restore it. -/

namespace Sys2Proof.Machine

variable {p : Params}

/-! ### What keeps the invariant of a block that is not faulted -/

/-- The packer and the sink change together (R21, R39). -/
theorem Inv.of_packerFrame {s t : State p} (h : Inv s) (hlive : s.flt.faulted = false) (f : PackerFrame s t)
    (hatt : t.w.isOpen = t.env.snk.attached) (hacc : t.w.isOpen = true → t.w.acc.toNat < 2 ^ t.w.cnt.val) : Inv t where
  accBelow := hacc
  sinkAttached := hatt
  sourceAttached := by rw [f.r, f.src]; exact h.sourceAttached
  closedEmpty := by rw [f.r]; exact h.closedEmpty
  posInside := by rw [f.src]; exact h.posInside
  eosAtEnd := by rw [f.r, f.src]; exact h.eosAtEnd
  resSentinel := by rw [f.res]; exact h.resSentinel
  noFaultNoCode := by rw [f.flt]; exact h.noFaultNoCode
  faultClosed := by rw [f.flt, hlive]; simp
  memory := by rw [f.mem]; exact h.memory

/-- The unpacker, the source and RES change together (R25, R39, R64, R127). -/
theorem Inv.of_unpackerFrame {s t : State p} (h : Inv s) (hlive : s.flt.faulted = false) (f : UnpackerFrame s t)
    (hatt : t.r.isOpen = t.env.src.attached) (hclosed : t.r.isOpen = false → t.r.rem = 0)
    (hpos : t.env.PosInside) (heos : t.r.eos = true → t.r.rem = 0 ∧ t.env.src.pos = t.env.src.data.length)
    (hres : t.res.getLsbD 8 = true → t.res = 0x100#9) : Inv t where
  accBelow := by rw [f.w]; exact h.accBelow
  sinkAttached := by rw [f.w, f.snk]; exact h.sinkAttached
  sourceAttached := hatt
  closedEmpty := hclosed
  posInside := hpos
  eosAtEnd := heos
  resSentinel := hres
  noFaultNoCode := by rw [f.flt]; exact h.noFaultNoCode
  faultClosed := by rw [f.flt, hlive]; simp
  memory := by rw [f.mem]; exact h.memory

/-- The memories and the flags change, in canonical form. -/
theorem Inv.of_memoryFrame {s t : State p} (h : Inv s) (hlive : s.flt.faulted = false) (f : MemoryFrame s t)
    (hwf : t.mem.wf = true) : Inv t where
  accBelow := by rw [f.w]; exact h.accBelow
  sinkAttached := by rw [f.w, f.env]; exact h.sinkAttached
  sourceAttached := by rw [f.r, f.env]; exact h.sourceAttached
  closedEmpty := by rw [f.r]; exact h.closedEmpty
  posInside := by rw [f.env]; exact h.posInside
  eosAtEnd := by rw [f.r, f.env]; exact h.eosAtEnd
  resSentinel := by rw [f.res]; exact h.resSentinel
  noFaultNoCode := by rw [f.flt]; exact h.noFaultNoCode
  faultClosed := by rw [f.flt, hlive]; simp
  memory := hwf

/-- The environment changes, with the same attachments and the same place in the source. -/
theorem Inv.setEnv {s : State p} (h : Inv s) {e : Env p} (hsnk : e.snk.attached = s.env.snk.attached)
    (hsrc : e.src.attached = s.env.src.attached) (hpos : e.src.pos = s.env.src.pos)
    (hdata : e.src.data = s.env.src.data) : Inv (s.setEnv e) where
  accBelow := h.accBelow
  sinkAttached := h.sinkAttached.trans hsnk.symm
  sourceAttached := h.sourceAttached.trans hsrc.symm
  closedEmpty := h.closedEmpty
  posInside := by rw [State.setEnv_env, hpos, hdata]; exact h.posInside
  eosAtEnd := by rw [State.setEnv_env, hpos, hdata]; exact h.eosAtEnd
  resSentinel := h.resSentinel
  noFaultNoCode := h.noFaultNoCode
  faultClosed := h.faultClosed
  memory := h.memory

/-- The invariant says nothing about the configuration and the symbol counters. -/
theorem Inv.setCfg {s : State p} (h : Inv s) (c : Cfg p) : Inv (s.setCfg c) := { __ := h }

theorem Inv.setCnt {s : State p} (h : Inv s) (c : Counts p) : Inv (s.setCnt c) := { __ := h }

/-! ### Fault entry and reset establish it -/

/-- What fault entry needs to establish the invariant: all of it but the packer's upper bits, which a refused eighth bit
leaves set, and the fault record. -/
structure Closable (s : State p) : Prop where
  sinkAttached : s.w.isOpen = s.env.snk.attached
  sourceAttached : s.r.isOpen = s.env.src.attached
  closedEmpty : s.r.isOpen = false → s.r.rem = 0
  posInside : s.env.PosInside
  eosAtEnd : s.r.eos = true → s.r.rem = 0 ∧ s.env.src.pos = s.env.src.data.length
  resSentinel : s.res.getLsbD 8 = true → s.res = 0x100#9
  memory : s.mem.wf = true

theorem Inv.closable {s : State p} (h : Inv s) : Closable s :=
  ⟨h.sinkAttached, h.sourceAttached, h.closedEmpty, h.posInside, h.eosAtEnd, h.resSentinel, h.memory⟩

theorem Closable.setW {s : State p} (h : Closable s) {x : Packer p} (hx : x.isOpen = s.w.isOpen) :
    Closable (s.setW x) :=
  ⟨hx.trans h.sinkAttached, h.sourceAttached, h.closedEmpty, h.posInside, h.eosAtEnd, h.resSentinel, h.memory⟩

theorem raiseFault_detached {s : State p} (x : FaultCode) (w : CmdWord) (h : s.w.isOpen = s.env.snk.attached) :
    (raiseFault x w s).env.snk.attached = false := by
  cases hw : s.w.isOpen with
  | true => exact raiseFault_attached hw
  | false =>
    obtain ⟨_, hsnk⟩ := raiseFault_closed (x := x) (w := w) hw
    rw [hsnk, ← h, hw]

/-- Fault entry (R275). -/
theorem Closable.raiseFault {s : State p} (h : Closable s) {x : FaultCode} (hx : x ≠ .none) (w : CmdWord) :
    Inv (raiseFault x w s) where
  accBelow := by simp
  sinkAttached := by rw [raiseFault_isOpen, raiseFault_detached x w h.sinkAttached]
  sourceAttached := by
    rw [raiseFault_r, raiseFault_src]
    split
    · rfl
    · exact h.sourceAttached
  closedEmpty := by
    rw [raiseFault_r]
    split
    · exact fun _ => rfl
    · exact h.closedEmpty
  posInside := by rw [raiseFault_src]; split <;> exact h.posInside
  eosAtEnd := by
    rw [raiseFault_r, raiseFault_src]
    split
    · exact fun heos => ⟨rfl, (h.eosAtEnd heos).2⟩
    · exact h.eosAtEnd
  resSentinel := by rw [raiseFault_res]; exact h.resSentinel
  noFaultNoCode := by simp
  faultClosed := fun _ => by
    refine ⟨by simpa using hx, by simp, ?_, by simp⟩
    rw [raiseFault_r]
    split
    · rfl
    · simp_all
  memory := by rw [raiseFault_mem]; exact h.memory

/-- Reset (R49, R240, R300). -/
theorem resetBlock_inv {s : State p} (h : s.env.PosInside) : Inv (resetBlock s) := by
  obtain ⟨hsnk, hsrc, _, _, _⟩ := resetBlock_env s
  rw [resetBlock_eq]
  refine ⟨by simp [Packer.reset], ?_, ?_, by simp [Unpacker.reset], ?_, by simp [Unpacker.reset], by simp,
    by simp [FaultRecord.reset], by simp [FaultRecord.reset], Memory.wf_reset⟩
  · rw [State.resetWith_env, hsnk]; rfl
  · rw [State.resetWith_env, hsrc]; rfl
  · rw [State.resetWith_env, hsrc]; exact h

/-! ### Between the micro-steps of a command -/

/-- What holds between the micro-steps of a command that started with the environment `e`; with `reading` the source
stays open. -/
structure Running (e : Env p) (reading : Bool) (s : State p) : Prop where
  inv : Inv s
  live : s.flt.faulted = false
  isOpen : reading = true → s.r.isOpen = true
  inside : InsideTransfers e s.env

/-- What holds where a micro-step raises the fault `x`. -/
structure Raised (e : Env p) (x : FaultCode) (s : State p) : Prop where
  code : x ≠ .none
  closable : Closable s
  inside : InsideTransfers e s.env

section
variable {e : Env p} {o : Bool} {s t : State p} (h : Running e o s)
include h

theorem Running.raise {x : FaultCode} (hx : x ≠ .none) : Raised e x s := ⟨hx, h.inv.closable, h.inside⟩

theorem Running.packer (f : PackerFrame s t) (hatt : t.w.isOpen = t.env.snk.attached)
    (hacc : t.w.isOpen = true → t.w.acc.toNat < 2 ^ t.w.cnt.val) (hin : InsideTransfers e t.env) : Running e o t :=
  ⟨h.inv.of_packerFrame h.live f hatt hacc, by rw [f.flt]; exact h.live, by rw [f.r]; exact h.isOpen, hin⟩

theorem Running.memory (f : MemoryFrame s t) (hwf : t.mem.wf = true) : Running e o t :=
  ⟨h.inv.of_memoryFrame h.live f hwf, by rw [f.flt]; exact h.live, by rw [f.r]; exact h.isOpen,
    by rw [f.env]; exact h.inside⟩

/-- The flags, the cursor and the path may change as they like. -/
theorem Running.setCtl (c : Control p) : Running e o (s.setCtl c) :=
  h.memory ⟨rfl, rfl, rfl, rfl, rfl, rfl, rfl⟩ h.inv.memory

theorem Running.setCnt (c : Counts p) : Running e o (s.setCnt c) := ⟨h.inv.setCnt c, h.live, h.isOpen, h.inside⟩

theorem Running.setMem {m : Memory p} (hwf : m.wf = true) : Running e o (s.setMem m) :=
  h.memory ⟨rfl, rfl, rfl, rfl, rfl, rfl, rfl⟩ hwf

/-- A transfer that attaches nothing and does not move the source. -/
theorem Running.port {ev : PortEvent} (hsnk : (s.env.apply ev).snk.attached = s.env.snk.attached := by simp)
    (hsrc : (s.env.apply ev).src.attached = s.env.src.attached := by simp)
    (hpos : (s.env.apply ev).src.pos = s.env.src.pos := by simp)
    (hdata : (s.env.apply ev).src.data = s.env.src.data := by simp) : Running e o (s.port ev) :=
  ⟨h.inv.setEnv hsnk hsrc hpos hdata, h.live, h.isOpen, h.inside.still hpos hdata⟩

end

/-! ### The packer -/

section
variable {e : Env p} {o : Bool}

theorem writeBit_running (b : Bool) : Keeps (Running e o) (Raised e) (writeBit b) := fun s h => by
  rcases writeBit_cases b s with ⟨_, eq⟩ | ⟨_, h7, eq⟩ | ⟨_, h7, _, eq⟩ | ⟨_, _, _, eq⟩
  · rw [eq]; exact h.raise (by decide)
  · have k := writeBit_wrote eq
    rw [eq]
    refine h.packer k.frame h.inv.sinkAttached (fun hopen => ?_) h.inside
    have hlt : s.w.cnt.val < 7 := by omega
    have hcnt : (s.w.cnt + 1).val = s.w.cnt.val + 1 := by rw [Fin.val_add_one_of_lt' (by omega)]
    rw [State.setW_w, hcnt]
    exact shiftIn_toNat (h.inv.accBelow hopen) (by omega) b
  · have k := writeBit_wrote eq
    rw [eq]
    exact h.packer k.frame (by simpa using h.inv.sinkAttached) (fun _ => by simp) h.inside.still
  · rw [eq]
    refine ⟨by decide, Closable.setW ?_ rfl, h.inside.still⟩
    exact h.port.inv.closable

theorem flushPacker_running : Keeps (Running e o) (Raised e) flushPacker := fun s h => by
  rcases flushPacker_cases s with ⟨_, eq⟩ | ⟨_, _, eq⟩ | ⟨_, _, eq⟩ <;> rw [eq]
  · exact h
  · exact h.packer ⟨rfl, rfl, rfl, rfl, rfl, rfl, by simp, by simp, by simp, by simp⟩
      (by simpa using h.inv.sinkAttached) (fun _ => by simp) h.inside.still
  · exact h.port.raise (by decide)

theorem flushAndRelease_running : Keeps (Running e o) (Raised e) flushAndRelease := fun s h =>
  (flushPacker_running s h).andThen fun _ s1 h1 =>
    h1.packer ⟨rfl, rfl, rfl, rfl, rfl, rfl, rfl, rfl, by simp [releaseSink], by simp [releaseSink]⟩
      (by simp [releaseSink]) (by simp [releaseSink]) (h1.inside.still (ev := .snkRelease))

theorem openSink_running : Keeps (Running e o) (Raised e) openSink := fun s h => by
  unfold openSink
  split
  · exact h.packer ⟨rfl, rfl, rfl, rfl, rfl, rfl, by simp, by simp, by simp, by simp⟩ (by simp) (by simp) h.inside.still
  · exact h.port.raise (by decide)

theorem encodeByte_running (v : Byte) : Keeps (Running e o) (Raised e) (encodeByte v) := fun s h => by
  unfold encodeByte
  split
  · exact h.raise (by decide)
  · unfold writeCode
    split
    · exact h.raise (by decide)
    · exact (Keeps.writeBits writeBit_running _ s h).andThen fun _ _ h1 => h1.setCnt _

/-! ### The unpacker -/

theorem openSource_running {s : State p} (h : Running e false s) :
    (openSource s).Ends (Running e false) (Raised e) := by
  unfold openSource
  split
  · have hin : (s.env.apply (.srcOpen true)).PosInside := by simp [Env.PosInside]
    exact ⟨h.inv.of_unpackerFrame h.live ⟨rfl, rfl, rfl, rfl, rfl, rfl, by simp, by simp, by simp, by simp⟩ (by simp)
      (by simp) hin (by simp) h.inv.resSentinel, h.live, nofun, h.inside.event hin⟩
  · exact h.port.raise (by decide)

/-- Delivering a bit only takes it off the buffer (R127). -/
theorem deliverBit_running : Keeps (Running e o) (Raised e) deliverBit := fun s h => by
  rcases deliverBit_cases s with ⟨_, eq⟩ | ⟨_, eq⟩ <;> rw [eq]
  · exact h.raise (by decide)
  · refine ⟨h.inv.of_unpackerFrame h.live ⟨rfl, rfl, rfl, rfl, rfl, rfl, rfl, rfl, rfl, rfl⟩ h.inv.sourceAttached
      (fun hc => ?_) h.inv.posInside (fun he => ⟨?_, (h.inv.eosAtEnd he).2⟩) h.inv.resSentinel, h.live, h.isOpen,
      h.inside⟩
    · simp [h.inv.closedEmpty hc]
    · simp [(h.inv.eosAtEnd he).1]

/-- Fetching a byte takes it off the source, which is not at its end (R64, R127). -/
theorem fetch_running {s : State p} {b : Byte} (h : Running e true s) (heos : s.r.eos = false)
    (ha : s.env.src.fetchAnswer = .byte b) :
    Running e true ((s.port (.srcFetch (.byte b))).setR { s.r with buf := b, rem := 8 }) := by
  obtain ⟨hlt, _⟩ := List.getElem?_eq_some_iff.mp (fetchAnswer_byte ha)
  have hin : (s.env.apply (.srcFetch (.byte b))).PosInside := hlt
  have hopen := h.isOpen rfl
  exact ⟨h.inv.of_unpackerFrame h.live ⟨rfl, rfl, rfl, rfl, rfl, rfl, by simp, by simp, by simp, by simp⟩
    (by simpa using h.inv.sourceAttached) (by simp [hopen]) hin (by simp [heos]) h.inv.resSentinel, h.live,
    h.isOpen, h.inside.event hin⟩

/-- The sentinel is returned at the end of the source, with no bit left (R127). -/
theorem sentinel_running {s : State p} (h : Running e true s) (hrem : s.r.rem = 0)
    (ha : s.env.src.fetchAnswer = .endOfSource) :
    Running e true ((s.port (.srcFetch .endOfSource)).setR { s.r with eos := true }) := by
  have hend : s.env.src.pos = s.env.src.data.length :=
    le_antisymm h.inv.posInside (List.getElem?_eq_none_iff.mp (fetchAnswer_end ha))
  exact ⟨h.inv.of_unpackerFrame h.live ⟨rfl, rfl, rfl, rfl, rfl, rfl, by simp, by simp, by simp, by simp⟩
    (by simpa using h.inv.sourceAttached) h.inv.closedEmpty h.inv.posInside (fun _ => ⟨hrem, hend⟩)
    h.inv.resSentinel, h.live, h.isOpen, h.inside.still⟩

theorem readBit_running : Keeps (Running e true) (Raised e) readBit := fun s h => by
  rcases readBit_cases s with ⟨_, eq⟩ | ⟨_, _, eq⟩ | ⟨_, _, _, eq⟩ | ⟨_, hrem, ha, eq⟩ | ⟨b, heos, _, ha, eq⟩ <;>
    rw [eq]
  · exact h
  · exact deliverBit_running s h
  · exact h.port.raise (by decide)
  · exact sentinel_running h hrem ha
  · exact deliverBit_running _ (fetch_running h heos ha)

theorem bitResult_sentinel (r : Option Bool) : (bitResult r).getLsbD 8 = true → bitResult r = 0x100#9 := by
  rcases r with _ | _ | _ <;> decide

theorem byteResult_sentinel (r : Option Byte) : (byteResult r).getLsbD 8 = true → byteResult r = 0x100#9 := by
  cases r with
  | none => exact fun _ => rfl
  | some v => simp [byteResult]

/-- RES takes a value or the sentinel (R25). -/
theorem Running.setRes {s : State p} (h : Running e true s) {v : BitVec 9} (hv : v.getLsbD 8 = true → v = 0x100#9) :
    Running e true (s.setRes v) :=
  ⟨h.inv.of_unpackerFrame h.live ⟨rfl, rfl, rfl, rfl, rfl, rfl, rfl, rfl, rfl, rfl⟩ h.inv.sourceAttached
    h.inv.closedEmpty h.inv.posInside h.inv.eosAtEnd hv, h.live, h.isOpen, h.inside⟩

theorem readBitToRes_running : Keeps (Running e true) (Raised e) readBitToRes := fun s h =>
  (readBit_running s h).andThen fun r _ h1 => h1.setRes (bitResult_sentinel r)

theorem readByteToRes_running : Keeps (Running e true) (Raised e) readByteToRes := fun s h =>
  (Keeps.readByte readBit_running s h).andThen fun r _ h1 => h1.setRes (byteResult_sentinel r)

theorem releaseSource_running {s : State p} (h : Running e false s) : Running e false (releaseSource s) :=
  ⟨h.inv.of_unpackerFrame h.live ⟨rfl, rfl, rfl, rfl, rfl, rfl, rfl, rfl, by simp [releaseSource],
    by simp [releaseSource]⟩ (by simp [releaseSource]) (fun _ => rfl) h.inv.posInside
    (fun he => ⟨rfl, (h.inv.eosAtEnd he).2⟩) h.inv.resSentinel, h.live, nofun,
    h.inside.still (ev := .srcRelease)⟩

/-! ### The memories -/

theorem beginLoad_running {s : State p} (h : Running e o s) : Running e o (beginLoad s) :=
  (h.setMem (clearMemory_wf s)).setCtl _

theorem beginDeser_running {s : State p} (h : Running e o s) : Running e o (beginDeser s) :=
  (h.setMem (clearMemory_wf s)).setCtl _

theorem accept_memoryFrame {tok : Token} {s t : State p} (h : accept tok s = .ok t ()) : MemoryFrame s t := by
  rcases accept_cases tok s with eq | ⟨_, _, _, eq⟩ | ⟨_, v, _, eq⟩ <;> rw [eq] at h <;> cases h
  · exact ⟨rfl, rfl, rfl, rfl, rfl, rfl, rfl⟩
  · unfold afterTree
    split <;> exact ⟨rfl, rfl, rfl, rfl, rfl, rfl, rfl⟩

/-- A token is refused for want of room only, on the unchanged state (R172, R268). -/
theorem accept_raise {tok : Token} {x : FaultCode} {s t : State p} (h : accept tok s = .raise x t) :
    x = .treeOvf ∧ t = s := by
  rcases accept_cases tok s with eq | ⟨_, _, _, eq⟩ | ⟨_, v, _, eq⟩ <;> rw [eq] at h <;> cases h
  exact ⟨rfl, rfl⟩

theorem accept_running (tok : Token) : Keeps (Running e o) (Raised e) (accept tok) := fun s h => by
  cases ha : accept tok s with
  | ok t a => exact h.memory (accept_memoryFrame ha) (accept_wf ha h.inv.memory)
  | raise x t =>
    obtain ⟨rfl, rfl⟩ := accept_raise ha
    exact h.raise (by decide)

theorem deserTree_running (n : Nat) {s : State p} (h : Running e true s) :
    (deserLoop n (beginDeser s)).Ends (Running e true) (Raised e) :=
  Keeps.deserLoop readBit_running accept_running (fun _ h1 => h1.raise (by decide)) n _ (beginDeser_running h)

theorem cmapLeaf_running (v : Byte) : Keeps (Running e o) (Raised e) (cmapLeaf v) := fun s h => by
  rcases cmapLeaf_cases v s with ⟨_, _, eq⟩ | ⟨_, _, eq⟩ | ⟨_, _, _, _, eq⟩ <;> rw [eq]
  · exact h.raise (by decide)
  · exact h.setMem (cmapLeaf_wf eq h.inv.memory)
  · exact (h.setMem (cmapLeaf_wf eq h.inv.memory)).setCtl _

theorem buildCodes_running : Keeps (Running e o) (Raised e) buildCodes := fun s h => by
  obtain ⟨htm, hcm⟩ := (Memory.wf_iff _).mp h.inv.memory
  unfold buildCodes
  split
  · exact h.setMem ((Memory.wf_iff _).mpr ⟨htm, cmSorted_insert _ _ _ hcm⟩)
  · exact Keeps.cmapScan (fun _ h1 => (h1.setMem (cmapInternal_wf h1.inv.memory)).setCtl _) cmapLeaf_running _ _
      ((h.setMem (beginWalk_wf h.inv.memory)).setCtl _)

theorem buildCodeMap_running : Keeps (Running e o) (Raised e) buildCodeMap := fun _ h =>
  (buildCodes_running _ ((h.setMem (clearCodeMap_wf h.inv.memory)).setCtl _)).andThen fun _ _ h1 => h1.setCtl _

/-! ### The decoder -/

theorem symEmit_running (b : Byte) : Keeps (Running e o) (Raised e) (symEmit b) := fun s h => by
  rcases symEmit_cases b s with ⟨_, eq⟩ | ⟨_, _, eq⟩ | ⟨_, _, eq⟩ <;> rw [eq]
  · exact h.raise (by decide)
  · exact h.port.setCnt _
  · exact h.port.raise (by decide)

theorem payloadStep_running (b : Bool) : Keeps (Running e o) (Raised e) (payloadStep b) :=
  Keeps.payloadStep symEmit_running (fun _ _ h => h.setCtl _) b

theorem runDecoder_running : Keeps (Running e true) (Raised e) runDecoder := fun _ h =>
  Keeps.decodeLoop readBit_running symEmit_running (fun _ _ h1 => h1.setCtl _) (fun _ _ h1 => h1.setCtl _)
    (fun _ h1 => h1.raise (by decide)) _ _ ((h.setCnt _).setCtl _)

/-! ### Whole commands -/

/-- A command whose checks need no open source. -/
theorem Running.require {s : State p} (h : Running e false s) {c : Bool} {x : FaultCode} (hx : x ≠ .none)
    {body : State p → Micro p Unit} (hb : Keeps (Running e false) (Raised e) body) :
    (Machine.require c x body s).Ends (Running e false) (Raised e) :=
  .require (h.raise hx) fun _ => hb s h

/-- A command whose first check is the open source (R274 (4)). -/
theorem Running.requireSource {s : State p} (h : Running e false s) {body : State p → Micro p Unit}
    (hb : Keeps (Running e true) (Raised e) body) :
    (Machine.require s.r.isOpen .notOpen body s).Ends (Running e false) (Raised e) :=
  .require (h.raise (by decide)) fun hopen =>
    (hb s ⟨h.inv, h.live, fun _ => hopen, h.inside⟩).mono (fun _ k => ⟨k.inv, k.live, nofun, k.inside⟩) fun _ _ k => k

theorem Running.requireTree {s : State p} (h : Running e o s) {body : State p → Micro p Unit}
    (hb : Keeps (Running e o) (Raised e) body) :
    (Machine.require s.ctl.treeValid .noTree body s).Ends (Running e o) (Raised e) :=
  .require (h.raise (by decide)) fun _ => hb s h

theorem acceptUnlessDone_running (tok : Token) :
    Keeps (Running e o) (Raised e) fun s : State p => if s.ctl.treeValid then .ok s () else accept tok s := fun s h => by
  dsimp only
  split
  · exact h
  · exact accept_running tok s h

end

/-- What a command's pseudocode keeps, the command keeps, also when it is dropped or faults. -/
theorem command_inv {i : Instr} {body : State p → Micro p Unit} {s t : State p} (h : command i body s = .next t)
    (hi : Inv s) (hb : Running s.env false s → (body s).Ends (Running s.env false) (Raised s.env)) :
    Inv t ∧ InsideTransfers s.env t.env := by
  have start : InsideTransfers s.env s.env := .refl hi.posInside
  refine command_ends (P := fun t => Inv t ∧ InsideTransfers s.env t.env) h (fun _ => ⟨hi, start⟩) fun hlive => ?_
  exact (hb ⟨hi, hlive, nofun, start⟩).mono (fun _ k => ⟨k.inv, k.inside⟩)
    fun x u k => ⟨k.closable.raiseFault k.code _, raiseFault_inside x _ k.inside⟩

/-- Every instruction keeps the invariant, and its transfers stay inside the source. -/
theorem exec_inv {i : Instr} {s t : State} (h : exec i s = .next t) (hi : Inv s) :
    Inv t ∧ InsideTransfers s.env t.env := by
  cases i with
  | reset => cases h; exact ⟨resetBlock_inv hi.posInside, resetBlock_inside (.refl hi.posInside)⟩
  | openw => exact command_inv h hi fun k => k.require (by decide) openSink_running
  | wbit opd => exact command_inv h hi fun k => k.require (by decide) (writeBit_running _)
  | wbyte v => exact command_inv h hi fun k => k.require (by decide) (Keeps.writeBits writeBit_running _)
  | flush => exact command_inv h hi fun k => k.require (by decide) flushPacker_running
  | closew => exact command_inv h hi fun k => k.require (by decide) flushAndRelease_running
  | openr => exact command_inv h hi fun k => k.require (by decide) fun _ => openSource_running
  | rbit => exact command_inv h hi fun k => k.requireSource readBitToRes_running
  | rbyte => exact command_inv h hi fun k => k.requireSource readByteToRes_running
  | closer => exact command_inv h hi fun k => k.require (by decide) fun _ => releaseSource_running
  | tbegin => exact command_inv (i := .tbegin) (body := fun s => .ok (beginLoad s) ()) h hi beginLoad_running
  | tnode => exact command_inv h hi fun k => k.require (by decide) (accept_running _)
  | tleaf v => exact command_inv h hi fun k => k.require (by decide) (accept_running _)
  | ser =>
    exact command_inv h hi fun k =>
      .require (k.raise (by decide)) fun _ => k.requireTree (Keeps.serTree writeBit_running)
  | deser => exact command_inv h hi fun k => k.requireSource fun _ => deserTree_running _
  | cmap => exact command_inv h hi fun k => k.requireTree buildCodeMap_running
  | enc v => exact command_inv h hi fun k => k.require (by decide) (encodeByte_running v)
  | decode => exact command_inv h hi fun k => k.requireSource fun _ k1 => k1.requireTree runDecoder_running
  | leaf v => exact command_inv h hi fun k => k.require (by decide) (acceptUnlessDone_running _)
  | internal => exact command_inv h hi fun k => k.require (by decide) (acceptUnlessDone_running _)
  | left => exact command_inv h hi fun k => k.requireSource fun _ k1 => k1.requireTree (payloadStep_running _)
  | right => exact command_inv h hi fun k => k.requireSource fun _ k1 => k1.requireTree (payloadStep_running _)

theorem takeWord_inv {w : CmdWord} {s t : State} (h : takeWord w s = .next t) (hi : Inv s) :
    Inv t ∧ InsideTransfers s.env t.env := by
  have start : InsideTransfers s.env s.env := .refl hi.posInside
  rcases takeWord_cases w s with ⟨_, e⟩ | ⟨i, _, e⟩ | ⟨_, e⟩ <;> rw [e] at h
  · cases h; exact ⟨hi, start⟩
  · exact exec_inv h hi
  · cases h; exact ⟨hi.closable.raiseFault (by decide) w, raiseFault_inside _ w start⟩

theorem takeInput_inv {i : HostInput} {s t : State} (h : takeInput i s = .next t) (hi : Inv s) : Inv t := by
  cases i with
  | command w =>
    obtain ⟨hinv, _⟩ := takeWord_inv h hi
    exact hinv
  | writeReg reg value =>
    obtain ⟨c, e⟩ := writeReg_cases s reg value
    cases h; rw [e]; exact hi.setCfg c
  | resetInput => cases h; exact resetBlock_inv hi.posInside
  | resetDuring w k =>
    obtain ⟨u, hu, e⟩ := resetDuring_eq w k s
    obtain ⟨_, inside⟩ := takeWord_inv hu hi
    rw [e] at h; cases h
    exact resetBlock_inv (inside.take_posInside k)
  | readReg | offerSink | offerSource | attachSym => cases h; exact hi.setEnv rfl rfl rfl rfl

/-- Settles O56: the invariant holds between the micro-steps of every command, and fault entry and reset establish
it. -/
theorem stepKeepsInv : Obligations.StepKeepsInv := by
  unfold Obligations.StepKeepsInv
  intro s t hi h
  cases hin : s.env.inputs with
  | nil => rw [step_idle hin] at h; cases h; exact hi
  | cons i rest => rw [step_take hin] at h; exact takeInput_inv h (hi.setEnv rfl rfl rfl rfl)

end Sys2Proof.Machine
end

section
/-! The tree being accepted (10_state.md R26, R28; 42_tree_serdes.md R172): the nodes on the way to the next node are
always as the acceptor leaves them, until the last leaf completes the tree. -/

namespace Sys2Proof.Machine

variable {p : Params}

/-! ### One node more on the way -/

theorem pathEntries_inLeft (path : List PathNode) (base : Nat) :
    (pathEntries base (path ++ [.inLeft]) : List (TmEntry p)) = pathEntries base path ++ [.int none] := by
  induction path generalizing base with
  | nil => rfl
  | cons n path ih => cases n <;> simp [pathEntries, ih]

theorem pathStack_inLeft (path : List PathNode) (base : Nat) :
    (pathStack base (path ++ [.inLeft]) : List (Index p)) =
      BitVec.ofNat p.idxW (base + (pathEntries base path : List (TmEntry p)).length) :: pathStack base path := by
  induction path generalizing base with
  | nil => rfl
  | cons n path ih => cases n <;> simp [pathEntries, pathStack, ih, Nat.add_assoc, Nat.add_comm]

theorem pathEntries_inRight (path : List PathNode) (base : Nat) (l : Tree) :
    (pathEntries base (path ++ [.inRight l]) : List (TmEntry p)) = pathEntries base path ++
      .int (some (BitVec.ofNat p.idxW (base + (pathEntries base path : List (TmEntry p)).length + 1 + l.size))) ::
        layout (base + (pathEntries base path : List (TmEntry p)).length + 1) l p := by
  induction path generalizing base with
  | nil => simp [pathEntries]
  | cons n path ih => cases n <;> simp [pathEntries, ih, Nat.add_assoc, Nat.add_comm, Nat.add_left_comm]

theorem pathStack_inRight (path : List PathNode) (base : Nat) (l : Tree) :
    (pathStack base (path ++ [.inRight l]) : List (Index p)) = pathStack base path := by
  induction path generalizing base with
  | nil => rfl
  | cons n path ih => cases n <;> simp [pathStack, ih]

/-- A subtree is complete behind the nodes on the way. With no node waiting for its right subtree the whole tree is
complete; otherwise the most recent one has its left subtree now, and its right subtree starts behind it. Going up from
the last node, those whose right subtree this completes become part of the subtree. -/
theorem pathEntries_complete (path : List PathNode) (t : Tree)
    (hcap : (pathEntries 0 path : List (TmEntry p)).length + t.size ≤ p.nodeCap) :
    ((pathStack 0 path : List (Index p)) = [] →
      ∃ t', pathEntries 0 path ++ layout (pathEntries 0 path : List (TmEntry p)).length t p = layout 0 t' p) ∧
    (∀ q rest, (pathStack 0 path : List (Index p)) = q :: rest → ∃ path',
      setRight q.toNat (BitVec.ofNat p.idxW ((pathEntries 0 path : List (TmEntry p)).length + t.size))
        (pathEntries 0 path ++ layout (pathEntries 0 path : List (TmEntry p)).length t p) = pathEntries 0 path' ∧
      rest = pathStack 0 path') := by
  induction path using List.reverseRecOn generalizing t with
  | nil => exact ⟨fun _ => ⟨t, rfl⟩, nofun⟩
  | append_singleton path n ih =>
    cases n with
    | inLeft =>
      refine ⟨fun h => by simp [pathStack_inLeft] at h, fun q rest h => ⟨path ++ [.inRight t], ?_, ?_⟩⟩
      · simp only [pathStack_inLeft, Nat.zero_add, List.cons.injEq] at h
        simp only [pathEntries_inLeft, List.length_append, List.length_singleton] at hcap ⊢
        have hq : q.toNat = (pathEntries 0 path : List (TmEntry p)).length := by
          rw [← h.1]; exact index_toNat (by omega)
        rw [List.append_assoc, List.singleton_append, setRight_waiting _ _ _ _ hq, pathEntries_inRight, Nat.zero_add]
      · simp only [pathStack_inLeft, List.cons.injEq] at h
        rw [pathStack_inRight, h.2]
    | inRight l =>
      have key := ih (.node l t) (by simp [pathEntries_inRight, Tree.size] at hcap ⊢; omega)
      have hlay : (pathEntries 0 (path ++ [.inRight l]) : List (TmEntry p)) ++
          layout (pathEntries 0 (path ++ [.inRight l]) : List (TmEntry p)).length t p =
            pathEntries 0 path ++ layout (pathEntries 0 path : List (TmEntry p)).length (.node l t) p := by
        simp [pathEntries_inRight, layout, Nat.add_assoc, Nat.add_comm 1]
      have hlen : (pathEntries 0 (path ++ [.inRight l]) : List (TmEntry p)).length + t.size =
          (pathEntries 0 path : List (TmEntry p)).length + (Tree.node l t).size := by
        simp [pathEntries_inRight, Tree.size]; omega
      rw [hlay, hlen, pathStack_inRight]
      exact key

/-! ### A tree being built, and one that is complete -/

/-- A tree is being accepted into TM, by a load or by DESER; no code map is there (R172, R173, R177). -/
structure Building (s : State p) : Prop where
  tmCap : s.mem.tm.length ≤ p.nodeCap
  stkCap : s.mem.stk.length ≤ p.stackCap
  accepting : Accepting s.mem
  noTree : s.ctl.treeValid = false
  noMap : s.ctl.cmapValid = false
  noCodes : s.mem.cm = []

/-- The tree has just been completed (R172). -/
structure Built (s : State p) : Prop where
  tmCap : s.mem.tm.length ≤ p.nodeCap
  stkEmpty : s.mem.stk = []
  tree : ∃ t, HoldsTree s.mem t
  treeValid : s.ctl.treeValid = true
  noLoad : s.ctl.tload = false
  noMap : s.ctl.cmapValid = false
  noCodes : s.mem.cm = []

/-- A token goes on with the tree, or it is the last one and the tree is complete (R172). -/
theorem accept_building {tok : Token} {s t : State p} (h : Building s) (ha : accept tok s = .ok t ()) :
    Building t ∧ t.ctl = s.ctl ∨ Built t := by
  obtain ⟨path, htm, hstk⟩ := h.accepting
  rcases accept_cases tok s with e | ⟨hn, hs, _, e⟩ | ⟨hn, v, _, e⟩ <;> rw [e] at ha <;> cases ha
  · have hn' := lt_of_le_of_ne h.tmCap hn
    have hs' := lt_of_le_of_ne h.stkCap hs
    refine .inl ⟨⟨?_, ?_, ⟨path ++ [.inLeft], ?_, ?_⟩, h.noTree, h.noMap, h.noCodes⟩, rfl⟩
    · simpa [afterInternal] using hn'
    · simpa [afterInternal] using hs'
    · simp [afterInternal, htm, pathEntries_inLeft]
    · simp [afterInternal, State.nn, htm, hstk, pathStack_inLeft]
  · have hn' : s.mem.tm.length + 1 ≤ p.nodeCap := lt_of_le_of_ne h.tmCap hn
    obtain ⟨hdone, hon⟩ := pathEntries_complete (p := p) path (.leaf v) (by rw [← htm]; exact hn')
    rw [← htm, ← hstk] at hdone hon
    unfold afterTree
    split
    next hnil =>
      refine .inr ⟨?_, hnil, hdone hnil, rfl, rfl, h.noMap, h.noCodes⟩
      simpa [layout] using hn'
    next q rest hcons =>
      obtain ⟨path', htm', hstk'⟩ := hon q rest hcons
      refine .inl ⟨⟨?_, ?_, ⟨path', htm', hstk'⟩, h.noTree, h.noMap, h.noCodes⟩, rfl⟩
      · simpa [layout] using hn'
      · have := h.stkCap
        rw [hcons, List.length_cons] at this
        exact Nat.le_of_succ_le this

end Sys2Proof.Machine
end

section
/-! The code map that CMAP builds (10_state.md R28, R29; 43_codemap.md R201, R202): it answers as the tree's codes do,
and no code and no walk is longer than a tree that fits TM allows, also where a repeated value ends the walk. -/

namespace Sys2Proof.Machine

variable {p : Params}

/-- What is recorded without a repeated value is looked up as in the list of the records (R200, R204). -/
theorem recordAll_lookup {es cm cm' : List (Byte × List Bool)} (h : recordAll es cm = some cm') (v : Byte) :
    cmLookup v cm' = (cmLookup v cm).or (es.lookup v) := by
  induction es generalizing cm with
  | nil => cases h; simp
  | cons e es ih =>
    obtain ⟨k, c⟩ := e
    rw [recordAll] at h
    split at h
    next => cases h
    next hk =>
      rw [ih h]
      by_cases hv : k = v
      · subst hv; simp [cmLookup_insert_self, hk]
      · simp [cmLookup_insert_other c cm hv, List.lookup, beq_eq_false_iff_ne.mpr (Ne.symm hv)]

/-- Every code is 1 to `n` bits long (R29). -/
def CodesWithin (n : Nat) (cm : List (Byte × List Bool)) : Prop := ∀ e ∈ cm, 1 ≤ e.2.length ∧ e.2.length ≤ n

theorem CodesWithin.insert {n : Nat} {cm : List (Byte × List Bool)} (h : CodesWithin n cm) (v : Byte) {c : List Bool}
    (hc : 1 ≤ c.length ∧ c.length ≤ n) : CodesWithin n (cmInsert v c cm) := by
  induction cm with
  | nil => simpa [cmInsert, CodesWithin] using hc
  | cons e cm ih =>
    obtain ⟨k, d⟩ := e
    obtain ⟨hd, hcm⟩ := List.forall_mem_cons.mp h
    unfold cmInsert
    split
    · exact List.forall_mem_cons.mpr ⟨hc, h⟩
    · split
      · exact List.forall_mem_cons.mpr ⟨hc, hcm⟩
      · exact List.forall_mem_cons.mpr ⟨hd, ih hcm⟩

/-- The walk of a tree of height `h` at the path so far: codes and stack stay within `n`. -/
structure WalkWithin (n h : Nat) (s : State p) : Prop where
  codes : CodesWithin n s.mem.cm
  path : s.ctl.path.length + h ≤ n
  stack : s.mem.stk.length + h ≤ n

/-- After a left subtree the scan goes right: the stack and the path are those of the node, one choice further
(R201). -/
theorem cmapScan_left {l : Tree} {base : Nat} {s u : State p} (hp : s.ctl.path.length + 1 + l.height ≤ p.nodeCap)
    (h : cmapScan (layout base l p) (cmapInternal s) = .ok u ()) :
    u.mem.stk = s.mem.stk ∧ u.ctl.path = s.ctl.path ++ [true] := by
  have hlen := index_toNat (p := p) (by omega : s.ctl.path.length < p.nodeCap)
  obtain ⟨hok, hdup⟩ := cmapScan_layout (p := p) l base (cmapInternal s)
    (fun d rest hcons => by
      rw [← (List.cons.inj hcons).1, hlen]; simp [cmapInternal])
    (by simpa [cmapInternal] using hp)
  cases hrec : recordAll (walk l (cmapInternal s).ctl.path) (cmapInternal s).mem.cm with
  | none =>
    obtain ⟨_, _, _, e⟩ := hdup hrec
    rw [e] at h; cases h
  | some cm =>
    rw [hok cm hrec] at h
    cases h
    simp only [afterWalk, cmapInternal, State.setCtl_mem, State.setMem_mem, State.setCtl_ctl, hlen]
    simp

/-- CMAP's scan over a tree, where it is not the root alone, leaves codes and stack within the bound, also when it
faults (R201, R204). -/
theorem cmapScan_within {n : Nat} (hn : n ≤ p.nodeCap) (t : Tree) (base : Nat) (s : State p)
    (hw : WalkWithin n t.height s) (hroot : 1 ≤ s.ctl.path.length + t.height) :
    CodesWithin n (cmapScan (layout base t p) s).endState.mem.cm ∧
      (cmapScan (layout base t p) s).endState.mem.stk.length ≤ n := by
  induction t generalizing base s with
  | leaf v =>
    obtain ⟨hcm, hpath, hstk⟩ := hw
    simp only [layout, cmapScan]
    rcases cmapLeaf_cases v s with ⟨_, _, e⟩ | ⟨_, _, e⟩ | ⟨d, rest, _, hcons, e⟩ <;> rw [e]
    · exact ⟨hcm, hstk⟩
    · exact ⟨hcm.insert v ⟨hroot, hpath⟩, hstk⟩
    · rw [hcons] at hstk
      exact ⟨hcm.insert v ⟨hroot, hpath⟩, Nat.le_of_succ_le hstk⟩
  | node l r hl hr =>
    obtain ⟨hcm, hpath, hstk⟩ := hw
    simp only [Tree.height] at hpath hstk
    have left := hl (base + 1) (cmapInternal s)
      ⟨hcm, by simp [cmapInternal]; omega, by simp [cmapInternal]; omega⟩ (by simp [cmapInternal]; omega)
    simp only [layout, cmapScan, cmapScan_append]
    cases h : cmapScan (layout (base + 1) l p) (cmapInternal s) with
    | raise x u => rw [h] at left; exact left
    | ok u a =>
      rw [h] at left
      obtain ⟨hstk', hpath'⟩ := cmapScan_left (by omega) h
      exact hr _ u ⟨left.1, by simp [hpath']; omega, by rw [hstk']; omega⟩ (by simp [hpath']; omega)

end Sys2Proof.Machine
end

section
/-! The tree invariant is kept by every step (10_state.md R26 to R29, R38, R79): only the tree commands, DESER and CMAP
write what it speaks of, and the table of write sets says so of the others. -/

namespace Sys2Proof.Machine

variable {p : Params}

/-! ### What fault entry needs -/

/-- The tree invariant without what it says of the stack and the load of a block that is not faulted. -/
structure TreeSafe (s : State p) : Prop where
  tmCap : s.mem.tm.length ≤ p.nodeCap
  stkCap : s.mem.stk.length ≤ p.stackCap
  validTree : s.ctl.treeValid = true → ∃ t, HoldsTree s.mem t
  codesOfTree : s.ctl.cmapValid = true → s.ctl.treeValid = true ∧ ∀ t, HoldsTree s.mem t → HoldsCodes s.mem t
  codeLengths : CodesWithin p.codeMax s.mem.cm

theorem TreeInv.safe {s : State p} (h : TreeInv s) : TreeSafe s :=
  ⟨h.tmCap, h.stkCap, fun hv => (h.validTree hv).2, h.codesOfTree, h.codeLengths⟩

/-- Fault entry ends a load and leaves the memories (R275). -/
theorem TreeSafe.raiseFault {s : State p} (h : TreeSafe s) (x : FaultCode) (w : CmdWord) :
    TreeInv (raiseFault x w s) where
  tmCap := by simpa using h.tmCap
  stkCap := by simpa using h.stkCap
  validTree := by simpa using h.validTree
  loading := by simp
  stackEmpty := by simp
  codesOfTree := by simpa using h.codesOfTree
  noStaleCodes := by simp
  codeLengths := by rw [raiseFault_mem]; exact h.codeLengths

/-- After reset there is no tree, no load and no code map (R49). -/
theorem resetBlock_treeInv (s : State p) : TreeInv (resetBlock s) where
  tmCap := Nat.zero_le _
  stkCap := Nat.zero_le _
  validTree := nofun
  loading := nofun
  stackEmpty := fun _ _ => rfl
  codesOfTree := nofun
  noStaleCodes := fun _ _ => rfl
  codeLengths := nofun

/-! ### What does not concern it -/

/-- The parts of the state that the tree invariant speaks of. -/
def treeParts : List Part := [.tm, .stk, .cm, .tload, .treeValid, .cmapValid, .flt]

theorem KeepsBut.tree {ws : List Part} {s t : State p} (k : KeepsBut ws s t) (hws : ∀ x ∈ treeParts, x ∉ ws) :
    t.mem = s.mem ∧ t.ctl.tload = s.ctl.tload ∧ t.ctl.treeValid = s.ctl.treeValid ∧
      t.ctl.cmapValid = s.ctl.cmapValid ∧ t.flt = s.flt := by
  have same : ∀ x ∈ treeParts, x.Same s t := fun x hx => k x (hws x hx)
  have htm : t.mem.tm = s.mem.tm := same .tm (by decide)
  have hstk : t.mem.stk = s.mem.stk := same .stk (by decide)
  have hcm : t.mem.cm = s.mem.cm := same .cm (by decide)
  have hmem : t.mem = s.mem := (Memory.mk.injEq ..).mpr ⟨htm, hstk, hcm⟩
  exact ⟨hmem, same .tload (by decide), same .treeValid (by decide), same .cmapValid (by decide),
    same .flt (by decide)⟩

theorem TreeInv.of_keepsBut {ws : List Part} {s t : State p} (h : TreeInv s) (k : KeepsBut ws s t)
    (hws : ∀ x ∈ treeParts, x ∉ ws) : TreeInv t := by
  obtain ⟨hmem, hload, hvalid, hmap, hflt⟩ := k.tree hws
  exact {
    tmCap := by rw [hmem]; exact h.tmCap
    stkCap := by rw [hmem]; exact h.stkCap
    validTree := by rw [hmem, hvalid, hload]; exact h.validTree
    loading := by rw [hmem, hload]; exact h.loading
    stackEmpty := by rw [hmem, hload, hflt]; exact h.stackEmpty
    codesOfTree := by rw [hmem, hvalid, hmap]; exact h.codesOfTree
    noStaleCodes := by rw [hmem, hmap, hflt]; exact h.noStaleCodes
    codeLengths := by rw [hmem]; exact h.codeLengths }

theorem Building.of_keepsBut {ws : List Part} {s t : State p} (h : Building s) (k : KeepsBut ws s t)
    (hws : ∀ x ∈ treeParts, x ∉ ws) : Building t := by
  obtain ⟨hmem, _, hvalid, hmap, _⟩ := k.tree hws
  exact {
    tmCap := by rw [hmem]; exact h.tmCap
    stkCap := by rw [hmem]; exact h.stkCap
    accepting := by rw [hmem]; exact h.accepting
    noTree := hvalid.trans h.noTree
    noMap := hmap.trans h.noMap
    noCodes := by rw [hmem]; exact h.noCodes }

/-! ### Loading and reading a tree -/

theorem Building.safe {s : State p} (h : Building s) : TreeSafe s where
  tmCap := h.tmCap
  stkCap := h.stkCap
  validTree := by simp [h.noTree]
  codesOfTree := by simp [h.noMap]
  codeLengths := by simp [h.noCodes, CodesWithin]

/-- During a load (R173 to R175). -/
theorem Building.treeInv {s : State p} (h : Building s) (hload : s.ctl.tload = true) : TreeInv s where
  tmCap := h.tmCap
  stkCap := h.stkCap
  validTree := by simp [h.noTree]
  loading := fun _ => h.accepting
  stackEmpty := by simp [hload]
  codesOfTree := by simp [h.noMap]
  noStaleCodes := fun _ _ => h.noCodes
  codeLengths := by simp [h.noCodes]

theorem Built.treeInv {s : State p} (h : Built s) : TreeInv s where
  tmCap := h.tmCap
  stkCap := by simp [h.stkEmpty]
  validTree := fun _ => ⟨h.noLoad, h.tree⟩
  loading := by simp [h.noLoad]
  stackEmpty := fun _ _ => h.stkEmpty
  codesOfTree := by simp [h.noMap]
  noStaleCodes := fun _ _ => h.noCodes
  codeLengths := by simp [h.noCodes]

/-- A load in progress has no tree and no code map yet (R27, R79). -/
theorem TreeInv.building {s : State p} (h : TreeInv s) (hlive : s.flt.faulted = false) (hload : s.ctl.tload = true) :
    Building s := by
  have noTree : s.ctl.treeValid = false := by
    cases hv : s.ctl.treeValid with
    | false => rfl
    | true =>
      obtain ⟨hno, _⟩ := h.validTree hv
      rw [hload] at hno; cases hno
  have noMap : s.ctl.cmapValid = false := by
    cases hm : s.ctl.cmapValid with
    | false => rfl
    | true =>
      obtain ⟨hv, _⟩ := h.codesOfTree hm
      rw [noTree] at hv; cases hv
  exact ⟨h.tmCap, h.stkCap, h.loading hload, noTree, noMap, h.noStaleCodes hlive noMap⟩

theorem beginLoad_building (s : State p) : Building (beginLoad s) :=
  ⟨Nat.zero_le _, Nat.zero_le _, ⟨[], rfl, rfl⟩, rfl, rfl, rfl⟩

theorem beginDeser_building (s : State p) : Building (beginDeser s) :=
  ⟨Nat.zero_le _, Nat.zero_le _, ⟨[], rfl, rfl⟩, rfl, rfl, rfl⟩

/-- TNODE and TLEAF (R174, R175). -/
theorem accept_treeInv {s : State p} (tok : Token) (h : TreeInv s) (hlive : s.flt.faulted = false)
    (hload : s.ctl.tload = true) : (accept tok s).Ends TreeInv fun _ => TreeSafe := by
  have hb := h.building hlive hload
  cases ha : accept tok s with
  | ok t a =>
    rcases accept_building hb ha with ⟨hbt, hctl⟩ | hbt
    · exact hbt.treeInv (by rw [hctl]; exact hload)
    · exact hbt.treeInv
  | raise x t =>
    obtain ⟨_, rfl⟩ := accept_raise ha
    exact h.safe

/-- DESER's loop, with more iterations than TM has room for (R177): it ends with the tree complete, or it faults. -/
theorem deserLoop_built (n : Nat) {s : State p} (h : Building s) (hfuel : p.nodeCap < s.nn + n) :
    (deserLoop n s).Ends Built fun _ => TreeSafe := by
  induction n generalizing s with
  | zero => exact absurd h.tmCap (by simpa [State.nn] using hfuel)
  | succ n ih =>
    rw [deserLoop, if_neg (by simp [h.noTree])]
    have hf := Keeps.fetchToken (readBit_writesOnly s) s (.refl _ s)
    cases hs : fetchToken s with
    | raise x s1 => rw [hs] at hf; exact (h.of_keepsBut hf (by decide)).safe
    | ok s1 o =>
      rw [hs] at hf
      have h1 := h.of_keepsBut hf (by decide)
      cases o with
      | none => exact h1.safe
      | some tok =>
        simp only [Micro.andThen_ok]
        cases ha : accept tok s1 with
        | raise x t =>
          obtain ⟨_, rfl⟩ := accept_raise ha
          exact h1.safe
        | ok t a =>
          have hnn : s1.nn = s.nn := by rw [State.nn, State.nn, fetchToken_mem hs]
          obtain ⟨hnext, _⟩ := accept_nn ha
          rcases accept_building h1 ha with ⟨hbt, _⟩ | hbt
          · exact ih hbt (by omega)
          · cases n with
            | zero => exact hbt
            | succ n => simpa [deserLoop, hbt.treeValid] using hbt

/-! ### The code map -/

theorem HoldsTree.unique {m : Memory p} (hcap : m.tm.length ≤ p.nodeCap) {t t' : Tree} (h : HoldsTree m t)
    (h' : HoldsTree m t') : t' = t :=
  layout_injective (by rw [← layout_length 0 t, ← h]; exact hcap) (h'.symm.trans h)

/-- A tree that fits TM is no higher than the longest code (R202). -/
theorem height_le_codeMax {t : Tree} (h : t.size ≤ p.nodeCap) : t.height ≤ p.codeMax := by
  have := t.height_lt
  unfold Params.codeMax
  omega

theorem buildCodes_leaf {s : State p} {v : Byte} (h : HoldsTree s.mem (.leaf v)) :
    buildCodes s = .ok (s.setMem { s.mem with cm := cmInsert v [true] s.mem.cm }) () := by
  obtain ⟨hleaf, hval⟩ := rootIsLeaf_leaf h
  unfold rootIsLeaf at hleaf
  rw [buildCodes, if_pos hleaf, hval]

theorem buildCodes_node {s : State p} {l r : Tree} (h : HoldsTree s.mem (.node l r)) :
    buildCodes s = cmapScan (layout 0 (.node l r) p) (beginWalk s) := by
  have hnode := rootIsLeaf_node h
  unfold rootIsLeaf at hnode
  rw [buildCodes, if_neg (by simp [hnode]), h]

/-- CMAP before it completes: CM is the code map of the tree in TM, and the stack is empty again; where it faults CM
and the stack are within their bounds (R201, R202, R204). -/
theorem buildCodes_codes {s : State p} {t : Tree} (hmax : 1 ≤ p.codeMax) (hcap : s.mem.tm.length ≤ p.nodeCap)
    (ht : HoldsTree s.mem t) (hcm : s.mem.cm = []) (hstk : s.mem.stk = []) :
    CodesWithin p.codeMax (buildCodes s).endState.mem.cm ∧ (buildCodes s).endState.mem.stk.length ≤ p.codeMax ∧
      ∀ u, buildCodes s = .ok u () → HoldsCodes u.mem t ∧ u.mem.stk = [] := by
  have hsize : t.size ≤ p.nodeCap := by rw [← layout_length 0 t, ← ht]; exact hcap
  have hheight := height_le_codeMax hsize
  cases t with
  | leaf v =>
    rw [buildCodes_leaf ht, hcm]
    refine ⟨by simpa [CodesWithin, cmInsert] using hmax, by simp [hstk], ?_⟩
    rintro u ⟨⟩
    exact ⟨recordAll_lookup (es := [(v, [true])]) (cm := []) rfl, hstk⟩
  | node l r =>
    obtain ⟨hcodes, hwalk⟩ := cmapScan_within (p := p) (n := p.codeMax) (by unfold Params.codeMax; omega) (.node l r) 0
      (beginWalk s)
      ⟨by simp [beginWalk, hcm, CodesWithin], by simpa [beginWalk] using hheight, by simpa [beginWalk] using hheight⟩
      (by simp [Tree.height]; omega)
    rw [buildCodes_node ht]
    refine ⟨hcodes, hwalk, fun u hu => ?_⟩
    obtain ⟨hok, hdup⟩ := cmapScan_layout (p := p) (.node l r) 0 (beginWalk s) nofun
      (by have := (Tree.node l r).height_lt; simp [beginWalk]; omega)
    cases hrec : recordAll (walk (.node l r) (beginWalk s).ctl.path) (beginWalk s).mem.cm with
    | none =>
      obtain ⟨_, _, _, e'⟩ := hdup hrec
      rw [e'] at hu; cases hu
    | some cm =>
      rw [hok cm hrec] at hu
      cases hu
      refine ⟨fun v => ?_, rfl⟩
      have key := recordAll_lookup hrec v
      rw [show (beginWalk s).mem.cm = [] from hcm] at key
      exact key

/-- CMAP (R201): it completes with the tree's code map, or faults without one. -/
theorem buildCodeMap_treeInv {s : State p} (hmax : 1 ≤ p.codeMax) (h : TreeInv s) (hlive : s.flt.faulted = false)
    (hvalid : s.ctl.treeValid = true) : (buildCodeMap s).Ends TreeInv fun _ => TreeSafe := by
  obtain ⟨hload, t, ht⟩ := h.validTree hvalid
  obtain ⟨hcodes, hstk, hok⟩ := buildCodes_codes (s := clearCodeMap s) hmax h.tmCap ht rfl (h.stackEmpty hlive hload)
  have kept := buildCodes_writesOnly.endState (clearCodeMap s)
  have htm : (buildCodes (clearCodeMap s)).endState.mem.tm = s.mem.tm := kept .tm (by decide)
  have hload' : (buildCodes (clearCodeMap s)).endState.ctl.tload = s.ctl.tload := kept .tload (by decide)
  have hvalid' : (buildCodes (clearCodeMap s)).endState.ctl.treeValid = s.ctl.treeValid := kept .treeValid (by decide)
  have hmap' : (buildCodes (clearCodeMap s)).endState.ctl.cmapValid = false := kept .cmapValid (by decide)
  unfold buildCodeMap
  cases hm : buildCodes (clearCodeMap s) with
  | raise x u =>
    rw [hm] at htm hload' hvalid' hmap' hcodes hstk
    exact ⟨(congrArg List.length htm).trans_le h.tmCap, hstk, fun _ => ⟨t, htm.trans ht⟩,
      fun hc => absurd (hmap'.symm.trans hc) (by decide), hcodes⟩
  | ok u a =>
    rw [hm] at htm hload' hvalid' hmap' hcodes hstk
    obtain ⟨hcm, hempty⟩ := hok u hm
    have htree : HoldsTree u.mem t := htm.trans ht
    exact {
      tmCap := (congrArg List.length htm).trans_le h.tmCap
      stkCap := hstk
      validTree := fun _ => ⟨hload'.trans hload, t, htree⟩
      loading := fun hl => absurd (hl.symm.trans (hload'.trans hload)) (by decide)
      stackEmpty := fun _ _ => hempty
      codesOfTree := fun _ => ⟨hvalid'.trans hvalid, fun t' ht' => by
        rw [HoldsTree.unique ((congrArg List.length htm).trans_le h.tmCap) htree ht']; exact hcm⟩
      noStaleCodes := fun _ hc => by simp [codeMapDone] at hc
      codeLengths := hcodes }

/-! ### Whole commands -/

theorem command_treeInv {i : Instr} {body : State p → Micro p Unit} {s t : State p} (h : command i body s = .next t)
    (hi : TreeInv s) (hb : s.flt.faulted = false → (body s).Ends TreeInv fun _ => TreeSafe) : TreeInv t :=
  command_ends h (fun _ => hi) fun hlive => (hb hlive).mono (fun _ k => k) fun x _ k => k.raiseFault x _

/-- A command that writes nothing of the tree, the stack, the code map or their flags (R79). -/
theorem command_treeInv_of_writesOnly {ws : List Part} {i : Instr} {body : State p → Micro p Unit} {s t : State p}
    (h : command i body s = .next t) (hi : TreeInv s) (hb : WritesOnly ws body) (hws : ∀ x ∈ treeParts, x ∉ ws) :
    TreeInv t :=
  command_treeInv h hi fun _ => (hb s s (.refl ws s)).mono (fun _ k => hi.of_keepsBut k hws)
    fun _ _ k => (hi.of_keepsBut k hws).safe

/-- Every command keeps the tree invariant. The header tokens are not commands: outside DESER they are about the model
only (log 9). -/
theorem exec_treeInv {i : Instr} {s t : State} (hf : i.format = .cmd) (h : exec i s = .next t) (hi : TreeInv s) :
    TreeInv t := by
  cases i with
  | reset => cases h; exact resetBlock_treeInv s
  | openw => exact command_treeInv_of_writesOnly h hi openSink_writesOnly.require (by decide)
  | wbit opd => exact command_treeInv_of_writesOnly h hi (writeBit_writesOnly _).require (by decide)
  | wbyte v => exact command_treeInv_of_writesOnly h hi (writeBits_writesOnly _).require (by decide)
  | flush => exact command_treeInv_of_writesOnly h hi flushPacker_writesOnly.require (by decide)
  | closew => exact command_treeInv_of_writesOnly h hi flushAndRelease_writesOnly.require (by decide)
  | openr => exact command_treeInv_of_writesOnly h hi openSource_writesOnly.require (by decide)
  | rbit => exact command_treeInv_of_writesOnly h hi readBitToRes_writesOnly.require (by decide)
  | rbyte => exact command_treeInv_of_writesOnly h hi readByteToRes_writesOnly.require (by decide)
  | closer => exact command_treeInv_of_writesOnly h hi releaseSource_writesOnly.require (by decide)
  | ser => exact command_treeInv_of_writesOnly h hi serTree_writesOnly.require.require (by decide)
  | enc v => exact command_treeInv_of_writesOnly h hi (encodeByte_writesOnly v).require (by decide)
  | decode => exact command_treeInv_of_writesOnly h hi (decodeChecked_writesOnly runDecoder_writesOnly) (by decide)
  | tbegin =>
    exact command_treeInv (i := .tbegin) (body := fun s => .ok (beginLoad s) ()) h hi
      fun _ => (beginLoad_building s).treeInv rfl
  | tnode => exact command_treeInv h hi fun hlive => .require hi.safe fun hload => accept_treeInv _ hi hlive hload
  | tleaf v => exact command_treeInv h hi fun hlive => .require hi.safe fun hload => accept_treeInv _ hi hlive hload
  | deser =>
    exact command_treeInv h hi fun _ => .require hi.safe fun _ =>
      (deserLoop_built _ (beginDeser_building s) (by simp [State.nn, beginDeser, clearMemory])).mono
        (fun _ k => k.treeInv) fun _ _ k => k
  | cmap =>
    exact command_treeInv h hi fun hlive => .require hi.safe fun hvalid =>
      buildCodeMap_treeInv (by decide) hi hlive hvalid
  | leaf | internal | left | right => cases hf

theorem takeWord_treeInv {w : CmdWord} {s t : State} (h : takeWord w s = .next t) (hi : TreeInv s) : TreeInv t := by
  rcases takeWord_cases w s with ⟨_, e⟩ | ⟨i, hd, e⟩ | ⟨_, e⟩ <;> rw [e] at h
  · cases h; exact hi
  · obtain ⟨_, _, hf, _⟩ := decodeCommand_ok hd
    exact exec_treeInv hf h hi
  · cases h; exact hi.safe.raiseFault _ w

/-- The environment is not the tree invariant's concern. -/
theorem TreeInv.setEnv {s : State p} (h : TreeInv s) (e : Env p) : TreeInv (s.setEnv e) := { __ := h }

theorem TreeInv.setCfg {s : State p} (h : TreeInv s) (c : Cfg p) : TreeInv (s.setCfg c) := { __ := h }

theorem takeInput_treeInv {i : HostInput} {s t : State} (h : takeInput i s = .next t) (hi : TreeInv s) :
    TreeInv t := by
  cases i with
  | command w => exact takeWord_treeInv h hi
  | writeReg reg value =>
    obtain ⟨c, e⟩ := writeReg_cases s reg value
    cases h; rw [e]; exact hi.setCfg c
  | resetInput => cases h; exact resetBlock_treeInv s
  | resetDuring w k =>
    obtain ⟨u, _, e⟩ := resetDuring_eq w k s
    rw [e] at h; cases h; exact resetBlock_treeInv _
  | readReg | offerSink | offerSource | attachSym => cases h; exact hi.setEnv _

/-- Settles O57: the tree commands, DESER and CMAP keep the tree invariant, the other commands do not touch what it
speaks of, and fault entry and reset establish it. -/
theorem stepKeepsTreeInv : Obligations.StepKeepsTreeInv := by
  unfold Obligations.StepKeepsTreeInv
  intro s t hi h
  cases hin : s.env.inputs with
  | nil => rw [step_idle hin] at h; cases h; exact hi
  | cons i rest => rw [step_take hin] at h; exact takeInput_treeInv h (hi.setEnv _)

end Sys2Proof.Machine
end

section
/-! Reset and FAULTED (10_state.md R49; 46_system_and_macros.md R240; 60_exceptions.md R274, R277): what RESET leaves,
and that nothing else leaves the faulted state. -/

namespace Sys2Proof.Machine

/-- Settles O45: RESET gives the reset values and only detaches the channels. -/
theorem resetRestoresTheResetState : Obligations.ResetRestoresTheResetState := by
  unfold Obligations.ResetRestoresTheResetState
  intro s
  obtain ⟨hsnk, hsrc, hsym, hinputs, hread⟩ := resetBlock_env s
  exact ⟨resetBlock s, rfl, rfl, rfl, rfl, rfl, rfl, rfl, rfl, rfl, fun _ => rfl, rfl, rfl, rfl, rfl, hsnk, hsrc, hsym,
    hinputs, hread⟩

/-- Settles O55: there is no tree, no code and no open stream at reset. -/
theorem invariantsHoldAtReset : Obligations.InvariantsHoldAtReset :=
  ⟨resetBlock_inv (s := State.reset) (Nat.le_refl 0), resetBlock_treeInv State.reset⟩

/-- While FAULTED a word leaves the fault record, or it is RESET's (R274 (1), R277). -/
theorem takeWord_flt_of_faulted {w : CmdWord} {s t : State} (h : takeWord w s = .next t)
    (hf : s.flt.faulted = true) : t.flt = s.flt ∨ (t.flt = FaultRecord.reset ∧ w = 0x0100#16) := by
  by_cases hw : w = 0x0100#16
  · subst hw
    rw [takeWord_decoded (i := .reset) rfl (.inr rfl)] at h
    cases h; exact .inr ⟨rfl, rfl⟩
  · rw [takeWord_dropped hw hf] at h
    cases h; exact .inl rfl

/-- While FAULTED a host input leaves the fault record, or it is a reset (R277). -/
theorem takeInput_flt_of_faulted {i : HostInput} {s t : State} (h : takeInput i s = .next t)
    (hf : s.flt.faulted = true) : t.flt = s.flt ∨ (t.flt = FaultRecord.reset ∧
      (i = .command 0x0100#16 ∨ i = .resetInput ∨ ∃ w k, i = .resetDuring w k)) := by
  cases i with
  | command w =>
    rcases takeWord_flt_of_faulted h hf with e | ⟨e, rfl⟩
    · exact .inl e
    · exact .inr ⟨e, .inl rfl⟩
  | writeReg reg value =>
    obtain ⟨c, e⟩ := writeReg_cases s reg value
    cases h; rw [e]; exact .inl rfl
  | resetInput => cases h; exact .inr ⟨rfl, .inr (.inl rfl)⟩
  | resetDuring w k =>
    obtain ⟨u, _, e⟩ := resetDuring_eq w k s
    rw [e] at h; cases h; exact .inr ⟨rfl, .inr (.inr ⟨w, k, rfl⟩)⟩
  | readReg | offerSink | offerSource | attachSym => cases h; exact .inl rfl

/-- Settles O7: while FAULTED every instruction but RESET is dropped, and only a reset changes the fault record. -/
theorem faultedUntilReset : Obligations.FaultedUntilReset := by
  unfold Obligations.FaultedUntilReset
  refine ⟨fun i s hi hf => exec_faulted hi hf, fun w s rest hw hf hin => ?_, fun s t h hf => ?_⟩
  · rw [step_take hin]; exact takeWord_dropped hw hf
  · cases hin : s.env.inputs with
    | nil => rw [step_idle hin] at h; cases h; exact .inl rfl
    | cons i rest =>
      rw [step_take hin] at h
      rcases takeInput_flt_of_faulted h hf with e | ⟨e, hi⟩
      · exact .inl e
      · exact .inr ⟨e, i, rest, rfl, hi⟩

end Sys2Proof.Machine
end

section
/-! The register port (10_state.md R40 to R48; 46_system_and_macros.md R241). -/

namespace Sys2Proof.Machine

/-- The reserved registers read as 0 (R47). -/
theorem readReg_reserved {reg : BitVec 4} (s : State) (h : 10 ≤ reg.toNat) : readReg s reg = 0#64 := by
  obtain ⟨n, hn⟩ := Nat.exists_eq_add_of_le' h
  rw [readReg, hn]
  rfl

/-- Settles O47: a register read adds its value to the values read and changes nothing else. -/
theorem registerReadHasNoSideEffect : Obligations.RegisterReadHasNoSideEffect := by
  unfold Obligations.RegisterReadHasNoSideEffect
  intro reg s rest hin
  refine ⟨step_take hin, ?_, ?_, ?_, ?_, ?_, ?_, ?_, ?_, readReg_reserved s⟩
  · rintro rfl; rfl
  · rintro rfl
    change (BitVec.ofBool s.cfg.limitEn).setWidth 64 = _
    cases s.cfg.limitEn <;> rfl
  · rintro rfl; rfl
  · rintro rfl; rfl
  · rintro rfl; rfl
  · rintro rfl; rfl
  · rintro rfl; rfl
  · rintro rfl hn
    change ((BitVec.ofNat 9 s.nn).setWidth 64).toNat = s.nn
    rw [BitVec.toNat_setWidth_of_le (by decide), BitVec.toNat_ofNat, Nat.mod_eq_of_lt hn]

/-- A word no wider than the data port is read with its own bits, and zeros above (R40). -/
theorem getLsbD_setWidth_of_le {n m : Nat} (h : n ≤ m) (x : BitVec n) (i : Nat) :
    (x.setWidth m).getLsbD i = x.getLsbD i := by
  rw [← BitVec.setWidth'_eq h, BitVec.getLsbD_setWidth']

/-- The bits of STATUS, bit 0 first (R41); BUSY is 0 between commands. -/
theorem readReg_status_getLsbD (s : State) (i : Nat) : (readReg s 0#4).getLsbD i =
    [false, s.flt.faulted, s.w.isOpen, s.r.isOpen, s.ctl.tload, s.ctl.treeValid, s.ctl.cmapValid, s.r.eos,
      s.ctl.midtree].getD i false := by
  have hread : (readReg s 0#4).getLsbD i = (statusWord s).getLsbD i := getLsbD_setWidth_of_le (by decide) _ i
  rw [hread]
  unfold statusWord State.busy
  rcases i with _ | _ | _ | _ | _ | _ | _ | _ | _ | i <;> simp only [BitVec.getLsbD_append] <;> simp

/-- The bits of FAULT (R42): CODE, four zeros, CMDW, zeros. -/
theorem readReg_fault_getLsbD (s : State) (i : Nat) : (readReg s 1#4).getLsbD i =
    if i < 4 then s.flt.code.toBits.getLsbD i else if i < 8 then false else s.flt.cmdw.getLsbD (i - 8) := by
  have hread : (readReg s 1#4).getLsbD i = (faultWord s).getLsbD i := getLsbD_setWidth_of_le (by decide) _ i
  rw [hread]
  unfold faultWord
  simp only [BitVec.getLsbD_append, BitVec.getLsbD_zero]
  by_cases h4 : i < 4
  · simp [h4]
  · by_cases h8 : i < 8
    · simp [h4, h8, show i - 4 < 4 by omega]
    · by_cases h24 : i - 8 < 16
      · simp [h4, h8, h24, show ¬ i - 4 < 4 by omega, show i - 4 - 4 = i - 8 by omega]
      · simp [h4, h8, show ¬ i - 4 < 4 by omega, show i - 4 - 4 = i - 8 by omega,
          BitVec.getLsbD_of_ge _ _ (not_lt.mp h24)]

/-- A field of FAULT, bit by bit. -/
theorem readReg_fault_field {s : State} {start width : Nat} {x : BitVec width}
    (h : ∀ i < width, (readReg s 1#4).getLsbD (start + i) = x.getLsbD i) :
    (readReg s 1#4).extractLsb' start width = x :=
  BitVec.eq_of_getLsbD_eq fun i hi => by rw [BitVec.getLsbD_extractLsb', h i hi]; simp [hi]

/-- Settles O48: the fields of STATUS and FAULT stand at the bits of R41 and R42. -/
theorem statusAndFaultFields : Obligations.StatusAndFaultFields := by
  unfold Obligations.StatusAndFaultFields
  refine ⟨by decide, by decide, fun s => ?_⟩
  have status := readReg_status_getLsbD s
  have fault := readReg_fault_getLsbD s
  refine ⟨status 0, status 1, status 2, status 3, status 4, status 5, status 6, status 7, status 8,
    fun i hi => (status i).trans (List.getD_eq_default _ _ hi), ?_, ?_, ?_, ?_, fun _ => ⟨rfl, rfl⟩⟩
  · exact readReg_fault_field fun i hi => by simp [fault, hi]
  · exact readReg_fault_field fun i hi => by simp [fault, show 4 + i < 8 by omega]
  · exact readReg_fault_field fun i hi => by simp [fault, show ¬ 8 + i < 4 by omega]
  · exact readReg_fault_field fun i hi => by
      rw [fault, if_neg (by omega), if_neg (by omega), BitVec.getLsbD_of_ge _ _ (by omega), BitVec.getLsbD_zero]

end Sys2Proof.Machine
end

section
/-! RBIT as a command (40_bitstream.md R127; 10_state.md R25): what it does to RES, the unpacker and the source. -/

namespace Sys2Proof.Machine

/-- RBIT that reads puts the result into RES (R127). -/
theorem exec_rbit_ok {s t : State} {r : Option Bool} (hlive : s.flt.faulted = false) (hopen : s.r.isOpen = true)
    (h : readBit s = .ok t r) : exec .rbit s = .next (t.setRes (bitResult r)) := by
  rw [exec_rbit hlive, hopen, require_true, readBitToRes, h]
  rfl

/-- RBIT that faults has its own word recorded (R127, R275). -/
theorem exec_rbit_raise {s t : State} {x : FaultCode} (hlive : s.flt.faulted = false) (hopen : s.r.isOpen = true)
    (h : readBit s = .raise x t) : exec .rbit s = .next (raiseFault x 0x1900#16 t) := by
  rw [exec_rbit hlive, hopen, require_true, readBitToRes, h]
  rfl

/-- RES is no part of the unpacker's frame. -/
theorem UnpackerFrame.setRes {p : Params} {s t : State p} (h : UnpackerFrame s t) (v : BitVec 9) :
    UnpackerFrame s (t.setRes v) :=
  ⟨h.w, h.mem, h.ctl, h.cnt, h.cfg, h.flt, h.snk, h.sym, h.inputs, h.readData⟩

variable {p : Params}

/-- A buffered bit is delivered without a transfer (R127). -/
theorem readBit_buffered {s t : State p} {b : Bool} (hrem : s.r.rem ≠ 0) (h : readBit s = .ok t (some b)) :
    t.env = s.env := by
  rcases readBit_cases s with ⟨_, e⟩ | ⟨_, _, e⟩ | ⟨_, h0, _⟩ | ⟨_, h0, _⟩ | ⟨_, _, h0, _⟩
  · rw [e] at h; cases h
  · rcases deliverBit_cases s with ⟨_, e'⟩ | ⟨_, e'⟩ <;> rw [e, e'] at h <;> cases h
    rfl
  · exact absurd h0 hrem
  · exact absurd h0 hrem
  · exact absurd h0 hrem

/-- With no bit buffered one byte is fetched, and seven of its bits stay (R127). -/
theorem readBit_fetched {s t : State p} {b : Bool} (hrem : s.r.rem = 0) (h : readBit s = .ok t (some b)) :
    t.env.src.pos = s.env.src.pos + 1 ∧ t.r.rem = 7 := by
  rcases readBit_cases s with ⟨_, e⟩ | ⟨_, h0, _⟩ | ⟨_, _, _, e⟩ | ⟨_, _, _, e⟩ | ⟨x, _, _, _, e⟩
  · rw [e] at h; cases h
  · exact absurd hrem h0
  · rw [e] at h; cases h
  · rw [e] at h; cases h
  · rcases deliverBit_cases ((s.port (.srcFetch (.byte x))).setR { s.r with buf := x, rem := 8 }) with
      ⟨_, e'⟩ | ⟨_, e'⟩ <;> rw [e, e'] at h <;> cases h
    exact ⟨rfl, rfl⟩

/-- The sentinel counts nothing and leaves the source where it is (R64, R127). -/
theorem readBit_sentinel {s t : State p} (h : readBit s = .ok t none) :
    t.r.rbits = s.r.rbits ∧ t.env.src = s.env.src := by
  rcases readBit_cases s with ⟨_, e⟩ | ⟨he, hrem, e⟩ | ⟨_, _, _, e⟩ | ⟨_, _, _, e⟩ | ⟨x, he, _, _, e⟩ <;> rw [e] at h
  · cases h; exact ⟨rfl, rfl⟩
  · obtain ⟨_, hb, _⟩ := deliverBit_took he hrem h
    cases hb
  · cases h
  · cases h; exact ⟨rfl, by simp⟩
  · obtain ⟨_, hb, _⟩ := deliver_fetched he h
    cases hb

theorem bitResult_some (b : Bool) : bitResult (some b) = if b then 1#9 else 0#9 := by cases b <;> rfl

theorem atMax_allOnes : atMax (counterMax : Counter p) = true := by simp [atMax]

/-- Delivering a bit with a full RBITS (R127, R247 (a)). -/
theorem deliverBit_full {s : State p} (h : atMax s.r.rbits = true) : deliverBit s = .raise .countOvf s := by
  simp [deliverBit, h]

/-- Settles O16: each way RBIT can go, from what one read of the unpacker can do. -/
theorem rbitDeliversTheNextBit : Obligations.RbitDeliversTheNextBit := by
  unfold Obligations.RbitDeliversTheNextBit
  intro s hlive hopen
  refine ⟨fun b rest hb hrel hroom => ?_, fun hb hrel => ?_, fun heos hrem ha => ?_, fun heos hrem hfull => ?_,
    fun b heos hrem ha hfull => ?_⟩
  · obtain ⟨t, ht, took, hrest⟩ := readBit_completes hb hrel hroom
    refine ⟨_, exec_rbit_ok hlive hopen ht, took.frame.setRes _, took.isOpen.trans hopen, bitResult_some b, hrest,
      took.rbits, fun hrem => (readBit_buffered hrem ht :),
      fun hrem => (readBit_fetched hrem ht :)⟩
  · obtain ⟨t, ht⟩ := readBit_completes_eos hb hrel
    obtain ⟨took, _, heos, hsticky⟩ := readBit_eos ht
    obtain ⟨hcount, hsrc⟩ := readBit_sentinel ht
    exact ⟨_, exec_rbit_ok hlive hopen ht, took.frame.setRes _, took.isOpen.trans hopen, rfl, heos, hcount, hsrc,
      fun h => by rw [hsticky h]; rfl⟩
  · have e : readBit s = .raise .ioSource (s.port (.srcFetch .fail)) := by simp [readBit, heos, hrem, ha]
    refine ⟨_, exec_rbit_raise hlive hopen e, raiseFault_flt _ _ _, ?_, by simp, by simp [hopen]⟩
    simp [hopen]
  · have e : readBit s = .raise .countOvf s := by
      rw [readBit, if_neg (by simp [heos]), if_neg hrem, deliverBit_full (by rw [hfull]; exact atMax_allOnes)]
    exact exec_rbit_raise hlive hopen e
  · refine exec_rbit_raise hlive hopen ?_
    simp only [readBit, heos, hrem, ha]
    exact deliverBit_full (by rw [State.setR_r, hfull]; exact atMax_allOnes)

end Sys2Proof.Machine
end

section
/-! TM and the tree (10_state.md R38; 42_tree_serdes.md R179). -/

namespace Sys2Proof.Machine

/-- Settles O28: the tree is read back by index, TM is the tree's, and its entries spell the header. -/
theorem treeMemoryHoldsOneTree : Obligations.TreeMemoryHoldsOneTree := by
  unfold Obligations.TreeMemoryHoldsOneTree
  intro t hsize
  have hheight := t.height_lt
  have root : SubtreeAt (layout 0 t) 0 t := ⟨[], [], by simp, rfl⟩
  refine ⟨treeAt_subtree (by simpa using hsize) root (by omega), layout_length 0 t, t.size_leaves,
    fun t' he => layout_injective hsize he, ?_⟩
  rw [← layout_bits (p := Params.default) 0 t]
  congr 1
  funext e
  cases e <;> rfl

end Sys2Proof.Machine
end

section
/-! Sinks only grow and the source does not move back (20_memory.md R64, R65, R72): no transfer but an open undoes
anything, and an instruction opens no stream but its own. -/

namespace Sys2Proof.Machine

variable {p : Params} {α β : Type}

/-- From `e` to `e'` no byte is taken back and the source is not moved back, but where the instruction opens the
stream. -/
structure Grows (i : Instr) (e e' : Env p) : Prop where
  snk : i ≠ .openw → e.snk.data <+: e'.snk.data
  sym : e.sym.data <+: e'.sym.data
  src : i ≠ .openr → e'.src.data = e.src.data ∧ e.src.pos ≤ e'.src.pos

theorem Grows.refl (i : Instr) (e : Env p) : Grows i e e :=
  ⟨fun _ => List.prefix_rfl, List.prefix_rfl, fun _ => ⟨rfl, le_rfl⟩⟩

theorem Grows.trans {i : Instr} {e e' e'' : Env p} (h : Grows i e e') (k : Grows i e' e'') : Grows i e e'' where
  snk hi := (h.snk hi).trans (k.snk hi)
  sym := h.sym.trans k.sym
  src hi := ⟨(k.src hi).1.trans (h.src hi).1, (h.src hi).2.trans (k.src hi).2⟩

/-- The transfer attaches a sink only in OPENW, a source only in OPENR (R66). -/
def PortEvent.AllowedIn (i : Instr) (ev : PortEvent) : Prop :=
  (ev = .snkOpen true → i = .openw) ∧ (ev = .srcOpen true → i = .openr)

/-- One transfer more (R63 to R66). -/
theorem Grows.event {i : Instr} {e e' : Env p} (h : Grows i e e') {ev : PortEvent}
    (hev : ev.AllowedIn i := by simp [PortEvent.AllowedIn]) : Grows i e (e'.apply ev) := by
  refine h.trans ?_
  obtain ⟨hsnk, hsrc⟩ := hev
  cases ev with
  | snkOpen ok =>
    cases ok with
    | true => exact ⟨fun hi => absurd (hsnk rfl) hi, by simp, by simp⟩
    | false => exact ⟨by simp, by simp, by simp⟩
  | srcOpen ok =>
    cases ok with
    | true => exact ⟨by simp, by simp, fun hi => absurd (hsrc rfl) hi⟩
    | false => exact ⟨by simp, by simp, by simp⟩
  | snkEmit b ok => cases ok <;> exact ⟨by simp, by simp, by simp⟩
  | srcFetch a => cases a <;> exact ⟨by simp, by simp, by simp⟩
  | symEmit b ok => cases ok <;> exact ⟨by simp, by simp, by simp⟩
  | snkRelease | srcRelease => exact ⟨by simp, by simp, by simp⟩

/-- These micro-steps of the instruction take nothing back, also when they fault. -/
def OnlyGrows (i : Instr) (f : State p → Micro p α) : Prop :=
  ∀ e, Keeps (fun s => Grows i e s.env) (fun _ s => Grows i e s.env) f

section
variable {i : Instr}

/-- A step between two pieces of pseudocode. -/
theorem OnlyGrows.andThen {f : State p → Micro p α} {g : State p → α → Micro p β} (hf : OnlyGrows i f)
    (hg : ∀ a, OnlyGrows i fun s => g s a) : OnlyGrows i fun s => (f s).andThen g :=
  fun e s h => (hf e s h).andThen fun a => hg a e

theorem OnlyGrows.require {body : State p → Micro p Unit} {c : State p → Bool} {x : FaultCode}
    (h : OnlyGrows i body) : OnlyGrows i fun s => require (c s) x body s :=
  fun e s hs => .require hs fun _ => h e s hs

/-! ### The packer and the unpacker -/

theorem writeBit_onlyGrows (b : Bool) : OnlyGrows i (writeBit (p := p) b) := fun e s h => by
  rcases writeBit_cases b s with ⟨_, eq⟩ | ⟨_, _, eq⟩ | ⟨_, _, _, eq⟩ | ⟨_, _, _, eq⟩ <;> rw [eq]
  · exact h
  · exact h
  · exact h.event
  · exact h.event

theorem writeBits_onlyGrows (bs : List Bool) : OnlyGrows i (writeBits (p := p) bs) := fun e =>
  .writeBits (fun b => writeBit_onlyGrows b e) bs

theorem serTree_onlyGrows : OnlyGrows i fun s : State p => serScan s.mem.tm s := fun e =>
  .serTree fun b => writeBit_onlyGrows b e

theorem flushPacker_onlyGrows : OnlyGrows i (flushPacker (p := p)) := fun e s h => by
  rcases flushPacker_cases s with ⟨_, eq⟩ | ⟨_, _, eq⟩ | ⟨_, _, eq⟩ <;> rw [eq]
  · exact h
  · exact h.event
  · exact h.event

theorem flushAndRelease_onlyGrows : OnlyGrows i (flushAndRelease (p := p)) :=
  flushPacker_onlyGrows.andThen fun _ _ _ h => h.event (ev := .snkRelease)

theorem openSink_onlyGrows : OnlyGrows .openw (openSink (p := p)) := fun e s h => by
  unfold openSink
  split
  · exact h.event
  · exact h.event

theorem openSource_onlyGrows : OnlyGrows .openr (openSource (p := p)) := fun e s h => by
  unfold openSource
  split
  · exact h.event
  · exact h.event

theorem deliverBit_onlyGrows : OnlyGrows i (deliverBit (p := p)) := fun e s h => by
  rcases deliverBit_cases s with ⟨_, eq⟩ | ⟨_, eq⟩ <;> rw [eq] <;> exact h

theorem readBit_onlyGrows : OnlyGrows i (readBit (p := p)) := fun e s h => by
  rcases readBit_cases s with ⟨_, eq⟩ | ⟨_, _, eq⟩ | ⟨_, _, _, eq⟩ | ⟨_, _, _, eq⟩ | ⟨b, _, _, _, eq⟩ <;> rw [eq]
  · exact h
  · exact deliverBit_onlyGrows e s h
  · exact h.event
  · exact h.event
  · exact deliverBit_onlyGrows e _ h.event

theorem readBitToRes_onlyGrows : OnlyGrows i (readBitToRes (p := p)) :=
  readBit_onlyGrows.andThen fun _ _ _ h => h

theorem readByteToRes_onlyGrows : OnlyGrows i (readByteToRes (p := p)) :=
  OnlyGrows.andThen (fun e => .readByte (readBit_onlyGrows e)) fun _ _ _ h => h

theorem releaseSource_onlyGrows : OnlyGrows i fun s : State p => .ok (releaseSource s) () := fun _ _ h =>
  h.event (ev := .srcRelease)

/-! ### The tree, its header and its code map -/

theorem beginLoad_onlyGrows : OnlyGrows i fun s : State p => .ok (beginLoad s) () := fun _ _ h => h

theorem accept_onlyGrows (tok : Token) : OnlyGrows i (accept (p := p) tok) := fun e s h => by
  cases ha : accept tok s with
  | ok t a => rw [Micro.ends_ok, (accept_memoryFrame ha).env]; exact h
  | raise x t => rw [Micro.ends_raise, (accept_raise ha).2]; exact h

/-- A header token is accepted unless the tree is complete (R177). -/
theorem acceptUnlessDone_onlyGrows (tok : Token) :
    OnlyGrows i fun s : State p => if s.ctl.treeValid then .ok s () else accept tok s := fun e s h => by
  dsimp only
  split
  · exact h
  · exact accept_onlyGrows tok e s h

theorem deserTree_onlyGrows (n : Nat) : OnlyGrows i fun s : State p => deserLoop n (beginDeser s) := fun e s h =>
  Keeps.deserLoop (readBit_onlyGrows e) (fun tok => accept_onlyGrows tok e) (fun _ h => h) n (beginDeser s) h

theorem cmapLeaf_onlyGrows (v : Byte) : OnlyGrows i (cmapLeaf (p := p) v) := fun e s h => by
  rcases cmapLeaf_cases v s with ⟨_, _, eq⟩ | ⟨_, _, eq⟩ | ⟨_, _, _, _, eq⟩ <;> rw [eq] <;> exact h

theorem buildCodes_onlyGrows : OnlyGrows i (buildCodes (p := p)) := fun e s h => by
  unfold buildCodes
  split
  · exact h
  · exact Keeps.cmapScan (fun _ h => h) (fun v => cmapLeaf_onlyGrows v e) _ (beginWalk s) h

theorem buildCodeMap_onlyGrows : OnlyGrows i (buildCodeMap (p := p)) := fun e s h =>
  (buildCodes_onlyGrows e (clearCodeMap s) h).andThen fun _ _ h => h

/-! ### The encoder and the decoder -/

theorem encodeByte_onlyGrows (v : Byte) : OnlyGrows i (encodeByte (p := p) v) := fun e s h => by
  unfold encodeByte
  split
  · exact h
  · unfold writeCode
    split
    · exact h
    · exact (writeBits_onlyGrows _ e s h).andThen fun _ _ h => h

theorem symEmit_onlyGrows (b : Byte) : OnlyGrows i (symEmit (p := p) b) := fun e s h => by
  rcases symEmit_cases b s with ⟨_, eq⟩ | ⟨_, _, eq⟩ | ⟨_, _, eq⟩ <;> rw [eq]
  · exact h
  · exact h.event
  · exact h.event

theorem payloadStep_onlyGrows (b : Bool) : OnlyGrows i (payloadStep (p := p) b) := fun e =>
  .payloadStep (fun b => symEmit_onlyGrows b e) (fun _ _ h => h) b

theorem runDecoder_onlyGrows : OnlyGrows i (runDecoder (p := p)) := fun e s h =>
  Keeps.decodeLoop (readBit_onlyGrows e) (fun b => symEmit_onlyGrows b e) (fun _ _ h => h) (fun _ _ h => h)
    (fun _ h => h) _ (beginDecode s) h

theorem decodeChecked_onlyGrows {body : State p → Micro p Unit} (h : OnlyGrows i body) :
    OnlyGrows i (decodeChecked body) :=
  .require (c := fun s => s.r.isOpen) (.require (c := fun s => s.ctl.treeValid) h)

/-! ### Whole commands -/

/-- Fault entry adds at most the flushed byte and releases what is open (R275). -/
theorem raiseFault_grows (x : FaultCode) (w : CmdWord) (s : State p) : Grows i s.env (raiseFault x w s).env where
  snk _ := raiseFault_data_prefix x w s
  sym := by simp
  src _ := by rw [raiseFault_src]; split <;> exact ⟨rfl, le_rfl⟩

/-- The channels' contents stay at a reset (R300). -/
theorem resetBlock_grows (s : State p) : Grows i s.env (resetBlock s).env := by
  obtain ⟨hsnk, hsrc, hsym, _, _⟩ := resetBlock_env s
  exact ⟨fun _ => by rw [hsnk], by rw [hsym], fun _ => by rw [hsrc]; exact ⟨rfl, le_rfl⟩⟩

theorem command_grows {body : State p → Micro p Unit} {s t : State p} (h : command i body s = .next t)
    (hb : OnlyGrows i body) : Grows i s.env t.env :=
  command_ends (P := fun t => Grows i s.env t.env) h (fun _ => .refl i s.env) fun _ =>
    (hb s.env s (.refl i s.env)).mono (fun _ k => k) fun x u k => k.trans (raiseFault_grows x i.cmdWord u)

end

/-- No instruction takes anything back, also when it faults, but where it opens the stream (R64, R65, R72). -/
theorem exec_grows {i : Instr} {s t : State} (h : exec i s = .next t) : Grows i s.env t.env := by
  cases i with
  | reset => cases h; exact resetBlock_grows s
  | openw => exact command_grows h openSink_onlyGrows.require
  | wbit opd => exact command_grows h (writeBit_onlyGrows _).require
  | wbyte v => exact command_grows h (writeBits_onlyGrows _).require
  | flush => exact command_grows h flushPacker_onlyGrows.require
  | closew => exact command_grows h flushAndRelease_onlyGrows.require
  | openr => exact command_grows h openSource_onlyGrows.require
  | rbit => exact command_grows h readBitToRes_onlyGrows.require
  | rbyte => exact command_grows h readByteToRes_onlyGrows.require
  | closer => exact command_grows h releaseSource_onlyGrows.require
  | tbegin => exact command_grows (i := .tbegin) (body := fun s => .ok (beginLoad s) ()) h beginLoad_onlyGrows
  | tnode => exact command_grows h (accept_onlyGrows _).require
  | tleaf v => exact command_grows h (accept_onlyGrows _).require
  | ser => exact command_grows h serTree_onlyGrows.require.require
  | deser => exact command_grows h (deserTree_onlyGrows _).require
  | cmap => exact command_grows h buildCodeMap_onlyGrows.require
  | enc v => exact command_grows h (encodeByte_onlyGrows v).require
  | decode => exact command_grows h (decodeChecked_onlyGrows runDecoder_onlyGrows)
  | leaf v => exact command_grows h (acceptUnlessDone_onlyGrows _).require
  | internal => exact command_grows h (acceptUnlessDone_onlyGrows _).require
  | left => exact command_grows h (decodeChecked_onlyGrows (payloadStep_onlyGrows _))
  | right => exact command_grows h (decodeChecked_onlyGrows (payloadStep_onlyGrows _))

/-- Settles O54: no transfer but an open takes anything back, and no instruction but OPENW and OPENR opens a stream. -/
theorem sinksOnlyGrow : Obligations.SinksOnlyGrow := by
  unfold Obligations.SinksOnlyGrow
  intro i s t h
  obtain ⟨hsnk, hsym, hsrc⟩ := exec_grows h
  exact ⟨hsnk, hsym, hsrc⟩

end Sys2Proof.Machine
end

section
/-! OPENW as a command (40_bitstream.md R121): its check and the two answers to its open. -/

namespace Sys2Proof.Machine

/-- An open that is refused (R66, R121). -/
theorem openSink_refused {p : Params} {s : State p} (h : s.env.snk.answer = false) :
    openSink s = .raise .ioSink (s.port (.snkOpen false)) := by simp [openSink, h]

/-- An open that is answered ok (R66, R121). -/
theorem openSink_attached {p : Params} {s : State p} (h : s.env.snk.answer = true) :
    openSink s = .ok (((s.port (.snkOpen true)).setW { acc := 0#8, cnt := 0, isOpen := true, wbits := 0#p.cntW }).setCnt
      { s.cnt with enc := 0#p.cntW }) () := by simp [openSink, h]

/-- Settles O9: an open packer fails the check; otherwise the sink's answer decides. -/
theorem openwStartsAnOutputStream : Obligations.OpenwStartsAnOutputStream := by
  unfold Obligations.OpenwStartsAnOutputStream
  refine ⟨rfl, fun s hlive => ⟨fun hopen => ?_, fun hclosed ha => ?_, fun hclosed ha => ?_⟩⟩
  · rw [exec_openw hlive, hopen]; rfl
  · rw [exec_openw hlive, hclosed, Bool.not_false, require_true, openSink_refused ha, finish_raise]
  · rw [exec_openw hlive, hclosed, Bool.not_false, require_true, openSink_attached ha, finish_ok]
    exact ⟨_, rfl, ⟨rfl, rfl, rfl, rfl, rfl, rfl, by simp, by simp, by simp, by simp⟩, rfl, rfl, rfl, rfl⟩

end Sys2Proof.Machine
end

section
/-! Words, tokens and payload bits as encodings (30_encoding.md R90 to R100): decoding and encoding are inverse, and a
word that is no command's encoding is reserved. -/

namespace Sys2Proof.Machine

open Sys2Proof.Laws

/-- Every well-formed instruction is what its encoding decodes to (R92, R96 to R98). -/
theorem decode_encode {i : Instr} (h : i.wellFormed = true) : decode (encode i) = .ok i :=
  match i with
  | .reset => EncodeDecode.reset h
  | .openw => EncodeDecode.openw h
  | .wbit opd => EncodeDecode.wbit opd h
  | .wbyte v => EncodeDecode.wbyte v h
  | .flush => EncodeDecode.flush h
  | .closew => EncodeDecode.closew h
  | .openr => EncodeDecode.openr h
  | .rbit => EncodeDecode.rbit h
  | .rbyte => EncodeDecode.rbyte h
  | .closer => EncodeDecode.closer h
  | .tbegin => EncodeDecode.tbegin h
  | .tnode => EncodeDecode.tnode h
  | .tleaf v => EncodeDecode.tleaf v h
  | .ser => EncodeDecode.ser h
  | .deser => EncodeDecode.deser h
  | .cmap => EncodeDecode.cmap h
  | .enc v => EncodeDecode.enc v h
  | .decode => EncodeDecode.decode h
  | .leaf v => EncodeDecode.leaf v h
  | .internal => EncodeDecode.internal h
  | .left => EncodeDecode.left h
  | .right => EncodeDecode.right h

/-- WBIT is the one instruction that can have no encoding (R92, R94). -/
theorem eq_wbit_of_not_wellFormed {i : Instr} (h : i.wellFormed = false) :
    ∃ opd, i = .wbit opd ∧ bitOperandOk opd = false := by
  cases i with
  | wbit opd => exact ⟨opd, rfl, h⟩
  | _ => cases h

/-- WBIT with a bit of `opd[7:1]` set is reserved (R94). -/
theorem decode_wbit_reserved {opd : Byte} (h : bitOperandOk opd = false) :
    decode (encode (.wbit opd)) = .error (.bitOperand opd) := by
  simp [encode, decode, decodeCommand, Instr.cmdWord, opc_word, opd_word, bitOperand, h]

/-- Bits that decode as a token are that token's bits (R96, R97, R99). -/
theorem decode_token_ok {bits : List Bool} {i : Instr} (h : decode (.token bits) = .ok i) :
    ∃ tok : Token, i = tok.toInstr ∧ bits = tok.bits := by
  unfold decode at h
  match ht : takeToken bits with
  | none => simp [ht] at h
  | some (tok, []) =>
    simp only [ht, Except.ok.injEq] at h
    exact ⟨tok, h.symm, by simpa using takeToken_ok ht⟩
  | some (tok, _ :: _) => simp [ht] at h

theorem toInstr_encoding (tok : Token) :
    tok.toInstr.wellFormed = true ∧ encode tok.toInstr = .token tok.bits := by
  cases tok <;> exact ⟨rfl, rfl⟩

theorem decodeStep_encoding (b : Bool) : (decodeStep b).wellFormed = true ∧ encode (decodeStep b) = .step b := by
  cases b <;> exact ⟨rfl, rfl⟩

/-- A word that is no well-formed command's encoding does not decode (R94). -/
theorem decode_word_reserved {w : CmdWord}
    (h : ¬ ∃ i : Instr, i.format = .cmd ∧ i.wellFormed = true ∧ i.cmdWord = w) :
    ∃ why, decode (.word w) = .error why := by
  cases hd : decode (.word w) with
  | error why => exact ⟨why, rfl⟩
  | ok i =>
    obtain ⟨hwf, -, hcmd, hword⟩ := decodeCommand_ok hd
    exact absurd ⟨i, hcmd, hwf, hword⟩ h

/-- Settles O1: the words and tokens written out decode by evaluation. -/
theorem specWordsDecode : Obligations.SpecWordsDecode :=
  ⟨rfl, rfl, rfl, rfl, rfl, rfl, rfl, rfl, rfl, rfl, rfl, rfl, rfl, rfl⟩

/-- Settles O2: each instruction's encoding decodes to it, a token is cut off its stream, and an ill-formed instruction
is a WBIT whose word is reserved. -/
theorem decodeInvertsEncode : Obligations.DecodeInvertsEncode := by
  unfold Obligations.DecodeInvertsEncode
  refine ⟨fun _ => decode_encode, takeToken_bits, fun i h => ?_⟩
  obtain ⟨opd, rfl, hopd⟩ := eq_wbit_of_not_wellFormed h
  exact ⟨_, decode_wbit_reserved hopd⟩

/-- Settles O3: on each port, what decodes is the encoding of what it decodes to. -/
theorem encodingsAreUnique : Obligations.EncodingsAreUnique := by
  unfold Obligations.EncodingsAreUnique
  intro e i h
  cases e with
  | word w =>
    obtain ⟨hwf, henc, -, -⟩ := decodeCommand_ok h
    exact ⟨hwf, henc⟩
  | token bits =>
    obtain ⟨tok, rfl, rfl⟩ := decode_token_ok h
    exact toInstr_encoding tok
  | step b =>
    cases h
    exact decodeStep_encoding b

/-- Settles O4: a word without a command does not decode, and the step enters ILLEGAL_CMD with it. -/
theorem reservedWordRaisesIllegalCmd : Obligations.ReservedWordRaisesIllegalCmd := by
  unfold Obligations.ReservedWordRaisesIllegalCmd
  intro w s rest hres hin hlive
  obtain ⟨why, hd⟩ := decode_word_reserved hres
  rw [step_take hin]
  exact takeWord_reserved hd hlive

/-- A command the host issues runs its instruction (R91, R274). -/
theorem takeInput_issue {i : Instr} (hcmd : i.format = .cmd) (hwf : i.wellFormed = true) (s : State) :
    takeInput (issue i) s = exec i s := by
  have henc : encode i = .word i.cmdWord := by
    cases i with
    | leaf _ | internal | left | right => cases hcmd
    | _ => rfl
  exact takeWord_eq_exec s (by rw [← henc]; exact decode_encode hwf)

/-- The host goes on with the rest after a command it issued (R75 (a)). -/
theorem runHost_issue {i : Instr} (hcmd : i.format = .cmd) (hwf : i.wellFormed = true) {s t : State}
    (h : exec i s = .next t) (rest : List HostInput) : runHost (issue i :: rest) s = runHost rest t := by
  simp only [runHost, takeInput_issue hcmd hwf, h]

end Sys2Proof.Machine
end

section
/-! WBYTE as a command (40_bitstream.md R123): a write of several bits, and the same bits issued as WBITs one by one. -/

namespace Sys2Proof.Machine

/-- The operand of the WBIT that writes `b` (R92). -/
theorem operandBit_ofBool (b : Bool) : operandBit ((BitVec.ofBool b).setWidth 8) = b := by cases b <;> rfl

theorem bitOperandOk_ofBool (b : Bool) : bitOperandOk ((BitVec.ofBool b).setWidth 8) = true := by cases b <;> rfl

/-- Bits that a command writes in one go are the bits that as many WBIT commands write (R122, R123). -/
theorem runHost_wbits {bits : List Bool} {s t : State} (hlive : s.flt.faulted = false) (hopen : s.w.isOpen = true)
    (h : writeBits bits s = .ok t ()) :
    runHost (bits.map fun b => issue (.wbit ((BitVec.ofBool b).setWidth 8))) s = some t := by
  induction bits generalizing s with
  | nil => cases h; rfl
  | cons b bits ih =>
    obtain ⟨s1, _, h1, h2⟩ := Micro.andThen_eq_ok.mp h
    have wrote := writeBit_wrote h1
    have e : exec (.wbit ((BitVec.ofBool b).setWidth 8)) s = .next s1 := by
      rw [exec_wbit _ hlive, hopen, require_true, operandBit_ofBool, h1, finish_ok]
    rw [List.map_cons, runHost_issue (i := .wbit ((BitVec.ofBool b).setWidth 8)) rfl (bitOperandOk_ofBool b) e]
    exact ih (by rw [wrote.frame.flt]; exact hlive) (wrote.isOpen.trans hopen) h2

/-- Eight bits written emit one byte and leave as many bits buffered as before (R122, R123): the bytes of the sink and
the bits buffered are all there are, and fewer than eight are buffered. -/
theorem Wrote.emits_byte {p : Params} {bits : List Bool} {s t : State p} (h : Wrote bits s t) (hlen : bits.length = 8) :
    t.w.cnt = s.w.cnt ∧ ∃ b, t.env.snk.data = s.env.snk.data ++ [b] := by
  obtain ⟨bytes, hbytes⟩ := h.grown
  have hcount : 8 * bytes.length + t.w.cnt.val = s.w.cnt.val + 8 := by
    have := congrArg List.length h.written
    simp only [writtenBits, ← hbytes, List.length_append, unpack_length, bufferedBits_length, hlen] at this
    omega
  have hs := s.w.cnt.isLt
  have ht := t.w.cnt.isLt
  obtain ⟨b, rfl⟩ := List.length_eq_one_iff.mp (by omega : bytes.length = 1)
  exact ⟨Fin.ext (by omega), b, hbytes.symm⟩

/-- Settles O11: WBYTE is the write of its eight bits, and that write is eight WBITs. -/
theorem wbyteIsEightWbits : Obligations.WbyteIsEightWbits := by
  unfold Obligations.WbyteIsEightWbits
  intro v s hlive hopen
  have e : exec (.wbyte v) s = finish (0x12#8 ++ v) (writeBits (bits8 v) s) := by
    rw [exec_wbyte v hlive, hopen, require_true, writeByte]
  refine ⟨e, fun hrel hroom => ?_⟩
  obtain ⟨t, ht⟩ := writeBits_completes (bits8 v) hrel hroom
  have wrote := writeBits_wrote ht
  obtain ⟨hcnt, b, hdata⟩ := wrote.emits_byte (bits8_length v)
  exact ⟨t, b, by rw [e, ht, finish_ok], wrote.frame, wrote.cnt, wrote.isOpen.trans hopen, hcnt, wrote.wbits, hdata,
    wrote.written, runHost_wbits hlive hopen ht⟩

end Sys2Proof.Machine
end

section
/-! RBYTE as a command (40_bitstream.md R128; 60_exceptions.md R276): the byte, the sentinel, and the faults inside it. -/

namespace Sys2Proof.Machine

variable {p : Params}

/-- A read that faults was refused its byte or cannot count its bit, and has counted none (R127, R276). -/
theorem readBit_raise {x : FaultCode} {s t : State p} (h : readBit s = .raise x t) :
    (x = .ioSource ∨ x = .countOvf) ∧ t.r.rbits = s.r.rbits := by
  rcases readBit_cases s with ⟨_, e⟩ | ⟨_, _, e⟩ | ⟨_, _, _, e⟩ | ⟨_, _, _, e⟩ | ⟨b, _, _, _, e⟩ <;> rw [e] at h
  · cases h
  · rcases deliverBit_cases s with ⟨_, e'⟩ | ⟨_, e'⟩ <;> rw [e'] at h <;> cases h
    exact ⟨.inr rfl, rfl⟩
  · cases h; exact ⟨.inl rfl, rfl⟩
  · cases h
  · rcases deliverBit_cases ((s.port (.srcFetch (.byte b))).setR { s.r with buf := b, rem := 8 }) with
      ⟨_, e'⟩ | ⟨_, e'⟩ <;> rw [e'] at h <;> cases h
    exact ⟨.inr rfl, rfl⟩

/-- A fault inside the loop of RBYTE comes before its last bit is counted (R128, R276). -/
theorem readBitsInto_raise {n : Nat} {v : Byte} {x : FaultCode} {s t : State p} (h : readBitsInto n v s = .raise x t) :
    (x = .ioSource ∨ x = .countOvf) ∧ ∃ k, k < n ∧ t.r.rbits.toNat = s.r.rbits.toNat + k := by
  induction n generalizing v s with
  | zero => cases h
  | succ n ih =>
    rcases Micro.andThen_eq_raise.mp h with h1 | ⟨s1, o, h1, h2⟩
    · obtain ⟨hx, hcount⟩ := readBit_raise h1
      exact ⟨hx, 0, by omega, by rw [hcount]; rfl⟩
    · cases o with
      | none => cases h2
      | some b =>
        obtain ⟨hx, k, hk, hcount⟩ := ih h2
        have hbit : s1.r.rbits.toNat = s.r.rbits.toNat + 1 := (readBit_took h1).rbits
        exact ⟨hx, k + 1, by omega, by omega⟩

theorem readByte_writesOnly : WritesOnly [.rbits] (readByte (p := p)) := fun s0 =>
  Keeps.readByte (readBit_writesOnly s0)

/-- RBYTE that reads puts the result into RES (R128). -/
theorem exec_rbyte_ok {s t : State} {r : Option Byte} (hlive : s.flt.faulted = false) (hopen : s.r.isOpen = true)
    (h : readByte s = .ok t r) : exec .rbyte s = .next (t.setRes (byteResult r)) := by
  rw [exec_rbyte hlive, hopen, require_true, readByteToRes, h]
  rfl

/-- RBYTE that faults has its own word recorded (R128, R275). -/
theorem exec_rbyte_raise {s t : State} {x : FaultCode} (hlive : s.flt.faulted = false) (hopen : s.r.isOpen = true)
    (h : readByte s = .raise x t) : exec .rbyte s = .next (raiseFault x 0x1A00#16 t) := by
  rw [exec_rbyte hlive, hopen, require_true, readByteToRes, h]
  rfl

/-- Settles O17: each way RBYTE can go, from what a read of eight bits can do. -/
theorem rbyteDeliversTheNextByte : Obligations.RbyteDeliversTheNextByte := by
  unfold Obligations.RbyteDeliversTheNextByte
  intro s hlive hopen
  refine ⟨fun v rest hb hrel hroom => ?_, fun hshort hrel hroom => ?_, fun t ht hfault => ?_⟩
  · obtain ⟨t, ht, took, hrest⟩ := readByte_completes (bits8_length v) hb hrel hroom
    rw [val8_bits8] at ht
    exact ⟨_, exec_rbyte_ok hlive hopen ht, took.frame.setRes _, took.isOpen.trans hopen, rfl, hrest, took.rbits⟩
  · obtain ⟨t, ht, took, heos⟩ := readByte_eos hshort hrel hroom
    have hnil : remainingBits t = [] := by simp [remainingBits, heos]
    exact ⟨_, exec_rbyte_ok hlive hopen ht, took.frame.setRes _, took.isOpen.trans hopen, rfl, heos, hnil, took.rbits⟩
  · have keeps := readByte_writesOnly.endState s
    cases h : readByte s with
    | ok u r =>
      rw [h] at keeps
      rw [exec_rbyte_ok hlive hopen h] at ht
      cases ht
      have hflt : u.flt = s.flt := keeps .flt (by decide)
      rw [State.setRes_flt, hflt, hlive] at hfault
      cases hfault
    | raise x u =>
      rw [h] at keeps
      rw [exec_rbyte_raise hlive hopen h] at ht
      cases ht
      obtain ⟨hx, k, hk, hcount⟩ := readBitsInto_raise h
      have hres : u.res = s.res := keeps .res (by decide)
      refine ⟨(raiseFault_res _ _ _).trans hres, by simp, by simpa using hx, k, hk, ?_⟩
      rw [raiseFault_r]
      split <;> exact hcount

end Sys2Proof.Machine
end

section
/-! The acceptor's answer to one token, and the header tokens as instructions (42_tree_serdes.md R172, R177;
30_encoding.md R96, R97). -/

namespace Sys2Proof.Machine

variable {p : Params}

/-- INTERNAL without room in TM or STK (R172). -/
theorem accept_internal_full {s : State p} (h : s.nn = p.nodeCap ∨ s.sp = p.stackCap) :
    accept .internal s = .raise .treeOvf s := by
  rcases accept_cases .internal s with e | ⟨hn, hs, _, _⟩ | ⟨_, _, htok, _⟩
  · exact e
  · exact absurd h (not_or.mpr ⟨hn, hs⟩)
  · cases htok

/-- LEAF without room in TM (R172). -/
theorem accept_leaf_full {s : State p} (v : Byte) (h : s.nn = p.nodeCap) :
    accept (.leaf v) s = .raise .treeOvf s := by
  rcases accept_cases (.leaf v) s with e | ⟨hn, _⟩ | ⟨hn, _⟩
  · exact e
  · exact absurd h hn
  · exact absurd h hn

/-- INTERNAL with room appends an internal node without a right link and stacks its index (R172). -/
theorem accept_internal_room {s : State p} (hn : s.nn ≠ p.nodeCap) (hs : s.sp ≠ p.stackCap) :
    ∃ t, accept .internal s = .ok t () ∧ MemoryFrame s t ∧ t.ctl = s.ctl ∧
      t.mem.tm = s.mem.tm ++ [.int none] ∧ t.mem.stk = BitVec.ofNat p.idxW s.nn :: s.mem.stk ∧
      t.mem.cm = s.mem.cm := by
  have e : accept .internal s = .ok (afterInternal s) () := acceptInternal_ok hn hs
  exact ⟨_, e, accept_memoryFrame e, rfl, rfl, rfl, rfl⟩

/-- LEAF with no node waiting completes the tree (R172). -/
theorem accept_leaf_last {s : State p} (v : Byte) (hn : s.nn ≠ p.nodeCap) (hstk : s.mem.stk = []) :
    ∃ t, accept (.leaf v) s = .ok t () ∧ MemoryFrame s t ∧
      t.ctl = { s.ctl with treeValid := true, tload := false } ∧
      t.mem = { s.mem with tm := s.mem.tm ++ [.leaf v] } := by
  have e : accept (.leaf v) s = .ok (afterTree (.leaf v) s) () := acceptLeaf_ok v hn
  refine ⟨_, e, accept_memoryFrame e, ?_, ?_⟩ <;> rw [afterTree, hstk] <;> rfl

/-- Where a right link is written, an internal node has it (R26, R172). -/
theorem setRight_same {q : Nat} {r : Index p} {tm : List (TmEntry p)} {old : Option (Index p)}
    (h : tm[q]? = some (.int old)) : (setRight q r tm)[q]? = some (.int (some r)) := by
  simp [setRight, h, TmEntry.withRight]

/-- LEAF with a node waiting appends a leaf and gives that node its right link (R172). -/
theorem accept_leaf_waiting {s : State p} (v : Byte) {q : Index p} {rest : List (Index p)} (hn : s.nn ≠ p.nodeCap)
    (hstk : s.mem.stk = q :: rest) :
    ∃ t, accept (.leaf v) s = .ok t () ∧ MemoryFrame s t ∧ t.ctl = s.ctl ∧
      t.mem.stk = rest ∧ t.mem.cm = s.mem.cm ∧ t.nn = s.nn + 1 ∧
      (q.toNat < s.nn → ∀ old, s.mem.tm[q.toNat]? = some (.int old) →
        t.mem.tm[q.toNat]? = some (.int (some (BitVec.ofNat p.idxW (s.nn + 1))))) ∧
      (∀ i, i < s.nn → i ≠ q.toNat → t.mem.tm[i]? = s.mem.tm[i]?) ∧
      (q.toNat ≠ s.nn → t.mem.tm[s.nn]? = some (.leaf v)) := by
  have e : accept (.leaf v) s = .ok (afterTree (.leaf v) s) () := acceptLeaf_ok v hn
  have hafter : afterTree (.leaf v) s = s.setMem { s.mem with
      tm := setRight q.toNat (BitVec.ofNat p.idxW (s.nn + 1)) (s.mem.tm ++ [.leaf v]), stk := rest } := by
    rw [afterTree, hstk]; rfl
  have frame := accept_memoryFrame e
  rw [hafter] at e frame
  refine ⟨_, e, frame, rfl, rfl, rfl, ?_, fun hq old hold => ?_, fun i hi hne => ?_, fun hne => ?_⟩
  · simp [State.nn]
  · exact setRight_same (by rw [List.getElem?_append_left hq]; exact hold)
  · exact (setRight_other hne.symm).trans (List.getElem?_append_left hi)
  · exact (setRight_other hne).trans List.getElem?_concat_length

/-- A header token has DESER's word and checks (R90, R177; log 9). -/
theorem exec_token {s : State} (tok : Token) (hlive : s.flt.faulted = false) :
    exec tok.toInstr s = finish 0x2400#16 (require s.r.isOpen .notOpen
      (fun s => if s.ctl.treeValid then .ok s () else accept tok s) s) := by
  cases tok with
  | internal => exact exec_internal hlive
  | leaf v => exact exec_leaf v hlive

theorem exec_token_closed {s : State} (tok : Token) (hlive : s.flt.faulted = false) (hclosed : s.r.isOpen = false) :
    exec tok.toInstr s = .next (raiseFault .notOpen 0x2400#16 s) := by
  rw [exec_token tok hlive, hclosed, require_false, finish_raise]

/-- Once the tree is complete no token is taken (R177). -/
theorem exec_token_complete {s : State} (tok : Token) (hlive : s.flt.faulted = false) (hopen : s.r.isOpen = true)
    (hvalid : s.ctl.treeValid = true) : exec tok.toInstr s = .next s := by
  rw [exec_token tok hlive, hopen, require_true, if_pos hvalid, finish_ok]

/-- Before that it is accepted (R177). -/
theorem exec_token_accept {s : State} (tok : Token) (hlive : s.flt.faulted = false) (hopen : s.r.isOpen = true)
    (hvalid : s.ctl.treeValid = false) : exec tok.toInstr s = finish 0x2400#16 (accept tok s) := by
  rw [exec_token tok hlive, hopen, require_true, hvalid, if_neg Bool.false_ne_true]

/-- Settles O24: a header token fails DESER's check, is left alone, or is accepted as the acceptor answers. -/
theorem headerTokensBuildTheTree : Obligations.HeaderTokensBuildTheTree := by
  unfold Obligations.HeaderTokensBuildTheTree
  refine ⟨fun s v hlive hclosed => ⟨exec_token_closed .internal hlive hclosed, exec_token_closed (.leaf v) hlive hclosed⟩,
    fun s v hlive hopen hvalid =>
      ⟨exec_token_complete .internal hlive hopen hvalid, exec_token_complete (.leaf v) hlive hopen hvalid⟩,
    fun s hlive hopen hvalid => ?_⟩
  have einternal : exec .internal s = finish 0x2400#16 (accept .internal s) :=
    exec_token_accept .internal hlive hopen hvalid
  have eleaf (v : Byte) : exec (.leaf v) s = finish 0x2400#16 (accept (.leaf v) s) :=
    exec_token_accept (.leaf v) hlive hopen hvalid
  refine ⟨fun hfull => ?_, fun v hfull => ?_, fun hn hs => ?_, fun v hn hstk => ?_, fun v q rest hn hstk => ?_⟩
  · rw [einternal, accept_internal_full hfull, finish_raise]
  · rw [eleaf, accept_leaf_full v hfull, finish_raise]
  · obtain ⟨t, e, h⟩ := accept_internal_room hn hs
    exact ⟨t, by rw [einternal, e, finish_ok], h⟩
  · obtain ⟨t, e, h⟩ := accept_leaf_last v hn hstk
    exact ⟨t, by rw [eleaf, e, finish_ok], h⟩
  · obtain ⟨t, e, h⟩ := accept_leaf_waiting v hn hstk
    exact ⟨t, by rw [eleaf, e, finish_ok], h⟩

/-- An iteration of DESER's loop accepts the token it fetches and goes on (R177). -/
theorem deserLoop_fetched {s s1 : State p} {tok : Token} (n : Nat) (hvalid : s.ctl.treeValid = false)
    (h : fetchToken s = .ok s1 (some tok)) :
    deserLoop (n + 1) s = (accept tok s1).andThen fun s2 _ => deserLoop n s2 := by
  rw [deserLoop, hvalid, if_neg Bool.false_ne_true, h, Micro.andThen_ok]

/-- Settles O25: the fetch takes the token's bits, and the loop and the token's own instruction both accept it. -/
theorem deserRunsTheFetchedToken : Obligations.DeserRunsTheFetchedToken := by
  unfold Obligations.DeserRunsTheFetchedToken
  intro s tok rest n htok hlive hopen hvalid hrel hroom
  obtain ⟨s1, hfetch, took, hrest⟩ := fetchToken_completes (takeToken_ok htok) hrel hroom
  have frame := took.frame
  exact ⟨s1, hfetch, frame, took.res, hrest, took.rbits, deserLoop_fetched n hvalid hfetch,
    exec_token_accept tok (by rw [frame.flt, hlive]) (by rw [took.isOpen, hopen]) (by rw [frame.ctl, hvalid])⟩

end Sys2Proof.Machine
end

section
/-! The payload bits as instructions (30_encoding.md R98; 45_decoder.md R222, R224): DECODE's checks, then a step of the
walk in the mode the tree's shape chooses. -/

namespace Sys2Proof.Machine

variable {p : Params}

/-- A payload bit has DECODE's word and checks (R90, R221; log 9). -/
theorem exec_payloadBit {s : State} (b : Bool) (hlive : s.flt.faulted = false) :
    exec (decodeStep b) s = finish 0x3800#16 (decodeChecked (payloadStep b) s) := by
  cases b with
  | false => exact exec_left hlive
  | true => exact exec_right hlive

theorem decodeChecked_closed {body : State p → Micro p Unit} {s : State p} (h : s.r.isOpen = false) :
    decodeChecked body s = .raise .notOpen s := by rw [decodeChecked, h, require_false]

theorem decodeChecked_noTree {body : State p → Micro p Unit} {s : State p} (hopen : s.r.isOpen = true)
    (h : s.ctl.treeValid = false) : decodeChecked body s = .raise .noTree s := by
  rw [decodeChecked, hopen, require_true, h, require_false]

theorem decodeChecked_runs {body : State p → Micro p Unit} {s : State p} (hopen : s.r.isOpen = true)
    (hvalid : s.ctl.treeValid = true) : decodeChecked body s = body s := by
  rw [decodeChecked, hopen, require_true, hvalid, require_true]

/-- With a single leaf in TM a `1` is its symbol and a `0` a pad bit (R224). -/
theorem payloadStep_rootLeaf {s : State p} {v : Byte} (b : Bool) (h : HoldsTree s.mem (.leaf v)) :
    payloadStep b s = if b then symEmit v s else .ok s () := by
  obtain ⟨hroot, hval⟩ := rootIsLeaf_leaf h
  rw [payloadStep, hroot, if_pos rfl, rootLeafStep, hval]

/-- With two leaves or more the cursor walks (R222). -/
theorem payloadStep_node {s : State p} {l r : Tree} (b : Bool) (h : HoldsTree s.mem (.node l r)) :
    payloadStep b s = walkStep b s := by
  rw [payloadStep, rootIsLeaf_node h, if_neg Bool.false_ne_true]

/-- At an internal node nothing is pending, and the cursor descends (R222). -/
theorem walkStep_internal {s : State p} (b : Bool) {x : Option (Index p)}
    (h : s.mem.tm[s.ctl.cur.toNat]? = some (.int x)) : walkStep b s = .ok (descend b s) () := by
  rw [walkStep, emitPending, readNode_written h]
  rfl

/-- A leaf in TM is a subtree by itself (R38). -/
theorem SubtreeAt.of_leaf {tm : List (TmEntry p)} {i : Nat} {v : Byte} (h : tm[i]? = some (.leaf v)) :
    SubtreeAt tm i (.leaf v) := by
  obtain ⟨hi, hv⟩ := List.getElem?_eq_some_iff.mp h
  exact ⟨tm.take i, tm.drop (i + 1), by simp [layout, ← hv], by simpa using hi.le⟩

theorem descend_left (s : State p) : descend false s = setCur (s.ctl.cur + 1#p.idxW) s := rfl

theorem descend_right {s : State p} {x : Index p} (h : s.mem.tm[s.ctl.cur.toNat]? = some (.int (some x))) :
    descend true s = setCur x s := by
  rw [descend, if_pos rfl, readRight_written h]

/-- A counter that is not at its last value has room for one more (R247 (a)). -/
theorem counter_room {c : Counter p} (h : c ≠ BitVec.allOnes p.cntW) : c.toNat + 1 < 2 ^ p.cntW := by
  have hne : c.toNat ≠ 2 ^ p.cntW - 1 := fun e => h (BitVec.eq_of_toNat_eq (e.trans BitVec.toNat_allOnes.symm))
  have := c.isLt
  omega

theorem Emitted.decodeFrame {b : Byte} {s t : State p} (h : Emitted b s t) : DecodeFrame s t :=
  ⟨h.w, h.res, h.mem, h.enc, h.cfg, h.flt, by rw [h.ctl], h.snk, h.inputs, h.readData⟩

/-- The cursor is no part of DECODE's frame. -/
theorem DecodeFrame.setCur {s t : State p} (h : DecodeFrame s t) (x : Index p) : DecodeFrame s (setCur x t) :=
  ⟨h.w, h.res, h.mem, h.enc, h.cfg, h.flt, by rw [Machine.setCur, State.setCtl_ctl, h.ctl], h.snk, h.inputs,
    h.readData⟩

/-- Where a payload bit leads from the root of a tree with two leaves or more (R222, R248 (a)). -/
def rootChild (l : Tree) (p : Params) : Bool → Index p
  | false => 1#p.idxW
  | true => BitVec.ofNat p.idxW (1 + l.size)

theorem descend_root {s : State p} {l r : Tree} (b : Bool) (h : HoldsTree s.mem (.node l r)) :
    descend b (setCur 0#p.idxW s) = setCur (rootChild l p b) s := by
  cases b with
  | false => rw [descend_left]; simp [setCur, rootChild]
  | true =>
    have hroot := (SubtreeAt.root h).node.1
    rw [Nat.zero_add] at hroot
    exact descend_right (by simpa [setCur, rootChild] using hroot)

/-- A payload bit at a pending leaf, with a reliable symbol sink and room to count: the leaf is emitted and the bit is
read from the root (R222). -/
theorem walkStep_pendingLeaf {s : State p} {l r : Tree} {v : Byte} (b : Bool) (htree : HoldsTree s.mem (.node l r))
    (hleaf : s.mem.tm[s.ctl.cur.toNat]? = some (.leaf v)) (hrel : symReliable s)
    (hroom : s.cnt.dec.toNat + 1 < 2 ^ p.cntW) :
    ∃ t, Emitted v s t ∧ walkStep b s = .ok (setCur (rootChild l p b) t) () := by
  obtain ⟨t, ht, emitted⟩ := symEmit_completes v hrel hroom
  have htree' : HoldsTree t.mem (.node l r) := by rw [emitted.mem]; exact htree
  exact ⟨t, emitted, by rw [walkStep_leaf b (SubtreeAt.of_leaf hleaf), ht, Micro.andThen_ok, descend_root b htree']⟩

/-- Settles O42: DECODE's checks, then the step of the walk that the tree and the cursor choose. -/
theorem payloadBitsWalkTheTree : Obligations.PayloadBitsWalkTheTree := by
  unfold Obligations.PayloadBitsWalkTheTree
  refine ⟨fun s hlive hclosed => ?_, fun s hlive hopen hnone => ?_, fun s hlive hopen hvalid => ?_⟩
  · have e (b : Bool) : exec (decodeStep b) s = .next (raiseFault .notOpen 0x3800#16 s) := by
      rw [exec_payloadBit b hlive, decodeChecked_closed hclosed, finish_raise]
    exact ⟨e false, e true⟩
  · have e (b : Bool) : exec (decodeStep b) s = .next (raiseFault .noTree 0x3800#16 s) := by
      rw [exec_payloadBit b hlive, decodeChecked_noTree hopen hnone, finish_raise]
    exact ⟨e false, e true⟩
  have e (b : Bool) : exec (decodeStep b) s = finish 0x3800#16 (payloadStep b s) := by
    rw [exec_payloadBit b hlive, decodeChecked_runs hopen hvalid]
  refine ⟨fun v htree => ⟨?_, fun hrel hcnt => ?_⟩, fun l r htree _ => ⟨fun x hx => ?_, fun v hleaf hrel hcnt => ?_⟩⟩
  · exact (e false).trans (by rw [payloadStep_rootLeaf false htree]; rfl)
  · obtain ⟨u, hu, emitted⟩ := symEmit_completes v hrel (counter_room hcnt)
    have eright : exec .right s = .next u := (e true).trans (by
      rw [payloadStep_rootLeaf true htree, if_pos rfl, hu, finish_ok])
    exact ⟨u, eright, emitted.decodeFrame, emitted.r, emitted.src, emitted.ctl, emitted.data, emitted.dec⟩
  · have ewalk (b : Bool) : exec (decodeStep b) s = .next (descend b s) := by
      rw [e, payloadStep_node b htree, walkStep_internal b hx, finish_ok]
    exact ⟨ewalk false, (ewalk true).trans (by rw [descend_right hx]; rfl)⟩
  · have step (b : Bool) : ∃ t, exec (decodeStep b) s = .next t ∧ DecodeFrame s t ∧
        t.env.sym.data = s.env.sym.data ++ [v] ∧ t.cnt.dec.toNat = s.cnt.dec.toNat + 1 ∧ t.r = s.r ∧
        t.ctl = { s.ctl with cur := rootChild l Params.default b } := by
      obtain ⟨t, emitted, ht⟩ := walkStep_pendingLeaf b htree hleaf hrel (counter_room hcnt)
      exact ⟨setCur (rootChild l Params.default b) t, by rw [e, payloadStep_node b htree, ht, finish_ok],
        emitted.decodeFrame.setCur _, emitted.data,
        emitted.dec, emitted.r, by rw [setCur, State.setCtl_ctl, emitted.ctl]⟩
    obtain ⟨a, ea, fa, da, ca, ra, la⟩ := step false
    obtain ⟨b, eb, fb, db, cb, rb, lb⟩ := step true
    exact ⟨a, b, ea, eb, fa, fb, da, db, ca, cb, ra, rb, la, lb⟩

end Sys2Proof.Machine
end

section
/-! Packing and unpacking as functions (40_bitstream.md R130 to R132; 20_memory.md R70): `unpack` loses nothing, and it
takes `pack(w)` back to `w` and the pad zeros. -/

namespace Sys2Proof.Machine

theorem unpack_injective : Function.Injective unpack := by
  intro l m h
  induction l generalizing m with
  | nil => cases m with
    | nil => rfl
    | cons c m => cases h
  | cons b l ih => cases m with
    | nil => cases h
    | cons c m =>
      obtain ⟨hbyte, hrest⟩ := List.append_inj (h : bits8 b ++ unpack l = bits8 c ++ unpack m) rfl
      rw [← val8_bits8 b, hbyte, val8_bits8, ih hrest]

/-- Bit positions counted byte by byte are the bit positions counted through. -/
theorem flatMap_bytes_range {α : Type} (f : Nat → α) (m : Nat) :
    (List.range m).flatMap (fun k => (List.range 8).map fun j => f (8 * k + j)) = (List.range (8 * m)).map f := by
  induction m with
  | zero => rfl
  | succ m ih =>
    rw [List.range_succ (n := m), List.flatMap_append, ih, Nat.mul_succ, List.range_add, List.map_append, List.map_map]
    simp [Function.comp_def]

/-- A list read past its end by `getD` is the list, then the default. -/
theorem map_getD_range {α : Type} (w : List α) (d : α) (n : Nat) :
    (List.range (w.length + n)).map (fun i => w.getD i d) = w ++ List.replicate n d := by
  refine List.ext_getElem (by simp) fun i hi _ => ?_
  rw [List.getElem_map, List.getElem_range, List.getElem_append]
  split <;> simp [*]

theorem padCount_le (n : Nat) : padCount n ≤ 7 := by
  unfold padCount; omega

/-- The bytes of `pack(w)` hold its bits and the pad (R70). -/
theorem add_padCount (n : Nat) : n + padCount n = 8 * ((n + 7) / 8) := by
  unfold padCount; omega

theorem pack_length (w : List Bool) : (pack w).length = (w.length + 7) / 8 := by simp [pack]

/-- R132: unpacking what was packed gives the bits and the pad zeros. -/
theorem unpack_pack (w : List Bool) : unpack (pack w) = w ++ List.replicate (padCount w.length) false :=
  calc unpack (pack w)
    _ = (List.range ((w.length + 7) / 8)).flatMap fun k =>
          (List.range 8).map fun j => w.getD (8 * k + j) false := by
        rw [unpack, pack, List.flatMap_map]
        exact List.flatMap_congr fun k _ => bits8_val8 (by simp)
    _ = (List.range (w.length + padCount w.length)).map fun i => w.getD i false := by
        rw [flatMap_bytes_range fun i => w.getD i false, add_padCount]
    _ = w ++ List.replicate (padCount w.length) false := map_getD_range w false _

/-- Bytes that spell the bits of `w` and its pad are `pack(w)` (R130). -/
theorem eq_pack {bytes : List Byte} {w : List Bool}
    (h : unpack bytes = w ++ List.replicate (padCount w.length) false) : bytes = pack w :=
  unpack_injective (h.trans (unpack_pack w).symm)

end Sys2Proof.Machine
end

section
/-! The packer over many writes (40_bitstream.md R122, R130): what a faulting write has done, and what the accumulator
holds. -/

namespace Sys2Proof.Machine

variable {p : Params}

/-- A bit that faults was refused its byte or cannot be counted, and the sink gains nothing by it (R122). -/
theorem writeBit_raise {b : Bool} {x : FaultCode} {s t : State p} (h : writeBit b s = .raise x t) :
    (x = .ioSink ∨ x = .countOvf) ∧ t.env.snk.data = s.env.snk.data := by
  rcases writeBit_cases b s with ⟨_, e⟩ | ⟨_, _, e⟩ | ⟨_, _, _, e⟩ | ⟨_, _, _, e⟩ <;> rw [e] at h <;> cases h
  · exact ⟨.inr rfl, rfl⟩
  · exact ⟨.inl rfl, by simp⟩

/-- A write of several bits that faults splits at the bit that faults (R276). -/
theorem writeBits_raise {bits : List Bool} {x : FaultCode} {s t : State p} (h : writeBits bits s = .raise x t) :
    ∃ pre b post u, bits = pre ++ b :: post ∧ writeBits pre s = .ok u () ∧ writeBit b u = .raise x t := by
  induction bits generalizing s with
  | nil => cases h
  | cons b bits ih =>
    rcases Micro.andThen_eq_raise.mp h with h1 | ⟨s1, _, h1, h2⟩
    · exact ⟨[], b, bits, s, rfl, rfl, h1⟩
    · obtain ⟨pre, c, post, u, rfl, hpre, hbit⟩ := ih h2
      exact ⟨b :: pre, c, post, u, rfl, by rw [writeBits, h1, Micro.andThen_ok, hpre], hbit⟩

/-- Settles O30: the list splits at the bit that faults, and the bits before it are a completed write. -/
theorem writeFaultsArePrecise : Obligations.WriteFaultsArePrecise := by
  unfold Obligations.WriteFaultsArePrecise
  intro bits s t x h
  obtain ⟨pre, b, post, u, hsplit, hpre, hbit⟩ := writeBits_raise h
  have wrote := writeBits_wrote hpre
  obtain ⟨hx, hdata⟩ := writeBit_raise hbit
  exact ⟨pre, b, post, u, hsplit, hpre, wrote.written, wrote.wbits, hbit, hx, hdata⟩

/-- `W.acc` is the number the buffered bits spell: its other bits are zero (R21). -/
def AccHoldsBuffer (w : Packer p) : Prop := w.acc = val8 (bufferedBits w)

theorem accHoldsBuffer_empty {w : Packer p} (hcnt : w.cnt = 0) (hacc : w.acc = 0#8) : AccHoldsBuffer w := by
  simp [AccHoldsBuffer, bufferedBits, hcnt, hacc, val8]

theorem writeBit_accHoldsBuffer {b : Bool} {s t : State p} (hs : AccHoldsBuffer s.w) (h : writeBit b s = .ok t ()) :
    AccHoldsBuffer t.w := by
  rcases writeBit_cases b s with ⟨_, e⟩ | ⟨_, h7, e⟩ | ⟨_, _, _, e⟩ | ⟨_, _, _, e⟩ <;> rw [e] at h <;> cases h
  · rw [AccHoldsBuffer, State.setW_w, bufferedBits_shiftIn _ _ _ h7, val8_append, ← hs]
  · exact accHoldsBuffer_empty rfl rfl

theorem writeBits_accHoldsBuffer {bits : List Bool} {s t : State p} (hs : AccHoldsBuffer s.w)
    (h : writeBits bits s = .ok t ()) : AccHoldsBuffer t.w := by
  induction bits generalizing s with
  | nil => cases h; exact hs
  | cons b bits ih =>
    obtain ⟨s1, _, h1, h2⟩ := Micro.andThen_eq_ok.mp h
    exact ih (writeBit_accHoldsBuffer hs h1) h2

end Sys2Proof.Machine
end

section
/-! FLUSH and CLOSEW as commands (40_bitstream.md R124, R125; 60_exceptions.md R275): the padded byte, and the refused
emit. -/

namespace Sys2Proof.Machine

variable {p : Params}

/-- Fault entry by a refused emit of an open packer: closed and detached without a flush, its bits and the sink's bytes
kept (R122, R275). -/
theorem raiseFault_ioSink {w : CmdWord} {s : State p} (hopen : s.w.isOpen = true) :
    (raiseFault .ioSink w s).w = { s.w with isOpen := false } ∧
      (raiseFault .ioSink w s).env.snk = { s.env.snk with attached := false } := by
  rw [(raiseFault_packer .ioSink w s).1, (raiseFault_packer .ioSink w s).2, closeSinkOnFault, if_pos hopen,
    if_pos rfl]
  exact ⟨rfl, by simp [releaseSink]⟩

/-- What a flush adds to the sink: nothing, or the buffered bits on top of a byte (R70, R124). -/
def flushedBytes (w : Packer p) : List Byte := if w.cnt = 0 then [] else [padByte w.acc w.cnt]

theorem padCount_of_buffered {w : Packer p} (h : w.cnt ≠ 0) : padCount w.cnt.val = 8 - w.cnt.val := by
  unfold padCount; omega

/-- A flush appends the buffered bits and the pad to the stream (R70, R124). -/
theorem unpack_flushedBytes (w : Packer p) :
    unpack (flushedBytes w) = bufferedBits w ++ List.replicate (padCount w.cnt.val) false := by
  unfold flushedBytes
  by_cases h : w.cnt = 0
  · simp [h, bufferedBits, padCount]
  · rw [if_neg h, unpack_cons, bits8_padByte, unpack_nil, List.append_nil, padCount_of_buffered h]

/-- A flush with no bit buffered (R124). -/
theorem flushPacker_empty {s : State p} (h : s.w.cnt = 0) : flushPacker s = .ok s () := by
  rw [flushPacker, if_pos h]

/-- A flush with bits buffered and an emit answered ok (R124). -/
theorem flushPacker_emits {s : State p} (hcnt : s.w.cnt ≠ 0) (ha : s.env.snk.answer = true) :
    ∃ t, flushPacker s = .ok t () ∧ PackerFrame s t ∧ t.cnt = s.cnt ∧ t.w = { s.w with acc := 0#8, cnt := 0 } ∧
      t.env.snk.attached = s.env.snk.attached ∧ t.env.snk.data = s.env.snk.data ++ flushedBytes s.w := by
  rw [flushPacker, if_neg hcnt, emitPacked_ok ha]
  exact ⟨_, rfl, ⟨rfl, rfl, rfl, rfl, rfl, rfl, by simp, by simp, by simp, by simp⟩, rfl, rfl, by simp,
    by simp [flushedBytes, hcnt]⟩

/-- A flush with bits buffered and a refused emit (R124). -/
theorem flushPacker_refused {s : State p} (hcnt : s.w.cnt ≠ 0) (ha : s.env.snk.answer = false) :
    flushPacker s = .raise .ioSink (s.port (.snkEmit (padByte s.w.acc s.w.cnt) false)) := by
  rw [flushPacker, if_neg hcnt, emitPacked_fail ha]

/-- Fault entry by a flush's refused emit (R124, R125, R275). -/
theorem raiseFault_refusedFlush {w : CmdWord} {s : State p} (b : Byte) (hopen : s.w.isOpen = true) :
    let t := raiseFault .ioSink w (s.port (.snkEmit b false))
    t.flt = { faulted := true, code := .ioSink, cmdw := w } ∧ t.w = { s.w with isOpen := false } ∧
      t.env.snk.data = s.env.snk.data ∧ t.env.snk.attached = false := by
  obtain ⟨hw, hsnk⟩ := raiseFault_ioSink (w := w) (s := s.port (.snkEmit b false)) hopen
  exact ⟨raiseFault_flt _ _ _, hw, by rw [hsnk]; simp, by rw [hsnk]⟩

/-- Settles O12: an empty packer has nothing to flush; otherwise the sink's answer decides. -/
theorem flushPadsAndEmits : Obligations.FlushPadsAndEmits := by
  unfold Obligations.FlushPadsAndEmits
  refine ⟨rfl, fun s hlive => ⟨fun hclosed => ?_, fun hopen hcnt => ?_, fun hopen hcnt ha => ?_,
    fun hopen hcnt ha => ?_⟩⟩
  · rw [exec_flush hlive, hclosed, require_false, finish_raise]
  · rw [exec_flush hlive, hopen, require_true, flushPacker_empty hcnt, finish_ok]
  · obtain ⟨t, ht, frame, hcounts, hw, hatt, hdata⟩ := flushPacker_emits hcnt ha
    have hbytes : flushedBytes s.w = [s.w.acc <<< (8 - s.w.cnt.val)] := if_neg hcnt
    refine ⟨t, by rw [exec_flush hlive, hopen, require_true, ht, finish_ok], frame, hcounts, hw, hatt,
      hbytes ▸ hdata, ?_⟩
    rw [hdata, unpack_append, unpack_flushedBytes, padCount_of_buffered hcnt, writtenBits, List.append_assoc]
  · obtain ⟨hflt, hw, hdata, -⟩ := raiseFault_refusedFlush (w := 0x1300#16) (padByte s.w.acc s.w.cnt) hopen
    exact ⟨_, by rw [exec_flush hlive, hopen, require_true, flushPacker_refused hcnt ha, finish_raise],
      hflt, hw, hdata⟩

/-- CLOSEW when nothing is to be emitted or the emit is answered ok (R125). -/
theorem exec_closew_completes {s : State} (hlive : s.flt.faulted = false) (hopen : s.w.isOpen = true)
    (h : s.w.cnt = 0 ∨ s.env.snk.answer = true) :
    ∃ t, exec .closew s = .next t ∧ PackerFrame s t ∧ t.cnt = s.cnt ∧
      t.w.isOpen = false ∧ t.w.cnt = 0 ∧ t.w.wbits = s.w.wbits ∧ (s.w.cnt ≠ 0 → t.w.acc = 0#8) ∧
      t.env.snk.attached = false ∧ t.env.snk.data = s.env.snk.data ++ flushedBytes s.w := by
  have e : exec .closew s = finish 0x1400#16 ((flushPacker s).andThen fun t _ => .ok (releaseSink t) ()) := by
    rw [exec_closew hlive, hopen, require_true]; rfl
  have released (t : State) : PackerFrame t (releaseSink t) :=
    ⟨rfl, rfl, rfl, rfl, rfl, rfl, rfl, rfl, rfl, rfl⟩
  by_cases hcnt : s.w.cnt = 0
  · rw [flushPacker_empty hcnt, Micro.andThen_ok, finish_ok] at e
    exact ⟨_, e, released s, rfl, rfl, hcnt, rfl, fun h => absurd hcnt h, rfl,
      by simp [releaseSink, flushedBytes, hcnt]⟩
  · obtain ⟨t, ht, frame, hcounts, hw, -, hdata⟩ := flushPacker_emits hcnt (h.resolve_left hcnt)
    rw [ht, Micro.andThen_ok, finish_ok] at e
    exact ⟨_, e, frame.trans (released t), hcounts, rfl, by simp [releaseSink, hw], by simp [releaseSink, hw],
      fun _ => by simp [releaseSink, hw], rfl, hdata⟩

/-- Settles O13: CLOSEW completes or its flush is refused. -/
theorem closewFlushesAndReleases : Obligations.ClosewFlushesAndReleases := by
  unfold Obligations.ClosewFlushesAndReleases
  refine ⟨rfl, fun s hlive => ⟨fun hclosed => ?_, exec_closew_completes hlive, fun hopen hcnt ha => ?_⟩⟩
  · rw [exec_closew hlive, hclosed, require_false, finish_raise]
  · exact ⟨_, by rw [exec_closew hlive, hopen, require_true, flushAndRelease, flushPacker_refused hcnt ha,
      Micro.andThen_raise, finish_raise], raiseFault_refusedFlush (padByte s.w.acc s.w.cnt) hopen⟩

end Sys2Proof.Machine
end

section
/-! The packer as a function (40_bitstream.md R130): from an empty packer the bytes emitted and the bits buffered are
`pack` of what was written. -/

namespace Sys2Proof.Machine

variable {p : Params}

/-- From an empty packer, the bytes emitted and the bits buffered spell what was written (R130). -/
theorem Wrote.from_empty {bits : List Bool} {s t : State p} (h : Wrote bits s t) (hcnt : s.w.cnt = 0) :
    ∃ bytes, t.env.snk.data = s.env.snk.data ++ bytes ∧ unpack bytes ++ bufferedBits t.w = bits ∧
      bytes.length = bits.length / 8 ∧ t.w.cnt.val = bits.length % 8 := by
  obtain ⟨bytes, hbytes⟩ := h.grown
  have hspell : unpack bytes ++ bufferedBits t.w = bits := by
    have hs : bufferedBits s.w = [] := by simp [bufferedBits, hcnt]
    have := h.written
    rw [writtenBits, writtenBits, ← hbytes, unpack_append, hs, List.append_nil, List.append_assoc] at this
    exact List.append_cancel_left this
  have hcount : 8 * bytes.length + t.w.cnt.val = bits.length := by
    rw [← hspell, List.length_append, unpack_length, bufferedBits_length]
  have := t.w.cnt.isLt
  exact ⟨bytes, hbytes.symm, hspell, by omega, by omega⟩

/-- Writing bits to an empty packer and closing it (R130). -/
theorem writeBits_closew_pack {bits : List Bool} {s : State} (hlive : s.flt.faulted = false)
    (hopen : s.w.isOpen = true) (hcnt : s.w.cnt = 0) (hacc : s.w.acc = 0#8) (hrel : sinkReliable s)
    (hroom : writeRoom s bits.length) :
    ∃ t u, writeBits bits s = .ok t () ∧ PackerFrame s t ∧
      t.env.snk.data = s.env.snk.data ++ (pack bits).take (bits.length / 8) ∧ t.w.cnt.val = bits.length % 8 ∧
      t.w.acc = val8 (bits.drop (bits.length - bits.length % 8)) ∧
      exec .closew t = .next u ∧ PackerFrame t u ∧ u.env.snk.data = s.env.snk.data ++ pack bits := by
  obtain ⟨t, ht⟩ := writeBits_completes bits hrel hroom
  have wrote := writeBits_wrote ht
  obtain ⟨bytes, hdata, hspell, hlen, htcnt⟩ := wrote.from_empty hcnt
  obtain ⟨u, hu, frame, -, -, -, -, -, -, hudata⟩ := exec_closew_completes (s := t) (by rw [wrote.frame.flt, hlive])
    (wrote.isOpen.trans hopen) (.inr (headD_of_all (wrote.reliable hrel)))
  have hpack : bytes ++ flushedBytes t.w = pack bits := by
    have hpad : padCount t.w.cnt.val = padCount bits.length := by rw [htcnt]; simp [padCount]
    exact eq_pack (by rw [unpack_append, unpack_flushedBytes, ← List.append_assoc, hspell, hpad])
  have hbuffered : bufferedBits t.w = bits.drop (bits.length - bits.length % 8) := by
    have hskip : bits.length - bits.length % 8 = (unpack bytes).length := by rw [unpack_length]; omega
    rw [hskip]
    exact (List.drop_left.symm.trans (congrArg _ hspell) :)
  refine ⟨t, u, ht, wrote.frame, ?_, htcnt, ?_, hu, frame, ?_⟩
  · rw [hdata, ← hpack, ← hlen, List.take_left]
  · rw [← hbuffered]
    exact writeBits_accHoldsBuffer (accHoldsBuffer_empty hcnt hacc) ht
  · rw [hudata, hdata, List.append_assoc, hpack]

/-- Settles O14: the WBITs are one write of all the bits, which leaves what `pack` says. -/
theorem packerIsPack : Obligations.PackerIsPack := by
  unfold Obligations.PackerIsPack
  intro bits s hlive hopen hcnt hacc hrel hroom
  obtain ⟨t, u, ht, frame, hdata, htcnt, htacc, hu, -, hudata⟩ :=
    writeBits_closew_pack hlive hopen hcnt hacc hrel hroom
  exact ⟨t, u, runHost_wbits hlive hopen ht, by rw [frame.flt, hlive], hdata, htcnt, htacc, hu, hudata⟩

end Sys2Proof.Machine
end

section
/-! WBIT as a command (40_bitstream.md R122): one equation per way a bit can go. -/

namespace Sys2Proof.Machine

variable {p : Params}

/-- The accumulator's number after one more bit (R122, R247 (c)). -/
theorem shiftIn_toNat_mod (v : Byte) (b : Bool) : (shiftIn v b).toNat = (2 * v.toNat + b.toNat) % 256 := by
  have hdisjoint : v <<< 1 &&& (BitVec.ofBool b).setWidth 8 = 0#8 := by
    refine BitVec.eq_of_getLsbD_eq fun i _ => ?_
    rcases i with _ | i <;> simp
  rw [shiftIn, ← BitVec.add_eq_or_of_and_eq_zero _ _ hdisjoint, BitVec.toNat_add, BitVec.toNat_shiftLeft,
    Nat.shiftLeft_eq]
  cases b <;> simp <;> omega

/-- A bit that WBITS cannot count (R122, R247 (a)). -/
theorem writeBit_uncounted {s : State p} (b : Bool) (h : s.w.wbits = counterMax) :
    writeBit b s = .raise .countOvf s := by
  rw [writeBit, h, if_pos atMax_allOnes]

/-- A bit that does not fill the byte (R122). -/
theorem writeBit_buffers {s : State p} (b : Bool) (hroom : writeRoom s 1) (hcnt : s.w.cnt ≠ 7) :
    writeBit b s = .ok (s.setW
      { s.w with acc := shiftIn s.w.acc b, cnt := s.w.cnt + 1, wbits := s.w.wbits + 1#p.cntW }) () := by
  rw [writeBit, atMax_false hroom, if_neg Bool.false_ne_true, if_neg hcnt]

/-- The eighth bit, its byte emitted (R122). -/
theorem writeBit_emits {s : State p} (b : Bool) (hroom : writeRoom s 1) (hcnt : s.w.cnt = 7)
    (ha : s.env.snk.answer = true) :
    writeBit b s = .ok ((s.port (.snkEmit (shiftIn s.w.acc b) true)).setW
      { s.w with acc := 0#8, cnt := 0, wbits := s.w.wbits + 1#p.cntW }) () := by
  rw [writeBit, atMax_false hroom, if_neg Bool.false_ne_true, if_pos hcnt]
  exact emitPacked_ok ha

/-- The eighth bit, its byte refused: buffered and counted (R122). -/
theorem writeBit_refused {s : State p} (b : Bool) (hroom : writeRoom s 1) (hcnt : s.w.cnt = 7)
    (ha : s.env.snk.answer = false) :
    writeBit b s = .raise .ioSink ((s.port (.snkEmit (shiftIn s.w.acc b) false)).setW
      { s.w with acc := shiftIn s.w.acc b, wbits := s.w.wbits + 1#p.cntW }) := by
  rw [writeBit, atMax_false hroom, if_neg Bool.false_ne_true, if_pos hcnt]
  exact emitPacked_fail ha

/-- Settles O10: each way WBIT can go is one equation of `writeBit`; the bits written are those of a completed write. -/
theorem wbitAppendsOneBit : Obligations.WbitAppendsOneBit := by
  unfold Obligations.WbitAppendsOneBit
  intro opd s hlive
  have e (hopen : s.w.isOpen = true) : exec (.wbit opd) s = finish (0x11#8 ++ opd) (writeBit (opd.getLsbD 0) s) := by
    rw [exec_wbit opd hlive, hopen, require_true, operandBit]
  have hacc := shiftIn_toNat_mod s.w.acc (opd.getLsbD 0)
  refine ⟨fun hclosed => ?_, fun hopen hfull => ?_, fun hopen hcount hcnt => ?_, fun hopen hcount hcnt ha => ?_,
    fun hopen hcount hcnt ha => ?_⟩
  · rw [exec_wbit opd hlive, hclosed, require_false, finish_raise]
  · rw [e hopen, writeBit_uncounted _ hfull, finish_raise]
  · have hwrite := writeBit_buffers (opd.getLsbD 0) (counter_room hcount) (by omega)
    have wrote := writeBit_wrote hwrite
    exact ⟨_, by rw [e hopen, hwrite, finish_ok], wrote.frame, rfl, rfl, hopen, Fin.val_add_one_of_lt' (by omega),
      wrote.wbits, hacc, wrote.written⟩
  · have hwrite := writeBit_emits (opd.getLsbD 0) (counter_room hcount) (Fin.ext hcnt) ha
    have wrote := writeBit_wrote hwrite
    exact ⟨_, shiftIn s.w.acc (opd.getLsbD 0), by rw [e hopen, hwrite, finish_ok], wrote.frame, rfl, hopen, rfl, rfl,
      wrote.wbits, by simp, hacc, wrote.written⟩
  · have hroom := counter_room hcount
    have hwrite := writeBit_refused (opd.getLsbD 0) hroom (Fin.ext hcnt) ha
    rw [e hopen, hwrite, finish_raise]
    obtain ⟨hw, hsnk⟩ := raiseFault_ioSink (w := 0x11#8 ++ opd)
      (s := (s.port (.snkEmit (shiftIn s.w.acc (opd.getLsbD 0)) false)).setW
        { s.w with acc := shiftIn s.w.acc (opd.getLsbD 0), wbits := s.w.wbits + 1#Params.default.cntW }) hopen
    refine ⟨_, rfl, raiseFault_flt _ _ _, by rw [hw]; exact hacc, by rw [hw]; exact hcnt, by rw [hw], ?_,
      by rw [hsnk]; simp⟩
    rw [hw]
    exact counter_succ (atMax_false hroom)

end Sys2Proof.Machine
end

section
/-! OPENR and CLOSER as commands (40_bitstream.md R126, R129). -/

namespace Sys2Proof.Machine

variable {p : Params}

/-- An open that is refused (R66, R126). -/
theorem openSource_refused {s : State p} (h : s.env.src.openAnswer = false) :
    openSource s = .raise .ioSource (s.port (.srcOpen false)) := by simp [openSource, h]

/-- An open that is answered ok (R66, R126). -/
theorem openSource_attached {s : State p} (h : s.env.src.openAnswer = true) :
    openSource s = .ok ((s.port (.srcOpen true)).setR
      { s.r with rem := 0, eos := false, rbits := 0#p.cntW, isOpen := true }) () := by simp [openSource, h]

/-- A source just opened has all its bits to come (R126, R131). -/
theorem remainingBits_fresh {s : State p} (heos : s.r.eos = false) (hrem : s.r.rem = 0) (hpos : s.env.src.pos = 0) :
    remainingBits s = unpack s.env.src.data := by
  simp [remainingBits, undeliveredBits, heos, hrem, hpos]

/-- The state after an OPENR answered ok (R126). -/
def afterOpenr (s : State) : State :=
  (s.port (.srcOpen true)).setR { s.r with rem := 0, eos := false, rbits := 0#64, isOpen := true }

theorem exec_openr_attached {s : State} (hlive : s.flt.faulted = false) (hclosed : s.r.isOpen = false)
    (ha : s.env.src.openAnswer = true) : exec .openr s = .next (afterOpenr s) := by
  rw [exec_openr hlive, hclosed, Bool.not_false, require_true, openSource_attached ha, finish_ok]
  rfl

/-- The bits to come after OPENR are those of the source the host provides (R126, R131). -/
theorem remainingBits_afterOpenr (s : State) : remainingBits (afterOpenr s) = unpack s.env.src.offered :=
  remainingBits_fresh rfl rfl rfl

/-- Settles O15: an open unpacker fails the check; otherwise the source's answer decides. -/
theorem openrStartsAnInputStream : Obligations.OpenrStartsAnInputStream := by
  unfold Obligations.OpenrStartsAnInputStream
  refine ⟨rfl, fun s hlive => ⟨fun hopen => ?_, fun hclosed ha => ?_, fun hclosed ha => ?_⟩⟩
  · rw [exec_openr hlive, hopen, Bool.not_true, require_false, finish_raise]
  · rw [exec_openr hlive, hclosed, Bool.not_false, require_true, openSource_refused ha, finish_raise]
  · exact ⟨_, exec_openr_attached hlive hclosed ha,
      ⟨rfl, rfl, rfl, rfl, rfl, rfl, rfl, rfl, rfl, rfl⟩, rfl, rfl, rfl, rfl, rfl, rfl, rfl, rfl,
      remainingBits_afterOpenr s⟩

/-- Settles O18: a closed unpacker fails the check; otherwise the source is released. -/
theorem closerReleasesTheSource : Obligations.CloserReleasesTheSource := by
  unfold Obligations.CloserReleasesTheSource
  refine ⟨rfl, fun s hlive => ⟨fun hclosed => ?_, fun hopen => ?_⟩⟩
  · rw [exec_closer hlive, hclosed, require_false, finish_raise]
  · exact ⟨releaseSource s, by rw [exec_closer hlive, hopen, require_true, finish_ok],
      ⟨rfl, rfl, rfl, rfl, rfl, rfl, rfl, rfl, rfl, rfl⟩, rfl, rfl, rfl⟩

end Sys2Proof.Machine
end

section
/-! The unpacker as a function (40_bitstream.md R127, R131): what any number of RBITs deliver. -/

namespace Sys2Proof.Machine

variable {p : Params}

/-- The host does one list of inputs and then another. -/
theorem runHost_append {is js : List (HostInput p)} {s t : State p} (h : runHost is s = some t) :
    runHost (is ++ js) s = runHost js t := by
  induction is generalizing s with
  | nil => cases h; rfl
  | cons i is ih =>
    rw [List.cons_append, runHost]
    rw [runHost] at h
    cases e : takeInput i s with
    | next s1 => rw [e] at h; exact ih h
    | fault x => rw [e] at h; cases h
    | refused x => rw [e] at h; cases h

/-- RES is no part of what a read takes. -/
theorem Took.setRes {bits : List Bool} {s t : State p} (h : Took bits s t) (v : BitVec 9) :
    Took bits (s.setRes v) (t.setRes v) := by
  obtain ⟨frame, -, isOpen, rbits, remaining, attached, data, offered, reliable⟩ := h
  obtain ⟨w, mem, ctl, cnt, cfg, flt, snk, sym, inputs, readData⟩ := frame
  exact ⟨⟨w, mem, ctl, cnt, cfg, flt, snk, sym, inputs, readData⟩, rfl, isOpen, rbits, remaining, attached, data,
    offered, reliable⟩

/-- A bit is fetched with its byte and no byte is fetched ahead: of the bits fetched, all are delivered but the
`R.rem`, at most seven, still buffered (R127). -/
def FetchedOnDemand (s : State p) : Prop :=
  8 * s.env.src.pos = s.r.rbits.toNat + s.r.rem.val ∧ s.r.rem.val ≤ 7

/-- Delivering a buffered bit moves it from `R.rem` to RBITS (R127). -/
theorem deliverBit_counts {s t : State p} {o : Option Bool} (hrem : s.r.rem ≠ 0) (h : deliverBit s = .ok t o) :
    t.r.rbits.toNat + t.r.rem.val = s.r.rbits.toNat + s.r.rem.val ∧ t.r.rem.val ≤ 7 ∧ t.env = s.env := by
  rcases deliverBit_cases s with ⟨_, e⟩ | ⟨hm, e⟩ <;> rw [e] at h <;> cases h
  have hcount : (s.r.rbits + 1#p.cntW).toNat = s.r.rbits.toNat + 1 := counter_succ hm
  have hlt := s.r.rem.isLt
  have hpos : 0 < s.r.rem.val := by omega
  refine ⟨?_, ?_, rfl⟩ <;> simp only [State.setR_r, hcount] <;> omega

theorem readBit_fetchedOnDemand {s t : State p} {o : Option Bool} (hs : FetchedOnDemand s) (h : readBit s = .ok t o) :
    FetchedOnDemand t := by
  obtain ⟨hbits, hbuf⟩ := hs
  rcases readBit_cases s with ⟨_, e⟩ | ⟨_, hrem, e⟩ | ⟨_, _, _, e⟩ | ⟨_, _, _, e⟩ | ⟨b, _, hrem, _, e⟩ <;> rw [e] at h
  · cases h; exact ⟨hbits, hbuf⟩
  · obtain ⟨hcount, hle, henv⟩ := deliverBit_counts hrem h
    exact ⟨by rw [henv, hbits, hcount], hle⟩
  · cases h
  · cases h; exact ⟨hbits, hbuf⟩
  · obtain ⟨hcount, hle, henv⟩ := deliverBit_counts (by decide : (8 : Fin 9) ≠ 0) h
    have hpos : t.env.src.pos = s.env.src.pos + 1 := by rw [henv]; simp
    have hrem8 : t.r.rbits.toNat + t.r.rem.val = s.r.rbits.toNat + 8 := hcount
    have hrem0 : s.r.rem.val = 0 := congrArg Fin.val hrem
    exact ⟨by omega, hle⟩

/-- ⌈RBITS/8⌉ bytes have been fetched (R131). -/
theorem FetchedOnDemand.pos_eq {s : State p} (h : FetchedOnDemand s) : s.env.src.pos = (s.r.rbits.toNat + 7) / 8 := by
  obtain ⟨hbits, hbuf⟩ := h
  omega

/-- A read answers the first of the bits left, or the sentinel when there is none (R127, R131). -/
theorem readBit_head? {s : State p} (hrel : sourceReliable s) (hroom : readRoom s (remainingBits s).length) :
    ∃ t, readBit s = .ok t (remainingBits s).head? ∧ Took ((remainingBits s).take 1) s t := by
  cases hb : remainingBits s with
  | nil =>
    obtain ⟨t, ht⟩ := readBit_completes_eos hb hrel
    exact ⟨t, ht, (readBit_eos ht).1⟩
  | cons b rest =>
    have hroom1 : readRoom s 1 := by
      simp only [readRoom, hb, List.length_cons] at hroom ⊢
      omega
    obtain ⟨t, ht, took, -⟩ := readBit_completes hb hrel hroom1
    exact ⟨t, ht, took⟩

/-- What `n` RBITs from `s` leave: the first `n` of the bits that were left are taken, and only RES tells the commands
from the reads inside other commands (R127). -/
structure ReadOut (n : Nat) (s t : State p) : Prop where
  took : Took ((remainingBits s).take n) (s.setRes t.res) t
  onDemand : FetchedOnDemand s → FetchedOnDemand t

theorem ReadOut.remaining {n : Nat} {s t : State p} (h : ReadOut n s t) : remainingBits t = (remainingBits s).drop n :=
  List.append_cancel_left (h.took.remaining.symm.trans (List.take_append_drop n (remainingBits s)).symm)

/-- RBIT number `n`, counting from 0, puts bit number `n` or the sentinel into RES (R131). -/
theorem ReadOut.rbit {n : Nat} {s t : State} (h : ReadOut n s t) (hlive : s.flt.faulted = false)
    (hopen : s.r.isOpen = true) (hrel : sourceReliable s) (hroom : readRoom s (remainingBits s).length) :
    ∃ u, exec .rbit t = .next u ∧ ReadOut (n + 1) s u ∧ u.res = bitResult (remainingBits s)[n]? := by
  obtain ⟨took, onDemand⟩ := h
  have hleft := ReadOut.remaining ⟨took, onDemand⟩
  have hroom' : readRoom t (remainingBits t).length := by
    have hcount := took.rbits
    simp only [readRoom, hleft, List.length_drop, List.length_take, State.setRes_r] at hroom hcount ⊢
    omega
  obtain ⟨u, hu, tookOne⟩ := readBit_head? (took.reliable hrel) hroom'
  refine ⟨_, exec_rbit_ok (by rw [took.frame.flt]; exact hlive) (took.isOpen.trans hopen) hu,
    ⟨?_, fun hs => (readBit_fetchedOnDemand (onDemand hs) hu :)⟩, by rw [State.setRes_res, hleft, List.head?_drop]⟩
  rw [List.take_add, ← hleft]
  exact (took.trans tookOne).setRes _

/-- The host reads `n` bits (R131). -/
theorem runHost_rbits (n : Nat) {s : State} (hlive : s.flt.faulted = false) (hopen : s.r.isOpen = true)
    (hrel : sourceReliable s) (hroom : readRoom s (remainingBits s).length) :
    ∃ t, runHost (List.replicate n (issue .rbit)) s = some t ∧ ReadOut n s t := by
  induction n with
  | zero => exact ⟨s, rfl, .refl s, id⟩
  | succ n ih =>
    obtain ⟨t, ht, out⟩ := ih
    obtain ⟨u, hu, out', -⟩ := out.rbit hlive hopen hrel hroom
    exact ⟨u, by rw [List.replicate_succ', runHost_append ht, runHost_issue rfl rfl hu]; rfl, out'⟩

/-- The host reads up to bit number `i` (R131). -/
theorem runHost_rbits_last (i : Nat) {s : State} (hlive : s.flt.faulted = false) (hopen : s.r.isOpen = true)
    (hrel : sourceReliable s) (hroom : readRoom s (remainingBits s).length) :
    ∃ t, runHost (List.replicate (i + 1) (issue .rbit)) s = some t ∧ ReadOut (i + 1) s t ∧
      t.res = bitResult (remainingBits s)[i]? := by
  obtain ⟨t, ht, out⟩ := runHost_rbits i hlive hopen hrel hroom
  obtain ⟨u, hu, out', hres⟩ := out.rbit hlive hopen hrel hroom
  exact ⟨u, by rw [List.replicate_succ', runHost_append ht, runHost_issue rfl rfl hu]; rfl, out', hres⟩

/-- Settles O19: from a fresh source the bits to come are those of its bytes. -/
theorem unpackerIsUnpack : Obligations.UnpackerIsUnpack := by
  unfold Obligations.UnpackerIsUnpack
  intro i s hlive hopen hrem heos hcount hpos hrel hroom
  have hbits := remainingBits_fresh heos hrem hpos
  obtain ⟨t, ht, out, hres⟩ := runHost_rbits_last i hlive hopen hrel (by simpa [readRoom, hbits, hcount] using hroom)
  have hrbits : t.r.rbits.toNat = min (i + 1) (8 * s.env.src.data.length) := by
    have := out.took.rbits
    rw [hbits, List.length_take, unpack_length, State.setRes_r, hcount] at this
    simpa using this
  refine ⟨t, ht, by rw [out.took.frame.flt]; exact hlive, ?_, hrbits, ?_⟩
  · rw [hres, hbits]
    cases (unpack s.env.src.data)[i]? with
    | none => rfl
    | some b => exact bitResult_some b
  · exact (out.onDemand ⟨by simp [hpos, hcount, hrem], by simp [hrem]⟩).pos_eq

end Sys2Proof.Machine
end

section
/-! Packing and reading back at the block level (40_bitstream.md R132). -/

namespace Sys2Proof.Machine

/-- The state after an OPENW answered ok (R121). -/
def afterOpenw (s : State) : State :=
  ((s.port (.snkOpen true)).setW { acc := 0#8, cnt := 0, isOpen := true, wbits := 0#64 }).setCnt
    { s.cnt with enc := 0#64 }

theorem exec_openw_attached {s : State} (hlive : s.flt.faulted = false) (hclosed : s.w.isOpen = false)
    (ha : s.env.snk.answer = true) : exec .openw s = .next (afterOpenw s) := by
  rw [exec_openw hlive, hclosed, Bool.not_false, require_true, openSink_attached ha, finish_ok]
  rfl

/-- OPENW on an empty sink, WBIT of each bit and CLOSEW put `pack(w)` into the sink (R121, R125, R130). -/
theorem runHost_packs (w : List Bool) {a : State} (hroom : w.length < 2 ^ 64) (hlive : a.flt.faulted = false)
    (hclosed : a.w.isOpen = false) (hrel : sinkReliable a) (hoffered : a.env.snk.offered = some []) :
    ∃ c, runHost (issue .openw :: (w.map fun x => issue (.wbit ((BitVec.ofBool x).setWidth 8))) ++ [issue .closew]) a =
        some c ∧ c.flt.faulted = false ∧ c.env.snk.data = pack w := by
  have hopen : (afterOpenw a).w.isOpen = true := rfl
  have hlive' : (afterOpenw a).flt.faulted = false := hlive
  have hempty : (afterOpenw a).env.snk.data = [] := by simp [afterOpenw, hoffered]
  obtain ⟨t, u, ht, tframe, -, -, -, hu, uframe, hdata⟩ := writeBits_closew_pack (bits := w) hlive' hopen rfl rfl
    (tail_of_all hrel) (by simpa [writeRoom, afterOpenw] using hroom)
  refine ⟨u, ?_, by rw [uframe.flt, tframe.flt, hlive'], by rw [hdata, hempty, List.nil_append]⟩
  rw [List.cons_append, runHost_issue rfl rfl (exec_openw_attached hlive hclosed (headD_of_all hrel)),
    runHost_append (runHost_wbits hlive' hopen ht), runHost_issue rfl rfl hu]
  rfl

/-- OPENR and RBITs up to bit number `i` of the source the host provides (R126, R131). -/
theorem runHost_unpacks (i : Nat) {b : State} (hroom : 8 * b.env.src.offered.length < 2 ^ 64)
    (hlive : b.flt.faulted = false) (hclosed : b.r.isOpen = false) (hrel : sourceReliable b) :
    ∃ d, runHost (issue .openr :: List.replicate (i + 1) (issue .rbit)) b = some d ∧
      d.flt.faulted = false ∧ d.res = bitResult (unpack b.env.src.offered)[i]? := by
  have hbits := remainingBits_afterOpenr b
  have hlive' : (afterOpenr b).flt.faulted = false := hlive
  obtain ⟨d, hd, out, hres⟩ := runHost_rbits_last i hlive' rfl (tail_of_all hrel)
    (by rw [readRoom, hbits]; simpa [afterOpenr] using hroom)
  have hopenr := exec_openr_attached hlive hclosed (headD_of_all hrel)
  exact ⟨d, by rw [runHost_issue rfl rfl hopenr, hd], by rw [out.took.frame.flt]; exact hlive', by rw [hres, hbits]⟩

/-- Settles O20: `unpack` inverts `pack`, and the block does both. -/
theorem unpackInvertsPack : Obligations.UnpackInvertsPack := by
  unfold Obligations.UnpackInvertsPack
  refine ⟨fun w => ⟨unpack_pack w, padCount_le _, rfl⟩,
    fun w a b hroom halive haclosed harel hoffered hblive hbclosed hbrel => ?_⟩
  obtain ⟨c, hc, hclive, hdata⟩ := runHost_packs w (by omega) halive haclosed harel hoffered
  refine ⟨c, hc, hclive, hdata, fun i => ?_⟩
  have hbytes : 8 * c.env.snk.data.length < 2 ^ 64 := by
    rw [hdata, pack_length]
    omega
  obtain ⟨d, hd, hdlive, hres⟩ := runHost_unpacks i
    (b := b.setEnv { b.env with src := { b.env.src with offered := c.env.snk.data } }) hbytes hblive hbclosed hbrel
  refine ⟨d, hd, hdlive, ?_⟩
  rw [hres, State.setEnv_env, hdata, unpack_pack]
  cases (w ++ List.replicate (padCount w.length) false)[i]? with
  | none => rfl
  | some x => exact bitResult_some x

end Sys2Proof.Machine
end

section
/-! LOADTREE (41_host_model.md R156; 42_tree_serdes.md R172, R179): the tokens of a tree, handed over one by one, are
accepted one after another, and no token but the last ends the load. -/

namespace Sys2Proof.Machine

variable {p : Params}

theorem MemoryFrame.refl (s : State p) : MemoryFrame s s := ⟨rfl, rfl, rfl, rfl, rfl, rfl, rfl⟩

theorem MemoryFrame.trans {s t u : State p} (h : MemoryFrame s t) (k : MemoryFrame t u) : MemoryFrame s u :=
  ⟨k.w.trans h.w, k.r.trans h.r, k.res.trans h.res, k.cnt.trans h.cnt, k.cfg.trans h.cfg, k.flt.trans h.flt,
    k.env.trans h.env⟩

theorem beginLoad_memoryFrame (s : State p) : MemoryFrame s (beginLoad s) := ⟨rfl, rfl, rfl, rfl, rfl, rfl, rfl⟩

theorem acceptAll_memoryFrame {toks : List Token} {s t : State p} (h : acceptAll toks s = .ok t ()) :
    MemoryFrame s t := by
  induction toks generalizing s with
  | nil => cases h; exact .refl _
  | cons tok toks ih =>
    obtain ⟨s1, _, h1, h2⟩ := Micro.andThen_eq_ok.mp h
    exact (accept_memoryFrame h1).trans (ih h2)

/-! ### The tokens before the last -/

theorem afterInternal_nn (s : State p) : (afterInternal s).nn = s.nn + 1 := by simp [afterInternal, State.nn]

theorem afterInternal_sp (s : State p) : (afterInternal s).sp = s.sp + 1 := rfl

theorem afterTree_nn (t : Tree) (s : State p) : (afterTree t s).nn = s.nn + t.size := by
  unfold afterTree
  split <;> simp [State.nn]

/-- With a node waiting for its right subtree, a complete left subtree ends no load (R172). -/
theorem afterTree_afterInternal_ctl (t : Tree) (s : State p) : (afterTree t (afterInternal s)).ctl = s.ctl := rfl

theorem afterTree_afterInternal_sp (t : Tree) (s : State p) : (afterTree t (afterInternal s)).sp = s.sp := rfl

/-- With room for the whole tree, any number of its tokens short of all are accepted, and the tree is not complete
(R172). -/
theorem acceptAll_take (t : Tree) (s : State p) {k : Nat} (hk : k < t.size) (hn : s.nn + t.size ≤ p.nodeCap)
    (hs : s.sp + t.height ≤ p.stackCap) : ∃ u, acceptAll (t.tokens.take k) s = .ok u () ∧ u.ctl = s.ctl := by
  induction t generalizing s k with
  | leaf v =>
    obtain rfl : k = 0 := Nat.lt_one_iff.mp hk
    exact ⟨s, rfl, rfl⟩
  | node l r hl hr =>
    cases k with
    | zero => exact ⟨s, rfl, rfl⟩
    | succ k =>
      simp only [Tree.size, Tree.height] at hk hn hs
      have hlpos := l.size_pos
      have hln : (afterInternal s).nn + l.size ≤ p.nodeCap := by rw [afterInternal_nn]; omega
      have hls : (afterInternal s).sp + l.height ≤ p.stackCap := by rw [afterInternal_sp]; omega
      rw [Tree.tokens, List.take_succ_cons, acceptAll, accept, acceptInternal_ok (by omega) (by omega),
        Micro.andThen_ok]
      by_cases hkl : k < l.size
      · rw [List.take_append_of_le_length (by rw [Tree.tokens_length]; omega)]
        exact hl (afterInternal s) hkl hln hls
      · rw [List.take_append, List.take_of_length_le (by rw [Tree.tokens_length]; omega), acceptAll_append,
          acceptAll_tree l _ hln hls, Micro.andThen_ok, Tree.tokens_length]
        exact hr (afterTree l (afterInternal s)) (by omega) (by rw [afterTree_nn, afterInternal_nn]; omega)
          (by rw [afterTree_afterInternal_sp]; omega)

/-! ### The host's commands -/

/-- In a load the command of a token accepts it (R174, R175). -/
theorem exec_tokenCommand {tok : Token} {s t : State} (hlive : s.flt.faulted = false) (hload : s.ctl.tload = true)
    (h : accept tok s = .ok t ()) : exec (Token.command tok) s = .next t := by
  cases tok with
  | internal => rw [Token.command, exec_tnode hlive, hload, require_true, h, finish_ok]
  | leaf v => rw [Token.command, exec_tleaf v hlive, hload, require_true, h, finish_ok]

theorem Token.command_format (tok : Token) : (Token.command tok).format = .cmd := by cases tok <;> rfl

theorem Token.command_wellFormed (tok : Token) : (Token.command tok).wellFormed = true := by cases tok <;> rfl

/-- Tokens handed over one by one are accepted one after another, as long as no token but the last ends the load. -/
theorem runHost_tokens {toks : List Token} {s u : State} (hlive : s.flt.faulted = false)
    (hopen : ∀ k < toks.length, ∃ v, acceptAll (toks.take k) s = .ok v () ∧ v.ctl.tload = true)
    (h : acceptAll toks s = .ok u ()) : runHost (toks.map fun tok => issue (Token.command tok)) s = some u := by
  induction toks generalizing s with
  | nil => cases h; rfl
  | cons tok toks ih =>
    have hload : s.ctl.tload = true := by
      obtain ⟨v, hv, hload⟩ := hopen 0 (Nat.succ_pos _)
      cases hv
      exact hload
    obtain ⟨s1, _, h1, h2⟩ := Micro.andThen_eq_ok.mp h
    rw [List.map_cons, runHost_issue (Token.command_format tok) (Token.command_wellFormed tok)
      (exec_tokenCommand hlive hload h1)]
    refine ih (by rw [(accept_memoryFrame h1).flt, hlive]) (fun k hk => ?_) h2
    simpa [acceptAll, h1] using hopen (k + 1) (Nat.succ_lt_succ hk)

theorem beginLoad_room {t : Tree} (hsize : t.size ≤ p.nodeCap) (s : State p) :
    (beginLoad s).nn + t.size ≤ p.nodeCap ∧ (beginLoad s).sp + t.height ≤ p.stackCap := by
  have hheight := t.height_lt
  have hnn : (beginLoad s).nn = 0 := rfl
  have hsp : (beginLoad s).sp = 0 := rfl
  rw [hnn, hsp, Params.stackCap]
  omega

/-- TBEGIN and the first `k` tokens of a tree that fits (R156, R173). -/
theorem runHost_loadTree_take {t : Tree} {s u : State} {k : Nat} (hlive : s.flt.faulted = false) (hsize : t.size ≤ 511)
    (h : acceptAll (t.tokens.take k) (beginLoad s) = .ok u ()) :
    runHost ((loadTree t).take (k + 1)) s = some u ∧ MemoryFrame s u := by
  obtain ⟨hn, hs⟩ := beginLoad_room hsize s
  have hbegin : exec .tbegin s = .next (beginLoad s) := by rw [exec_tbegin hlive, finish_ok]
  refine ⟨?_, (beginLoad_memoryFrame s).trans (acceptAll_memoryFrame h)⟩
  rw [loadTree, List.take_succ_cons, ← List.map_take, runHost_issue rfl rfl hbegin]
  refine runHost_tokens hlive (fun j hj => ?_) h
  obtain ⟨hjk, hjt⟩ : j < k ∧ j < t.size := by simpa using hj
  obtain ⟨v, hv, hctl⟩ := acceptAll_take t (beginLoad s) hjt hn hs
  rw [List.take_take, min_eq_left hjk.le]
  exact ⟨v, hv, by rw [hctl]; rfl⟩

/-- A whole tree in an empty TM (R172, R179). -/
theorem afterTree_beginLoad (t : Tree) (s : State p) :
    afterTree t (beginLoad s) = (s.setMem { tm := layout 0 t p, stk := [], cm := [] }).setCtl
      { s.ctl with treeValid := true, tload := false, cmapValid := false } := rfl

/-- Settles O26: TBEGIN and some of the tokens leave the load open, and all of them leave the tree in TM. -/
theorem loadedTreeIsTheTree : Obligations.LoadedTreeIsTheTree := by
  unfold Obligations.LoadedTreeIsTheTree
  intro t s hlive hsize
  obtain ⟨hn, hs⟩ := beginLoad_room hsize s
  constructor
  · intro k hk
    obtain ⟨u, hu, hctl⟩ := acceptAll_take t (beginLoad s) (by simpa using hk) hn hs
    obtain ⟨hrun, frame⟩ := runHost_loadTree_take hlive hsize hu
    exact ⟨u, hrun, by rw [frame.flt, hlive], by rw [hctl]; rfl⟩
  · have hu := acceptAll_tree t (beginLoad s) hn hs
    rw [← List.take_length (l := t.tokens)] at hu
    obtain ⟨hrun, frame⟩ := runHost_loadTree_take hlive hsize hu
    rw [List.take_of_length_le (by simp [loadTree])] at hrun
    rw [afterTree_beginLoad] at hrun frame
    exact ⟨_, hrun, frame, rfl, layout_length 0 t, rfl, rfl, rfl⟩

end Sys2Proof.Machine
end

section
/-! The Tree Builder (41_host_model.md R151 to R155): what is in the queue stays in the queue, so that the last tree has
the leaves of all the seeds. -/

namespace Sys2Proof.Machine

/-! ### The queue -/

theorem enqueue_perm (x : Weighted) (q : List Weighted) : (enqueue x q).Perm (x :: q) := by
  induction q with
  | nil => exact .refl _
  | cons y q ih =>
    rw [enqueue]
    split
    · exact .refl _
    · exact (ih.cons y).trans (.swap x y q)

theorem foldl_enqueue_perm (xs q : List Weighted) : (xs.foldl (fun q x => enqueue x q) q).Perm (xs ++ q) := by
  induction xs generalizing q with
  | nil => exact .refl _
  | cons x xs ih => exact (ih _).trans (((enqueue_perm x q).append_left xs).trans List.perm_middle)

/-- The leaf values of all the trees in the queue. -/
def queueLeaves (q : List Weighted) : List Byte := q.flatMap fun x => x.tree.leaves

/-- Queues with the same elements have the same leaves. -/
theorem queueLeaves_perm {q q' : List Weighted} (h : q.Perm q') : (queueLeaves q).Perm (queueLeaves q') :=
  h.flatMap_right _

/-- The queue element for an entry of the table and its sequence number (R152). -/
def seedOf (e : (Byte × Nat) × Nat) : Weighted := { tree := .leaf e.1.1, weight := e.1.2, seq := e.2 }

theorem seeds_perm (freq : List (Byte × Nat)) : (seeds freq).Perm (freq.zipIdx.map seedOf) := by
  have hperm := foldl_enqueue_perm (freq.zipIdx.map seedOf) []
  rwa [List.append_nil] at hperm

theorem seeds_length (freq : List (Byte × Nat)) : (seeds freq).length = freq.length := by
  simpa using (seeds_perm freq).length_eq

/-- The seeds carry the byte values of the table (R152). -/
theorem queueLeaves_seeds (freq : List (Byte × Nat)) : (queueLeaves (seeds freq)).Perm (freq.map Prod.fst) := by
  have hleaves : queueLeaves (freq.zipIdx.map seedOf) = freq.map Prod.fst := by
    calc queueLeaves (freq.zipIdx.map seedOf)
        = freq.zipIdx.flatMap (pure ∘ Prod.fst ∘ Prod.fst) := List.flatMap_map ..
      _ = (freq.zipIdx.map Prod.fst).map Prod.fst := by rw [List.flatMap_pure_eq_map, List.map_map]
      _ = freq.map Prod.fst := by rw [List.zipIdx_map_fst]
  exact hleaves ▸ queueLeaves_perm (seeds_perm freq)

/-- Merging joins trees and loses no leaf (R153). -/
theorem mergeAll_leaves {n : Nat} (seq : Nat) {q : List Weighted} (hq : q ≠ []) (hn : q.length ≤ n) :
    ∃ t, mergeAll n seq q = some t ∧ t.leaves.Perm (queueLeaves q) := by
  induction n generalizing seq q with
  | zero => exact absurd (List.length_eq_zero_iff.mp (Nat.le_zero.mp hn)) hq
  | succ n ih =>
    match q with
    | [] => exact absurd rfl hq
    | [x] => exact ⟨x.tree, rfl, by simp [queueLeaves]⟩
    | a :: b :: rest =>
      have hperm := enqueue_perm { tree := .node a.tree b.tree, weight := a.weight + b.weight, seq := seq } rest
      have hlen := hperm.length_eq
      rw [List.length_cons] at hlen hn
      obtain ⟨t, ht, hleaves⟩ := ih (seq + 1) (List.ne_nil_of_length_eq_add_one hlen)
        (hlen ▸ Nat.le_of_succ_le_succ hn)
      refine ⟨t, ht, hleaves.trans ?_⟩
      simpa [queueLeaves, Tree.leaves] using queueLeaves_perm hperm

/-- For a table with entries the Tree Builder gives a tree that carries the table's byte values (R152 to R155). -/
theorem buildTree_leaves {freq : List (Byte × Nat)} (h : freq ≠ []) :
    ∃ t, buildTree freq = some t ∧ t.leaves.Perm (freq.map Prod.fst) := by
  have hlen := seeds_length freq
  have hseeds : seeds freq ≠ [] := List.ne_nil_of_length_pos (hlen ▸ List.length_pos_iff.mpr h)
  obtain ⟨t, ht, hperm⟩ := mergeAll_leaves freq.length hseeds hlen.le
  exact ⟨t, ht, hperm.trans (queueLeaves_seeds freq)⟩

/-! ### The frequency table -/

/-- Every byte value, ascending. -/
def allBytes : List Byte := (List.range 256).map (BitVec.ofNat 8)

theorem allBytes_length : allBytes.length = 256 := by rw [allBytes, List.length_map, List.length_range]

theorem mem_allBytes (v : Byte) : v ∈ allBytes :=
  List.mem_map.mpr ⟨v.toNat, List.mem_range.mpr v.isLt, BitVec.ofNat_toNat 8 v⟩

theorem allBytes_nodup : allBytes.Nodup :=
  List.nodup_range.map_on fun i hi j hj h => by
    have hnat := congrArg BitVec.toNat h
    rwa [BitVec.toNat_ofNat, BitVec.toNat_ofNat, Nat.mod_eq_of_lt (List.mem_range.mp hi),
      Nat.mod_eq_of_lt (List.mem_range.mp hj)] at hnat

/-- The table's byte values are those that occur (R151). -/
theorem frequencies_values (b : List Byte) : (frequencies b).map Prod.fst = allBytes.filter (· ∈ b) := by
  unfold frequencies allBytes
  induction List.range 256 with
  | nil => rfl
  | cons n ns ih =>
    by_cases h : BitVec.ofNat 8 n ∈ b
    · simpa [List.count_eq_zero, h] using ih
    · simpa [List.count_eq_zero, h] using ih

theorem frequencies_nodup (b : List Byte) : ((frequencies b).map Prod.fst).Nodup := by
  rw [frequencies_values]
  exact allBytes_nodup.filter _

theorem mem_frequencies {b : List Byte} {v : Byte} : v ∈ (frequencies b).map Prod.fst ↔ v ∈ b := by
  simp [frequencies_values, mem_allBytes]

theorem frequencies_eq_nil {b : List Byte} : frequencies b = [] ↔ b = [] := by
  rw [← List.map_eq_nil_iff (f := Prod.fst), List.eq_nil_iff_forall_not_mem, List.eq_nil_iff_forall_not_mem]
  simp only [mem_frequencies]

/-! ### The tree -/

/-- A tree with one leaf is a leaf (R155). -/
theorem Tree.eq_leaf_of_leaves {t : Tree} {v : Byte} (h : t.leaves = [v]) : t = .leaf v := by
  cases t with
  | leaf u => simpa [Tree.leaves] using h
  | node l r =>
    have hl := l.leaves_pos
    have hr := r.leaves_pos
    have hlen := congrArg List.length h
    simp only [Tree.leaves, List.length_append, List.length_singleton] at hlen
    omega

/-- A tree that carries no byte value twice fits TM: there are 256 byte values. -/
theorem Tree.size_le_of_nodup {t : Tree} (h : t.leaves.Nodup) : t.size ≤ 511 := by
  have hcount := (h.subperm fun v _ => mem_allBytes v).length_le
  have hsize := t.size_leaves
  rw [allBytes_length] at hcount
  omega

/-- R272: without a tree there is nothing to issue. -/
theorem compress_empty (p : Params) : compress [] p = .error .emptyInput := by
  rw [compress, frequencies_eq_nil.mpr rfl]
  rfl

/-- Settles O58: the merges keep the leaves of the seeds, which are the values that occur, each once. -/
theorem treeBuilderCoversTheInput : Obligations.TreeBuilderCoversTheInput := by
  unfold Obligations.TreeBuilderCoversTheInput
  refine ⟨fun b hb => ?_, compress_empty _⟩
  obtain ⟨t, ht, hperm⟩ := buildTree_leaves (mt frequencies_eq_nil.mp hb)
  have hnodup : t.leaves.Nodup := hperm.nodup_iff.mpr (frequencies_nodup b)
  have hmem : ∀ v, v ∈ t.leaves ↔ v ∈ b := fun v => hperm.mem_iff.trans mem_frequencies
  refine ⟨t, ht, hnodup, hmem, Tree.size_le_of_nodup hnodup, fun v hall => Tree.eq_leaf_of_leaves ?_⟩
  obtain ⟨x, hx⟩ := List.exists_mem_of_ne_nil b hb
  have hv : v ∈ b := hall x hx ▸ hx
  have hleaves : ∀ u, u ∈ t.leaves ↔ u ∈ [v] := fun u => by
    rw [hmem, List.mem_singleton]
    exact ⟨hall u, fun hu => hu ▸ hv⟩
  exact List.perm_singleton.mp ((List.perm_ext_iff_of_nodup hnodup (List.nodup_singleton v)).mpr hleaves)

end Sys2Proof.Machine
end

section
/-! TBEGIN, TNODE and TLEAF as commands (42_tree_serdes.md R172 to R175). -/

namespace Sys2Proof.Machine

/-- Settles O21: TBEGIN fails no check, and its pseudocode clears the memories and opens the load. -/
theorem tbeginStartsALoad : Obligations.TbeginStartsALoad := by
  unfold Obligations.TbeginStartsALoad
  refine ⟨rfl, fun s hlive => ?_⟩
  exact ⟨beginLoad s, by rw [exec_tbegin hlive, finish_ok], beginLoad_memoryFrame s, rfl, rfl, fun _ => rfl, rfl⟩

/-- The command of a token outside a load (R174, R175, R270 (c)). -/
theorem exec_tokenCommand_idle {s : State} (tok : Token) (hlive : s.flt.faulted = false) (hidle : s.ctl.tload = false) :
    exec (Token.command tok) s = .next (raiseFault .illegalCmd (Token.command tok).cmdWord s) := by
  cases tok with
  | internal =>
    rw [Token.command, exec_tnode hlive, hidle, require_false, finish_raise]
    rfl
  | leaf v =>
    rw [Token.command, exec_tleaf v hlive, hidle, require_false, finish_raise]
    rfl

/-- In a load the command of a token that finds no room (R172, R174, R175). -/
theorem exec_tokenCommand_raise {tok : Token} {s t : State} {x : FaultCode} (hlive : s.flt.faulted = false)
    (hload : s.ctl.tload = true) (h : accept tok s = .raise x t) :
    exec (Token.command tok) s = .next (raiseFault x (Token.command tok).cmdWord t) := by
  cases tok with
  | internal =>
    rw [Token.command, exec_tnode hlive, hload, require_true, h, finish_raise]
    rfl
  | leaf v =>
    rw [Token.command, exec_tleaf v hlive, hload, require_true, h, finish_raise]
    rfl

/-- Settles O22: outside a load TNODE fails its check; in a load the acceptor answers. -/
theorem tnodeAcceptsAnInternalNode : Obligations.TnodeAcceptsAnInternalNode := by
  unfold Obligations.TnodeAcceptsAnInternalNode
  refine ⟨rfl, fun s hlive => ⟨fun hidle => ?_, fun hload hfull => ?_, fun hload hn hs => ?_⟩⟩
  · exact exec_tokenCommand_idle .internal hlive hidle
  · exact exec_tokenCommand_raise hlive hload (accept_internal_full hfull)
  · obtain ⟨t, ht, h⟩ := accept_internal_room hn hs
    exact ⟨t, exec_tokenCommand hlive hload ht, h⟩

/-- Settles O23: outside a load TLEAF fails its check; in a load the acceptor answers. -/
theorem tleafAcceptsALeaf : Obligations.TleafAcceptsALeaf := by
  unfold Obligations.TleafAcceptsALeaf
  refine ⟨fun _ => rfl, fun v s hlive => ⟨fun hidle => ?_, fun hload hfull => ?_, fun hload hn hstk => ?_,
    fun q rest hload hn hstk => ?_⟩⟩
  · exact exec_tokenCommand_idle (.leaf v) hlive hidle
  · exact exec_tokenCommand_raise hlive hload (accept_leaf_full v hfull)
  · obtain ⟨t, ht, h⟩ := accept_leaf_last v hn hstk
    exact ⟨t, exec_tokenCommand hlive hload ht, h⟩
  · obtain ⟨t, ht, h⟩ := accept_leaf_waiting v hn hstk
    exact ⟨t, exec_tokenCommand hlive hload ht, h⟩

end Sys2Proof.Machine
end

section
/-! SER as a command (42_tree_serdes.md R171, R176): the write of the header's bits. -/

namespace Sys2Proof.Machine

/-- SER of the tree in TM is the write of its header (R176). -/
theorem exec_ser_holds {s : State} {t : Tree} (hlive : s.flt.faulted = false) (hopen : s.w.isOpen = true)
    (hvalid : s.ctl.treeValid = true) (h : HoldsTree s.mem t) :
    exec .ser s = finish 0x2300#16 (writeBits (ser t) s) := by
  rw [exec_ser hlive, hopen, require_true, hvalid, require_true, serScan_eq, h, layout_bits]

/-- Settles O29: SER is one write, and a write with a reliable sink and room completes. -/
theorem serWritesTheHeader : Obligations.SerWritesTheHeader := by
  unfold Obligations.SerWritesTheHeader
  intro s t hlive hopen hvalid htree
  have e := exec_ser_holds hlive hopen hvalid htree
  refine ⟨e, fun hrel hroom => ?_⟩
  obtain ⟨u, hu⟩ := writeBits_completes (ser t) hrel hroom
  have wrote := writeBits_wrote hu
  exact ⟨u, by rw [e, hu, finish_ok], wrote.frame, wrote.cnt, wrote.isOpen.trans hopen, wrote.written,
    by rw [wrote.wbits, ser_length]⟩

end Sys2Proof.Machine
end

section
/-! The acceptor over part of a tree's tokens (42_tree_serdes.md R172), whether or not the whole tree fits: no token but
the last completes the tree, and without room for the whole tree one of the tokens is TREE_OVF. -/

namespace Sys2Proof.Machine

variable {p : Params}

theorem accept_internal_ok {s u : State p} (h : accept .internal s = .ok u ()) : u = afterInternal s := by
  rcases accept_cases .internal s with e | ⟨_, _, _, e⟩ | ⟨_, _, htok, _⟩
  · rw [e] at h; cases h
  · rw [e] at h; cases h; rfl
  · cases htok

theorem accept_leaf_ok {v : Byte} {s u : State p} (h : accept (.leaf v) s = .ok u ()) :
    u = afterTree (.leaf v) s := by
  rcases accept_cases (.leaf v) s with e | ⟨_, _, htok, _⟩ | ⟨_, _, htok, e⟩
  · rw [e] at h; cases h
  · cases htok
  · rw [e] at h; cases h; cases htok; rfl

/-- A tree's tokens accepted behind a node that waits for its right subtree: that node waits no longer, and nothing is
complete (R172). -/
theorem acceptAll_tree_waiting {t : Tree} {s u : State p} {q : Index p} {rest : List (Index p)}
    (h : acceptAll t.tokens s = .ok u ()) (hstk : s.mem.stk = q :: rest) : u.mem.stk = rest ∧ u.ctl = s.ctl := by
  induction t generalizing s u q rest with
  | leaf v =>
    obtain ⟨s1, _, h1, h2⟩ := Micro.andThen_eq_ok.mp h
    cases h2
    rw [accept_leaf_ok h1, afterTree, hstk]
    exact ⟨rfl, rfl⟩
  | node l r hl hr =>
    obtain ⟨s1, _, h1, h2⟩ := Micro.andThen_eq_ok.mp h
    rw [acceptAll_append] at h2
    obtain ⟨s2, _, h3, h4⟩ := Micro.andThen_eq_ok.mp h2
    obtain rfl := accept_internal_ok h1
    obtain ⟨hstk2, hctl2⟩ := hl h3 rfl
    obtain ⟨hstk3, hctl3⟩ := hr h4 (hstk2.trans hstk)
    exact ⟨hstk3, hctl3.trans hctl2⟩

/-- Some of a tree's tokens, short of all, complete nothing (R172). -/
theorem acceptAll_short_ctl {t : Tree} {k : Nat} {s u : State p} (hk : k < t.size)
    (h : acceptAll (t.tokens.take k) s = .ok u ()) : u.ctl = s.ctl := by
  induction t generalizing k s with
  | leaf v =>
    obtain rfl : k = 0 := Nat.lt_one_iff.mp hk
    cases h; rfl
  | node l r hl hr =>
    cases k with
    | zero => cases h; rfl
    | succ k =>
      simp only [Tree.size] at hk
      obtain ⟨s1, _, h1, h2⟩ := Micro.andThen_eq_ok.mp h
      obtain rfl := accept_internal_ok h1
      by_cases hkl : k < l.size
      · rw [List.take_append_of_le_length (by rw [Tree.tokens_length]; omega)] at h2
        exact (hl hkl h2 :)
      · rw [List.take_append, List.take_of_length_le (by rw [Tree.tokens_length]; omega), acceptAll_append,
          Tree.tokens_length] at h2
        obtain ⟨s2, _, h3, h4⟩ := Micro.andThen_eq_ok.mp h2
        exact (hr (by omega) h4).trans (acceptAll_tree_waiting h3 rfl).2

/-- Tokens that are not all accepted end in TREE_OVF at one of them, which changes nothing (R172). -/
theorem acceptAll_raise {toks : List Token} {x : FaultCode} {s v : State p} (h : acceptAll toks s = .raise x v) :
    ∃ pre tok post, toks = pre ++ tok :: post ∧ acceptAll pre s = .ok v () ∧ accept tok v = .raise .treeOvf v := by
  induction toks generalizing s with
  | nil => cases h
  | cons tok toks ih =>
    rcases Micro.andThen_eq_raise.mp h with h1 | ⟨s1, _, h1, h2⟩
    · rcases accept_cases tok s with e | ⟨_, _, _, e⟩ | ⟨_, w, _, e⟩ <;> rw [e] at h1 <;> cases h1
      exact ⟨[], tok, toks, rfl, rfl, e⟩
    · obtain ⟨pre, tok', post, rfl, hpre, hraise⟩ := ih h2
      exact ⟨tok :: pre, tok', post, rfl, by rw [acceptAll, h1, Micro.andThen_ok, hpre], hraise⟩

/-- Every accepted token takes an entry of TM, and TM has no more than `NODE_CAP` (R172). -/
theorem acceptAll_nn {toks : List Token} {s u : State p} (hs : s.nn ≤ p.nodeCap) (h : acceptAll toks s = .ok u ()) :
    s.nn + toks.length = u.nn ∧ u.nn ≤ p.nodeCap := by
  induction toks generalizing s with
  | nil => cases h; exact ⟨rfl, hs⟩
  | cons tok toks ih =>
    obtain ⟨s1, _, h1, h2⟩ := Micro.andThen_eq_ok.mp h
    obtain ⟨hnn, hroom⟩ := accept_nn h1
    obtain ⟨hlen, hcap⟩ := ih (by omega) h2
    exact ⟨by rw [List.length_cons]; omega, hcap⟩

/-- The tokens of a tree that has more nodes than TM has entries left run into TREE_OVF, before the tree is complete
(R172, R268). -/
theorem acceptAll_oversized {t : Tree} {s : State p} (hs : s.nn ≤ p.nodeCap) (ht : p.nodeCap < s.nn + t.size) :
    ∃ pre tok post v, t.tokens = pre ++ tok :: post ∧ acceptAll pre s = .ok v () ∧
      accept tok v = .raise .treeOvf v := by
  cases h : acceptAll t.tokens s with
  | ok u a =>
    obtain ⟨hlen, hcap⟩ := acceptAll_nn hs h
    rw [Tree.tokens_length] at hlen
    omega
  | raise x v =>
    obtain ⟨pre, tok, post, htoks, hpre, hraise⟩ := acceptAll_raise h
    exact ⟨pre, tok, post, v, htoks, hpre, hraise⟩

/-- The tokens before one of a tree's tokens complete nothing (R172). -/
theorem acceptAll_before_ctl {t : Tree} {pre post : List Token} {tok : Token} {s v : State p}
    (htoks : t.tokens = pre ++ tok :: post) (h : acceptAll pre s = .ok v ()) : v.ctl = s.ctl := by
  have hlen : pre.length < t.size := by rw [← Tree.tokens_length, htoks]; simp
  exact acceptAll_short_ctl hlen (by rw [htoks, List.take_left]; exact h)

/-- Nor does any beginning of them (R172). -/
theorem acceptAll_before_take {t : Tree} {pre post : List Token} {tok : Token} {s v : State p}
    (htoks : t.tokens = pre ++ tok :: post) (h : acceptAll pre s = .ok v ()) {k : Nat} (hk : k < pre.length) :
    ∃ u, acceptAll (pre.take k) s = .ok u () ∧ u.ctl = s.ctl := by
  have hsplit := h
  rw [← List.take_append_drop k pre, acceptAll_append] at hsplit
  obtain ⟨u, _, hu, _⟩ := Micro.andThen_eq_ok.mp hsplit
  refine ⟨u, hu, acceptAll_before_ctl (t := t) (tok := pre[k]) (post := pre.drop (k + 1) ++ tok :: post) ?_ hu⟩
  rw [htoks, ← List.cons_append, ← List.drop_eq_getElem_cons hk, ← List.append_assoc, List.take_append_drop]

end Sys2Proof.Machine
end

section
/-! A tree of more nodes than TM holds, handed over by tokens (41_host_model.md R156; 42_tree_serdes.md R172, R268). -/

namespace Sys2Proof.Machine

/-- While FAULTED the tokens handed over are dropped (R274 (1)). -/
theorem runHost_tokens_dropped (toks : List Token) {s : State} (h : s.flt.faulted = true) :
    runHost (toks.map fun tok => issue (Token.command tok)) s = some s := by
  induction toks with
  | nil => rfl
  | cons tok toks ih =>
    have hdrop : exec (Token.command tok) s = .next s := exec_faulted (by cases tok <;> exact Instr.noConfusion) h
    rw [List.map_cons, runHost_issue (Token.command_format tok) (Token.command_wellFormed tok) hdrop, ih]

/-- LOADTREE of a tree that does not fit ends in TREE_OVF without a valid tree (R172, R268). -/
theorem runHost_loadTree_oversized {t : Tree} {s : State} (hlive : s.flt.faulted = false) (hsize : 511 < t.size) :
    ∃ u, runHost (loadTree t) s = some u ∧ u.flt.faulted = true ∧ u.flt.code = .treeOvf ∧
      u.ctl.treeValid = false := by
  have hbegin : exec .tbegin s = .next (beginLoad s) := by rw [exec_tbegin hlive, finish_ok]
  have hnn : (beginLoad s).nn = 0 := rfl
  obtain ⟨pre, tok, post, v, htoks, hpre, hraise⟩ := acceptAll_oversized (s := beginLoad s) (Nat.zero_le _)
    (by rw [hnn, Nat.zero_add]; exact hsize)
  have hctl := acceptAll_before_ctl htoks hpre
  have hload (k : Nat) (hk : k < pre.length) :
      ∃ u, acceptAll (pre.take k) (beginLoad s) = .ok u () ∧ u.ctl.tload = true := by
    obtain ⟨u, hu, hctl⟩ := acceptAll_before_take htoks hpre hk
    exact ⟨u, hu, by rw [hctl]; rfl⟩
  have hrun := runHost_tokens (s := beginLoad s) hlive hload hpre
  have hovf : exec (Token.command tok) v = .next (raiseFault .treeOvf (Token.command tok).cmdWord v) :=
    exec_tokenCommand_raise (by rw [(acceptAll_memoryFrame hpre).flt]; exact hlive) (by rw [hctl]; rfl) hraise
  refine ⟨raiseFault .treeOvf (Token.command tok).cmdWord v, ?_, by rw [raiseFault_flt], by rw [raiseFault_flt],
    by rw [raiseFault_ctl, hctl]; rfl⟩
  rw [loadTree, runHost_issue rfl rfl hbegin, htoks, List.map_append, runHost_append hrun, List.map_cons,
    runHost_issue (Token.command_format tok) (Token.command_wellFormed tok) hovf]
  exact runHost_tokens_dropped post (by rw [raiseFault_flt])

end Sys2Proof.Machine
end

section
/-! DESER's loop over the tokens of a header (42_tree_serdes.md R177): it fetches them one after another and leaves TM, STK
and the flags as the acceptor does that is handed the tokens. -/

namespace Sys2Proof.Machine

variable {p : Params}

/-- What DESER does to everything but TM, STK and the flags while it consumes `bits`: they were the next bits, they are
gone and counted. -/
structure Consumed (bits : List Bool) (s t : State p) : Prop where
  frame : DeserFrame s t
  isOpen : t.r.isOpen = s.r.isOpen
  rbits : t.r.rbits.toNat = s.r.rbits.toNat + bits.length
  remaining : remainingBits s = bits ++ remainingBits t
  reliable : sourceReliable s → sourceReliable t

theorem DeserFrame.trans {s t u : State p} (h : DeserFrame s t) (k : DeserFrame t u) : DeserFrame s u :=
  ⟨k.w.trans h.w, k.res.trans h.res, k.cnt.trans h.cnt, k.cfg.trans h.cfg, k.flt.trans h.flt, k.snk.trans h.snk,
    k.sym.trans h.sym, k.inputs.trans h.inputs, k.readData.trans h.readData⟩

theorem Consumed.trans {a b : List Bool} {s t u : State p} (h : Consumed a s t) (k : Consumed b t u) :
    Consumed (a ++ b) s u :=
  ⟨h.frame.trans k.frame, k.isOpen.trans h.isOpen, by rw [k.rbits, h.rbits, List.length_append]; omega,
    by rw [h.remaining, k.remaining, List.append_assoc], k.reliable ∘ h.reliable⟩

/-- Reading consumes what it takes. -/
theorem Took.consumed {bits : List Bool} {s t : State p} (h : Took bits s t) : Consumed bits s t := by
  obtain ⟨w, -, -, cnt, cfg, flt, snk, sym, inputs, readData⟩ := h.frame
  exact ⟨⟨w, h.res, cnt, cfg, flt, snk, sym, inputs, readData⟩, h.isOpen, h.rbits, h.remaining, h.reliable⟩

/-- Work on the memories and the flags consumes nothing. -/
theorem MemoryFrame.consumed {s t : State p} (h : MemoryFrame s t) : Consumed [] s t := by
  obtain ⟨w, r, res, cnt, cfg, flt, env⟩ := h
  refine ⟨⟨w, res, cnt, cfg, flt, ?_, ?_, ?_, ?_⟩, by rw [r], by rw [r]; rfl, ?_, ?_⟩
  · rw [env]
  · rw [env]
  · rw [env]
  · rw [env]
  · rw [remainingBits, remainingBits, r, env, List.nil_append]
  · rw [sourceReliable, sourceReliable, env]; exact id

theorem readRoom_of_le {s : State p} {m n : Nat} (h : readRoom s n) (hle : m ≤ n) : readRoom s m := by
  unfold readRoom at h ⊢
  omega

theorem Consumed.room {bits : List Bool} {n : Nat} {s t : State p} (h : Consumed bits s t)
    (hroom : readRoom s (bits.length + n)) : readRoom t n := by
  have := h.rbits
  unfold readRoom at hroom ⊢
  omega

theorem Consumed.rest {bits rest : List Bool} {s t : State p} (h : Consumed bits s t)
    (hbits : remainingBits s = bits ++ rest) : remainingBits t = rest :=
  List.append_cancel_left (h.remaining.symm.trans hbits)

/-- An acceptor's answer, put into a state with the same TM, STK and flags. -/
def Micro.treeOnto (s : State p) : Micro p Unit → Micro p Unit
  | .ok b _ => .ok ((s.setMem b.mem).setCtl b.ctl) ()
  | .raise x _ => .raise x s

theorem State.setMem_setCtl_self (s : State p) (m : Memory p) : (s.setMem m).setCtl s.ctl = s.setMem m := rfl

/-- The acceptor looks at TM, STK and the flags only (R172). -/
theorem accept_treeOnto (tok : Token) {a s : State p} (hmem : s.mem = a.mem) (hctl : s.ctl = a.ctl) :
    accept tok s = (accept tok a).treeOnto s := by
  have hnn : s.nn = a.nn := by rw [State.nn, hmem, State.nn]
  have hsp : s.sp = a.sp := by rw [State.sp, hmem, State.sp]
  cases tok with
  | internal =>
    by_cases hfull : a.nn = p.nodeCap ∨ a.sp = p.stackCap
    · rw [accept_internal_full hfull, accept_internal_full (by rw [hnn, hsp]; exact hfull)]
      rfl
    · obtain ⟨hn, hs⟩ := not_or.mp hfull
      rw [accept, accept, acceptInternal_ok hn hs, acceptInternal_ok (hnn ▸ hn) (hsp ▸ hs)]
      simp [Micro.treeOnto, afterInternal, hnn, hmem, ← hctl, State.setMem_setCtl_self]
  | leaf v =>
    by_cases hfull : a.nn = p.nodeCap
    · rw [accept_leaf_full v hfull, accept_leaf_full v (hnn.trans hfull)]
      rfl
    · rw [accept, accept, acceptLeaf_ok v hfull, acceptLeaf_ok v (hnn ▸ hfull)]
      cases hstk : a.mem.stk with
      | nil => simp [Micro.treeOnto, afterTree, hnn, hmem, hctl, hstk]
      | cons q rest => simp [Micro.treeOnto, afterTree, hnn, hmem, ← hctl, hstk, State.setMem_setCtl_self]

/-- DESER's loop consumes tokens that the acceptor takes one after another, as long as none but the last completes the
tree. The acceptor runs on a state `a` of its own, which shares TM, STK and the flags with DESER's (R177). -/
theorem deserLoop_tokens {toks : List Token} {a b s : State p} {rest : List Bool} (n : Nat) (hmem : s.mem = a.mem)
    (hctl : s.ctl = a.ctl)
    (hopen : ∀ k < toks.length, ∃ v, acceptAll (toks.take k) a = .ok v () ∧ v.ctl.treeValid = false)
    (h : acceptAll toks a = .ok b ()) (hbits : remainingBits s = toks.flatMap Token.bits ++ rest)
    (hrel : sourceReliable s) (hroom : readRoom s (toks.flatMap Token.bits).length) :
    ∃ t, deserLoop (toks.length + n) s = deserLoop n t ∧ t.mem = b.mem ∧ t.ctl = b.ctl ∧
      Consumed (toks.flatMap Token.bits) s t := by
  induction toks generalizing a s with
  | nil =>
    cases h
    exact ⟨s, by rw [List.length_nil, Nat.zero_add], hmem, hctl, (MemoryFrame.refl s).consumed⟩
  | cons tok toks ih =>
    rw [List.flatMap_cons] at hbits hroom ⊢
    rw [List.append_assoc] at hbits
    rw [List.length_append] at hroom
    have hvalid : s.ctl.treeValid = false := by
      obtain ⟨v, hv, hvalid⟩ := hopen 0 (Nat.succ_pos _)
      cases hv
      rw [hctl, hvalid]
    obtain ⟨a1, _, h1, h2⟩ := Micro.andThen_eq_ok.mp h
    obtain ⟨s1, hfetch, took, -⟩ := fetchToken_completes hbits hrel (readRoom_of_le hroom (Nat.le_add_right _ _))
    have haccept := accept_treeOnto tok (took.frame.mem.trans hmem) (took.frame.ctl.trans hctl)
    rw [h1, Micro.treeOnto] at haccept
    have consumed := took.consumed.trans (accept_memoryFrame haccept).consumed
    rw [List.append_nil] at consumed
    obtain ⟨t, ht, htmem, htctl, hconsumed⟩ := ih (a := a1) (s := (s1.setMem a1.mem).setCtl a1.ctl) rfl rfl
      (fun k hk => by simpa [acceptAll, h1] using hopen (k + 1) (Nat.succ_lt_succ hk)) h2
      (consumed.rest hbits) (consumed.reliable hrel) (consumed.room hroom)
    refine ⟨t, ?_, htmem, htctl, consumed.trans hconsumed⟩
    rw [List.length_cons, Nat.add_right_comm, deserLoop_fetched _ hvalid hfetch, haccept, Micro.andThen_ok, ht]

/-- Before one of a tree's tokens DESER is still at work (R177). -/
theorem deserLoop_before {t : Tree} {pre post : List Token} {tok : Token} {s v : State p} {rest : List Bool} (n : Nat)
    (htoks : t.tokens = pre ++ tok :: post) (hvalid : s.ctl.treeValid = false) (h : acceptAll pre s = .ok v ())
    (hbits : remainingBits s = pre.flatMap Token.bits ++ rest) (hrel : sourceReliable s)
    (hroom : readRoom s (pre.flatMap Token.bits).length) :
    ∃ u, deserLoop (pre.length + n) s = deserLoop n u ∧ u.mem = v.mem ∧ u.ctl = v.ctl ∧ u.ctl.treeValid = false ∧
      Consumed (pre.flatMap Token.bits) s u := by
  have hopen (k : Nat) (hk : k < pre.length) :
      ∃ u, acceptAll (pre.take k) s = .ok u () ∧ u.ctl.treeValid = false := by
    obtain ⟨u, hu, hctl⟩ := acceptAll_before_take htoks h hk
    exact ⟨u, hu, by rw [hctl, hvalid]⟩
  obtain ⟨u, hu, hmem, hctl, hconsumed⟩ := deserLoop_tokens n rfl rfl hopen h hbits hrel hroom
  exact ⟨u, hu, hmem, hctl, by rw [hctl, acceptAll_before_ctl htoks h, hvalid], hconsumed⟩

end Sys2Proof.Machine
end

section
/-! DESER as a command (42_tree_serdes.md R177, R178, R180; 60_exceptions.md R264, R268): on a header, on a header cut
short, and on the header of a tree that TM cannot hold. -/

namespace Sys2Proof.Machine

/-- DESER of an open reader is its loop on a cleared tree (R177). -/
theorem exec_deser_open {s : State} (hlive : s.flt.faulted = false) (hopen : s.r.isOpen = true) :
    exec .deser s = finish 0x2400#16 (deserLoop 512 (beginDeser s)) := by
  rw [exec_deser hlive, hopen, require_true]

theorem beginDeser_memoryFrame {p : Params} (s : State p) : MemoryFrame s (beginDeser s) :=
  ⟨rfl, rfl, rfl, rfl, rfl, rfl, rfl⟩

theorem beginDeser_consumed {p : Params} (s : State p) : Consumed [] s (beginDeser s) := (beginDeser_memoryFrame s).consumed

/-- Once the tree is complete the loop ends (R177). -/
theorem deserLoop_complete {p : Params} (n : Nat) {s : State p} (h : s.ctl.treeValid = true) :
    deserLoop n s = .ok s () := by
  cases n with
  | zero => rfl
  | succ n => rw [deserLoop, if_pos h]

/-- When the bits end inside a token the header is cut short (R177, R180). -/
theorem deserLoop_short {p : Params} (n : Nat) {s t : State p} (hvalid : s.ctl.treeValid = false)
    (h : fetchToken s = .ok t none) : deserLoop (n + 1) s = .raise .truncHeader t := by
  rw [deserLoop, hvalid, if_neg Bool.false_ne_true, h, Micro.andThen_ok]

/-- A tree that fits TM can be accepted from the start of DESER (R177). -/
theorem beginDeser_room {p : Params} {t : Tree} (hsize : t.size ≤ p.nodeCap) (s : State p) :
    (beginDeser s).nn + t.size ≤ p.nodeCap ∧ (beginDeser s).sp + t.height ≤ p.stackCap := beginLoad_room hsize s

/-- A whole tree in a TM that DESER has cleared (R172, R179). -/
theorem afterTree_beginDeser {p : Params} (t : Tree) (s : State p) :
    afterTree t (beginDeser s) = (s.setMem { tm := layout 0 t p, stk := [], cm := [] }).setCtl
      { s.ctl with treeValid := true, tload := false, cmapValid := false } := rfl

/-- DESER on a header that is there, of a tree that fits TM (R177). -/
theorem exec_deser_header {s : State} {t : Tree} {rest : List Bool} (hlive : s.flt.faulted = false)
    (hopen : s.r.isOpen = true) (hrel : sourceReliable s) (hbits : remainingBits s = ser t ++ rest)
    (hsize : t.size ≤ 511) (hroom : readRoom s (ser t).length) :
    ∃ u, exec .deser s = .next u ∧ Consumed (ser t) s u ∧
      u.mem = { tm := layout 0 t, stk := [], cm := [] } ∧
      u.ctl = { s.ctl with treeValid := true, tload := false, cmapValid := false } := by
  rw [ser_eq_tokens] at hbits hroom ⊢
  obtain ⟨hn, hs⟩ := beginDeser_room hsize s
  have hopenLoop (k : Nat) (hk : k < t.tokens.length) :
      ∃ v, acceptAll (t.tokens.take k) (beginDeser s) = .ok v () ∧ v.ctl.treeValid = false := by
    obtain ⟨v, hv, hctl⟩ := acceptAll_take t (beginDeser s) (by simpa using hk) hn hs
    exact ⟨v, hv, by rw [hctl]; rfl⟩
  obtain ⟨u, hu, hmem, hctl, hconsumed⟩ := deserLoop_tokens (512 - t.size) rfl rfl hopenLoop
    (acceptAll_tree t (beginDeser s) hn hs) hbits hrel hroom
  rw [afterTree_beginDeser] at hmem hctl
  rw [Tree.tokens_length, Nat.add_sub_cancel' (by omega), deserLoop_complete (s := u) _ (by rw [hctl]; rfl)] at hu
  exact ⟨u, by rw [exec_deser_open hlive hopen, hu, finish_ok], (beginDeser_consumed s).trans hconsumed, hmem, hctl⟩

/-- Settles O31: what `deser` reads is the header of the tree, which DESER consumes. -/
theorem deserBuildsTheHeadersTree : Obligations.DeserBuildsTheHeadersTree := by
  unfold Obligations.DeserBuildsTheHeadersTree
  intro s t rest hlive hopen hrel hdeser hsize hroom
  have hbits := deser_sound hdeser
  obtain ⟨u, hu, consumed, hmem, hctl⟩ := exec_deser_header hlive hopen hrel hbits hsize hroom
  exact ⟨u, hu, consumed.frame, by rw [HoldsTree, hmem], by rw [hmem], by rw [hmem], hctl,
    consumed.isOpen.trans hopen, consumed.rest hbits, consumed.rbits⟩

/-! ### A header cut short -/

/-- `deser` reads a header back, whatever follows it (R178). -/
theorem deser_ser (t : Tree) (s : List Bool) : deser (ser t ++ s) = some (t, s) := by
  refine deserWithin_ser t s _ ?_
  have hheight := t.height_lt
  have hleaves := t.size_leaves
  rw [List.length_append, ser_length]
  omega

/-- What is left of a header cut short is no header (R180). -/
theorem deser_cut {t : Tree} {p q : List Bool} (hcut : ser t = p ++ q) (hq : q ≠ []) : deser p = none := by
  cases h : deser p with
  | none => rfl
  | some r =>
    obtain ⟨t', rest⟩ := r
    have hwhole : ser t' ++ (rest ++ q) = ser t ++ [] := by
      rw [List.append_nil, hcut, deser_sound h, List.append_assoc]
    have hread := deser_ser t' (rest ++ q)
    rw [hwhole, deser_ser, Option.some.injEq, Prod.mk.injEq] at hread
    exact absurd (List.append_eq_nil_iff.mp hread.2.symm).2 hq

/-- A cut through a sequence of tokens leaves whole tokens and then less than a token (R99, R101). -/
theorem tokens_cut {toks : List Token} {p q : List Bool} (hcut : toks.flatMap Token.bits = p ++ q) (hq : q ≠ []) :
    ∃ pre tok post part, toks = pre ++ tok :: post ∧ p = pre.flatMap Token.bits ++ part ∧ takeToken part = none := by
  induction toks generalizing p with
  | nil => exact absurd (List.append_eq_nil_iff.mp hcut.symm).2 hq
  | cons tok toks ih =>
    cases h : takeToken p with
    | none => exact ⟨[], tok, toks, p, rfl, rfl, h⟩
    | some r =>
      obtain ⟨tok', p'⟩ := r
      obtain rfl := takeToken_ok h
      have hread := takeToken_bits tok (toks.flatMap Token.bits)
      rw [← List.flatMap_cons, hcut, List.append_assoc, takeToken_bits, Option.some.injEq, Prod.mk.injEq] at hread
      obtain ⟨rfl, hrest⟩ := hread
      obtain ⟨pre, next, post, part, rfl, rfl, hpart⟩ := ih hrest.symm
      exact ⟨tok' :: pre, next, post, part, rfl, by rw [List.flatMap_cons, List.append_assoc], hpart⟩

/-- DESER on a header cut short consumes what there is and raises TRUNC_HEADER (R177, R180). -/
theorem exec_deser_cut {s : State} {t : Tree} {p q : List Bool} (hcut : ser t = p ++ q) (hq : q ≠ [])
    (hlive : s.flt.faulted = false) (hopen : s.r.isOpen = true) (hrel : sourceReliable s) (hbits : remainingBits s = p)
    (hsize : t.size ≤ 511) (hroom : readRoom s p.length) :
    ∃ u, exec .deser s = .next (raiseFault .truncHeader 0x2400#16 u) ∧ Consumed p s u ∧ u.ctl.treeValid = false ∧
      u.r.eos = true := by
  rw [ser_eq_tokens] at hcut
  obtain ⟨pre, tok, post, part, htoks, rfl, hpart⟩ := tokens_cut hcut hq
  have hlen : pre.length < t.size := by rw [← Tree.tokens_length, htoks]; simp
  obtain ⟨hn, hs⟩ := beginDeser_room hsize s
  obtain ⟨v, hv, -⟩ := acceptAll_take t (beginDeser s) hlen hn hs
  rw [htoks, List.take_left] at hv
  rw [List.length_append] at hroom
  obtain ⟨u, hu, -, -, hvalid, consumed⟩ := deserLoop_before (511 - pre.length + 1) htoks rfl hv hbits hrel
    (readRoom_of_le hroom (by omega))
  have hrest := consumed.rest hbits
  obtain ⟨w, hw, took, heos⟩ := fetchToken_short (s := u) (by rw [hrest]; exact hpart) (consumed.reliable hrel)
    (by rw [hrest]; exact consumed.room hroom)
  rw [hrest] at took
  rw [show pre.length + (511 - pre.length + 1) = 512 by omega, deserLoop_short _ hvalid hw] at hu
  exact ⟨w, by rw [exec_deser_open hlive hopen, hu, finish_raise],
    ((beginDeser_consumed s).trans consumed).trans took.consumed, by rw [took.frame.ctl, hvalid], heos⟩

/-- Settles O32: `deser` finds no tree, and neither does DESER. -/
theorem truncatedHeaderFaults : Obligations.TruncatedHeaderFaults := by
  unfold Obligations.TruncatedHeaderFaults
  intro t p q hcut hq
  refine ⟨deser_cut hcut hq, fun s hlive hopen hrel hbits hsize hroom => ?_⟩
  obtain ⟨u, hu, consumed, hvalid, heos⟩ := exec_deser_cut hcut hq hlive hopen hrel hbits hsize hroom
  have hr := raiseFault_r .truncHeader 0x2400#16 u
  rw [if_pos (consumed.isOpen.trans hopen)] at hr
  exact ⟨_, hu, raiseFault_flt _ _ _, by rw [raiseFault_ctl]; exact hvalid, by rw [hr], by rw [hr]; exact heos,
    by rw [hr]; exact consumed.rbits⟩

/-! ### The header of a tree that TM cannot hold -/

/-- DESER on the header of a tree of more than `NODE_CAP` nodes raises TREE_OVF (R172, R268). -/
theorem exec_deser_oversized {s : State} {t : Tree} {rest : List Bool} (hlive : s.flt.faulted = false)
    (hopen : s.r.isOpen = true) (hrel : sourceReliable s) (hbits : remainingBits s = ser t ++ rest)
    (hsize : 511 < t.size) (hroom : readRoom s (ser t).length) :
    ∃ u, exec .deser s = .next (raiseFault .treeOvf 0x2400#16 u) ∧ u.ctl.treeValid = false := by
  have hnn : (beginDeser s).nn = 0 := rfl
  obtain ⟨pre, tok, post, v, htoks, hpre, hraise⟩ := acceptAll_oversized (s := beginDeser s) (Nat.zero_le _)
    (by rw [hnn, Nat.zero_add]; exact hsize)
  have hlen : pre.length ≤ 511 := by
    obtain ⟨hsum, hcap⟩ := acceptAll_nn (Nat.zero_le _) hpre
    rw [hnn, Nat.zero_add] at hsum
    rw [hsum]
    exact hcap
  rw [ser_eq_tokens, htoks, List.flatMap_append, List.flatMap_cons] at hbits hroom
  rw [List.append_assoc, List.append_assoc] at hbits
  rw [List.length_append, List.length_append] at hroom
  obtain ⟨u, hu, hmem, hctl, hvalid, consumed⟩ := deserLoop_before (511 - pre.length + 1) htoks rfl hpre hbits hrel
    (readRoom_of_le hroom (by omega))
  obtain ⟨w, hw, took, -⟩ := fetchToken_completes (consumed.rest hbits) (consumed.reliable hrel)
    (consumed.room (readRoom_of_le hroom (by omega)))
  have haccept := accept_treeOnto tok (took.frame.mem.trans hmem) (took.frame.ctl.trans hctl)
  rw [hraise, Micro.treeOnto] at haccept
  rw [show pre.length + (511 - pre.length + 1) = 512 by omega, deserLoop_fetched _ hvalid hw, haccept,
    Micro.andThen_raise] at hu
  exact ⟨w, by rw [exec_deser_open hlive hopen, hu, finish_raise], by rw [took.frame.ctl, hvalid]⟩

/-- Settles O27: neither the tokens nor the header of such a tree can all be accepted. -/
theorem oversizedTreeOverflows : Obligations.OversizedTreeOverflows := by
  unfold Obligations.OversizedTreeOverflows
  intro t s hlive hsize
  refine ⟨runHost_loadTree_oversized hlive hsize, fun rest hopen hrel hbits hroom => ?_⟩
  obtain ⟨u, hu, hvalid⟩ := exec_deser_oversized hlive hopen hrel hbits hsize hroom
  exact ⟨_, hu, raiseFault_flt _ _ _, by rw [raiseFault_ctl]; exact hvalid⟩

end Sys2Proof.Machine
end

section
/-! The header from one block to another (42_tree_serdes.md R178). -/

namespace Sys2Proof.Machine

/-- The header of a tree that fits TM can be counted (R171). -/
theorem ser_length_lt {t : Tree} (hsize : t.size ≤ 511) : (ser t).length < 2 ^ 64 := by
  have := t.size_leaves
  rw [ser_length]
  omega

/-- OPENW on an empty sink, SER and CLOSEW put the packed header into the sink (R121, R125, R176). -/
theorem runHost_ser {a : State} {t : Tree} (hlive : a.flt.faulted = false) (hclosed : a.w.isOpen = false)
    (hvalid : a.ctl.treeValid = true) (htree : HoldsTree a.mem t) (hsize : t.size ≤ 511) (hrel : sinkReliable a)
    (hoffered : a.env.snk.offered = some []) :
    ∃ c, runHost [issue .openw, issue .ser, issue .closew] a = some c ∧ c.flt.faulted = false ∧
      c.env.snk.data = pack (ser t) := by
  have hlen := ser_length_lt hsize
  have hlive' : (afterOpenw a).flt.faulted = false := hlive
  have hempty : (afterOpenw a).env.snk.data = [] := by simp [afterOpenw, hoffered]
  obtain ⟨b, c, hb, bframe, -, -, -, hc, cframe, hdata⟩ := writeBits_closew_pack (bits := ser t) hlive' rfl rfl rfl
    (tail_of_all hrel) (by simpa [writeRoom, afterOpenw] using hlen)
  have hser : exec .ser (afterOpenw a) = .next b := by rw [exec_ser_holds hlive' rfl hvalid htree, hb, finish_ok]
  refine ⟨c, ?_, by rw [cframe.flt, bframe.flt, hlive'], by rw [hdata, hempty, List.nil_append]⟩
  rw [runHost_issue rfl rfl (exec_openw_attached hlive hclosed (headD_of_all hrel)), runHost_issue rfl rfl hser,
    runHost_issue rfl rfl hc]
  rfl

/-- OPENR and DESER on a source that starts with a header rebuild its tree in TM (R126, R177). -/
theorem runHost_deser {b : State} {t : Tree} {rest : List Bool} (hlive : b.flt.faulted = false)
    (hclosed : b.r.isOpen = false) (hrel : sourceReliable b) (hsize : t.size ≤ 511)
    (hoffered : unpack b.env.src.offered = ser t ++ rest) :
    ∃ d, runHost [issue .openr, issue .deser] b = some d ∧ d.flt.faulted = false ∧ d.ctl.treeValid = true ∧
      HoldsTree d.mem t := by
  have hlen := ser_length_lt hsize
  have hlive' : (afterOpenr b).flt.faulted = false := hlive
  obtain ⟨d, hd, consumed, hmem, hctl⟩ := exec_deser_header hlive' rfl (tail_of_all hrel)
    ((remainingBits_afterOpenr b).trans hoffered) hsize (by simpa [readRoom, afterOpenr] using hlen)
  refine ⟨d, ?_, by rw [consumed.frame.flt, hlive'], by rw [hctl], by rw [HoldsTree, hmem]⟩
  rw [runHost_issue rfl rfl (exec_openr_attached hlive hclosed (headD_of_all hrel)), runHost_issue rfl rfl hd]
  rfl

/-- Settles O33: SER and CLOSEW leave the packed header, whose bits DESER reads back as the same tree. -/
theorem headerRoundTrips : Obligations.HeaderRoundTrips := by
  unfold Obligations.HeaderRoundTrips
  refine ⟨deser_ser, fun a b t halive haclosed hvalid htree hsize harel hoffered hblive hbclosed hbrel => ?_⟩
  obtain ⟨c, hc, hclive, hdata⟩ := runHost_ser halive haclosed hvalid htree hsize harel hoffered
  obtain ⟨d, hd, hdlive, hdvalid, hdtree⟩ := runHost_deser
    (b := b.setEnv { b.env with src := { b.env.src with offered := c.env.snk.data } }) hblive hbclosed hbrel hsize
    (by rw [State.setEnv_env, hdata]; exact unpack_pack (ser t))
  exact ⟨c, d, hc, hd, hclive, hdlive, hdvalid, hdtree.trans htree.symm⟩

end Sys2Proof.Machine
end

section
/-! Codes as paths (43_codemap.md R200, R202, R203): the walk records every leaf once, under the choices from the root
to it, and two leaves part at the node above both. -/

namespace Sys2Proof.Machine

/-! ### Whose codes -/

theorem walk_keys (t : Tree) (path : List Bool) : (walk t path).map Prod.fst = t.leaves := by
  induction t generalizing path with
  | leaf v => rfl
  | node l r hl hr => simp [walk, Tree.leaves, hl, hr]

theorem codes_keys (t : Tree) : (codes t).map Prod.fst = t.leaves := by
  cases t with
  | leaf v => rfl
  | node l r => exact walk_keys _ _

theorem codeOf_isSome {t : Tree} {v : Byte} : (codeOf t v).isSome = true ↔ v ∈ t.leaves := by
  rw [codeOf, List.lookup_isSome_iff, ← codes_keys, List.mem_map]
  exact exists_congr fun e => and_congr_right fun _ => beq_iff_eq.trans eq_comm

theorem codeOf_mem {t : Tree} {v : Byte} {c : List Bool} (h : codeOf t v = some c) : (v, c) ∈ codes t := by
  obtain ⟨before, after, hcodes, -⟩ := List.lookup_eq_some_iff.mp h
  rw [hcodes]
  exact List.mem_append_right before List.mem_cons_self

/-! ### Lengths and prefixes -/

/-- A code in the walk goes on from the path, by no more choices than the tree is high. -/
theorem walk_path {t : Tree} {path : List Bool} {e : Byte × List Bool} (h : e ∈ walk t path) :
    path <+: e.2 ∧ e.2.length ≤ path.length + t.height := by
  induction t generalizing path with
  | leaf v => obtain rfl := List.mem_singleton.mp h; simp
  | node l r hl hr =>
    have below : ∀ b, path <+: path ++ [b] := fun b => List.prefix_append path [b]
    rcases List.mem_append.mp h with h | h
    · obtain ⟨hpre, hlen⟩ := hl h
      exact ⟨(below false).trans hpre, by simp [Tree.height] at hlen ⊢; omega⟩
    · obtain ⟨hpre, hlen⟩ := hr h
      exact ⟨(below true).trans hpre, by simp [Tree.height] at hlen ⊢; omega⟩

/-- In a tree of at least two leaves a code has at least one choice. -/
theorem walk_node_length_pos {l r : Tree} {path : List Bool} {e : Byte × List Bool} (h : e ∈ walk (.node l r) path) :
    path.length < e.2.length := by
  rcases List.mem_append.mp h with h | h <;> simpa using (walk_path h).1.length_le

/-- A code goes one way only at a node. -/
theorem choice_unique {path c : List Bool} {a b : Bool} (ha : path ++ [a] <+: c) (hb : path ++ [b] <+: c) : a = b := by
  have hab : path ++ [a] <+: path ++ [b] := List.prefix_of_prefix_length_le ha hb (by simp)
  simpa using hab.eq_of_length (by simp)

/-- Only a leaf's own code has its code as a prefix (R203): below a node the two codes have gone the same way. -/
theorem walk_prefix_free {t : Tree} {path : List Bool} {e f : Byte × List Bool} (he : e ∈ walk t path)
    (hf : f ∈ walk t path) (hpre : e.2 <+: f.2) : e = f := by
  induction t generalizing path with
  | leaf v => rw [List.mem_singleton.mp he, List.mem_singleton.mp hf]
  | node l r hl hr =>
    rcases List.mem_append.mp he with he | he <;> rcases List.mem_append.mp hf with hf | hf
    · exact hl he hf
    · exact absurd (choice_unique ((walk_path he).1.trans hpre) (walk_path hf).1) (by decide)
    · exact absurd (choice_unique ((walk_path he).1.trans hpre) (walk_path hf).1) (by decide)
    · exact hr he hf

/-- The codes below a path share its part of the code space, half to each side of a node (R203). -/
theorem walk_kraft (t : Tree) (path : List Bool) :
    ((walk t path).map fun e => ((1 : ℚ) / 2) ^ e.2.length).sum = (1 / 2) ^ path.length := by
  induction t generalizing path with
  | leaf v => simp [walk]
  | node l r hl hr =>
    rw [walk, List.map_append, List.sum_append, hl, hr, List.length_append, List.length_append]
    simp only [List.length_singleton, pow_succ]
    ring

/-- Settles O36: codes are the walk's paths, which part at a node, are as long as the tree is high, and share the code
space. -/
theorem codesArePrefixFree : Obligations.CodesArePrefixFree := by
  unfold Obligations.CodesArePrefixFree
  refine ⟨fun v => rfl, fun l r _ => ⟨?_, ?_, (walk_kraft (.node l r) []).trans (pow_zero _)⟩⟩
  · intro a b x y ha hb hne hpre
    exact hne (congrArg Prod.fst (walk_prefix_free (codeOf_mem ha) (codeOf_mem hb) hpre))
  · intro hsize a x ha
    have hlen := (walk_path (codeOf_mem ha)).2
    have hheight := height_le_codeMax (p := Params.default) hsize
    exact ⟨walk_node_length_pos (codeOf_mem ha), hlen.trans (by simpa using hheight)⟩

end Sys2Proof.Machine
end

section
/-! CMAP as a command (43_codemap.md R201, R202, R204; 60_exceptions.md R269): it records the codes of the tree in TM, or
finds a value on two leaves. -/

namespace Sys2Proof.Machine

variable {p : Params}

/-! ### Recording -/

theorem cmLookup_insert_eq_none {v u : Byte} {c : List Bool} {cm : List (Byte × List Bool)} :
    cmLookup u (cmInsert v c cm) = none ↔ v ≠ u ∧ cmLookup u cm = none := by
  by_cases h : v = u
  · subst h; simp [cmLookup_insert_self]
  · simp [cmLookup_insert_other c cm h, h]

/-- Recording completes exactly where no value comes twice and none has a code already (R204). -/
theorem recordAll_isSome (es cm : List (Byte × List Bool)) :
    (recordAll es cm).isSome = true ↔ (es.map Prod.fst).Nodup ∧ ∀ k ∈ es.map Prod.fst, cmLookup k cm = none := by
  induction es generalizing cm with
  | nil => simp [recordAll]
  | cons e es ih =>
    obtain ⟨v, c⟩ := e
    rw [recordAll, List.map_cons, List.nodup_cons, List.forall_mem_cons]
    cases hv : cmLookup v cm with
    | some d => simp
    | none =>
      simp only [ih, cmLookup_insert_eq_none]
      constructor
      · rintro ⟨hnd, hnew⟩
        exact ⟨⟨fun hmem => (hnew v hmem).1 rfl, hnd⟩, trivial, fun k hk => (hnew k hk).2⟩
      · rintro ⟨⟨hmem, hnd⟩, -, hnew⟩
        exact ⟨hnd, fun k hk => ⟨fun hvk => hmem (hvk ▸ hk), hnew k hk⟩⟩

/-- The codes of a tree can be recorded exactly where no value is on two leaves (R204). -/
theorem recordAll_codes (t : Tree) : (recordAll (codes t) []).isSome = true ↔ t.leaves.Nodup := by
  rw [recordAll_isSome, codes_keys]
  simp [cmLookup]

/-! ### The scan -/

/-- The state with another code map, stack and path: all that CMAP's scan writes (R201). -/
def withWalk (cm : List (Byte × List Bool)) (stk : List (Index p)) (path : List Bool) (s : State p) : State p :=
  (s.setMem { s.mem with cm := cm, stk := stk }).setCtl { s.ctl with path := path }

/-- CMAP's pseudocode on a tree that fits TM and has no value on two leaves (R201, R202). -/
theorem buildCodes_records {s : State p} {t : Tree} {cm : List (Byte × List Bool)} (htree : HoldsTree s.mem t)
    (hsize : t.size ≤ p.nodeCap) (hempty : s.mem.cm = []) (hrec : recordAll (codes t) [] = some cm) :
    ∃ stk path, buildCodes s = .ok (withWalk cm stk path s) () ∧ (s.mem.stk = [] → stk = []) := by
  cases t with
  | leaf v =>
    obtain rfl : cmInsert v [true] [] = cm := Option.some.inj hrec
    exact ⟨s.mem.stk, s.ctl.path, by rw [buildCodes_leaf htree, hempty]; rfl, id⟩
  | node l r =>
    have hheight := (Tree.node l r).height_lt
    obtain ⟨hok, -⟩ := cmapScan_layout (.node l r) 0 (beginWalk s) nofun (by simp [beginWalk]; omega)
    have hscan := hok cm (by simpa [beginWalk, hempty, codes] using hrec)
    exact ⟨[], _, by rw [buildCodes_node htree, hscan]; rfl, fun _ => rfl⟩

/-- CMAP's pseudocode on a tree that fits TM and has a value on two leaves (R204). -/
theorem buildCodes_duplicate {s : State p} {t : Tree} (htree : HoldsTree s.mem t) (hsize : t.size ≤ p.nodeCap)
    (hempty : s.mem.cm = []) (hrec : recordAll (codes t) [] = none) :
    ∃ cm stk path, buildCodes s = .raise .dupSymbol (withWalk cm stk path s) := by
  cases t with
  | leaf v => cases hrec
  | node l r =>
    have hheight := (Tree.node l r).height_lt
    obtain ⟨-, hdup⟩ := cmapScan_layout (.node l r) 0 (beginWalk s) nofun (by simp [beginWalk]; omega)
    obtain ⟨cm, stk, path, h⟩ := hdup (by simpa [beginWalk, hempty, codes] using hrec)
    exact ⟨cm, stk, path, by rw [buildCodes_node htree, h]; rfl⟩

/-! ### The command -/

/-- Settles O34: without a repeated value every record of the walk is made, and the map answers as the records do. -/
theorem cmapBuildsTheCodeMap : Obligations.CmapBuildsTheCodeMap := by
  unfold Obligations.CmapBuildsTheCodeMap
  intro s t hlive hvalid htree hsize hnodup
  obtain ⟨cm, hrec⟩ := Option.isSome_iff_exists.mp ((recordAll_codes t).mpr hnodup)
  obtain ⟨stk, path, hbuild, hstk⟩ := buildCodes_records (s := clearCodeMap s) htree hsize rfl hrec
  have hcodes : ∀ v, cmLookup v cm = codeOf t v := recordAll_lookup hrec
  refine ⟨codeMapDone (withWalk cm stk path (clearCodeMap s)), ?_, ⟨rfl, rfl, rfl, rfl, rfl, rfl, rfl⟩, hcodes, rfl, rfl,
    hstk, fun v => ?_⟩
  · rw [exec_cmap hlive, hvalid, require_true, buildCodeMap, hbuild, Micro.andThen_ok, finish_ok]
  · rw [← codeOf_isSome, ← hcodes v]
    rfl

/-- Settles O35: the scan stops at the second leaf of a value, with the tree untouched and the map not yet valid. -/
theorem cmapRefusesRepeatedValues : Obligations.CmapRefusesRepeatedValues := by
  unfold Obligations.CmapRefusesRepeatedValues
  intro s t hlive hvalid htree hsize hdup
  have hrec : recordAll (codes t) [] = none := by
    rw [← Option.not_isSome_iff_eq_none, recordAll_codes]; exact hdup
  obtain ⟨cm, stk, path, hbuild⟩ := buildCodes_duplicate (s := clearCodeMap s) htree hsize rfl hrec
  refine ⟨raiseFault .dupSymbol 0x2800#16 (withWalk cm stk path (clearCodeMap s)), ?_, raiseFault_flt _ _ _, ?_, ?_, ?_⟩
  · rw [exec_cmap hlive, hvalid, require_true, buildCodeMap, hbuild, Micro.andThen_raise, finish_raise]
  · rw [raiseFault_ctl]; rfl
  · rw [raiseFault_ctl]; exact hvalid
  · rw [raiseFault_mem]; rfl

end Sys2Proof.Machine
end

section
/-! The output stream from one command to a later one (10_state.md R21, R22; 40_bitstream.md R130): what it has gained,
whatever the commands in between did to the rest of the block. -/

namespace Sys2Proof.Machine

variable {p : Params}

/-- Since `s` the output stream has gained `bits`: they are appended and counted, and it is as open as it was. -/
structure Appended (bits : List Bool) (s t : State p) : Prop where
  isOpen : t.w.isOpen = s.w.isOpen
  wbits : t.w.wbits.toNat = s.w.wbits.toNat + bits.length
  written : writtenBits t = writtenBits s ++ bits
  grown : s.env.snk.data <+: t.env.snk.data
  attached : t.env.snk.attached = s.env.snk.attached
  reliable : sinkReliable s → sinkReliable t

theorem Wrote.appended {bits : List Bool} {s t : State p} (h : Wrote bits s t) : Appended bits s t :=
  ⟨h.isOpen, h.wbits, h.written, h.grown, h.attached, h.reliable⟩

/-- A command on the internal memories writes nothing (R18). -/
theorem MemoryFrame.appended {s t : State p} (h : MemoryFrame s t) : Appended [] s t := by
  refine ⟨?_, ?_, ?_, ?_, ?_, ?_⟩ <;> simp [writtenBits, sinkReliable, h.w, h.env]

theorem Appended.refl (s : State p) : Appended [] s s := (Wrote.refl s).appended

theorem Appended.trans {a b : List Bool} {s t u : State p} (h : Appended a s t) (k : Appended b t u) :
    Appended (a ++ b) s u :=
  ⟨k.isOpen.trans h.isOpen, by rw [k.wbits, h.wbits, List.length_append, Nat.add_assoc],
    by rw [k.written, h.written, List.append_assoc], h.grown.trans k.grown, k.attached.trans h.attached,
    k.reliable ∘ h.reliable⟩

/-- Room for all the bits is room for the first part of them. -/
theorem writeRoom_left {a b : List Bool} {s : State p} (hroom : writeRoom s (a ++ b).length) :
    writeRoom s a.length := by
  rw [writeRoom, List.length_append] at hroom
  rw [writeRoom]
  omega

/-- After the first part, it is room for the second. -/
theorem Appended.room {a b : List Bool} {s t : State p} (h : Appended a s t) (hroom : writeRoom s (a ++ b).length) :
    writeRoom t b.length := by
  rw [writeRoom, List.length_append, ← Nat.add_assoc, ← h.wbits] at hroom
  exact hroom

/-- What the stream has gained is a write, from the state that differs from the later one in the packer and the sink
only. -/
theorem Appended.wrote {bits : List Bool} {s t : State p} (h : Appended bits s t) :
    Wrote bits ((t.setW s.w).setEnv { t.env with snk := s.env.snk }) t :=
  ⟨⟨rfl, rfl, rfl, rfl, rfl, rfl, rfl, rfl, rfl, rfl⟩, rfl, h.isOpen, h.wbits, h.written, h.grown, h.attached,
    h.reliable⟩

/-- A flush of what an empty packer was given makes it `pack` of the bits (R124, R130). -/
theorem Appended.flushed_pack {bits : List Bool} {s t : State p} (h : Appended bits s t) (hempty : s.w.cnt = 0) :
    t.env.snk.data ++ flushedBytes t.w = s.env.snk.data ++ pack bits := by
  obtain ⟨bytes, hdata, hspell, -, hcnt⟩ := h.wrote.from_empty hempty
  have hpad : padCount t.w.cnt.val = padCount bits.length := by rw [hcnt]; simp [padCount]
  have hpack : bytes ++ flushedBytes t.w = pack bits :=
    eq_pack (by rw [unpack_append, unpack_flushedBytes, ← List.append_assoc, hspell, hpad])
  rw [← hpack, ← List.append_assoc, hdata]
  rfl

end Sys2Proof.Machine
end

section
/-! ENC as a command (44_encoder.md R210, R212): the write of a byte's code, counted, and a run of them. -/

namespace Sys2Proof.Machine

variable {p : Params}

/-- A byte that ENC_COUNT cannot count (R210, R247 (a)). -/
theorem writeCode_uncounted {s : State p} (code : List Bool) (h : s.cnt.enc = counterMax) :
    writeCode code s = .raise .countOvf s := by
  rw [writeCode, h, if_pos atMax_allOnes]

/-- A byte that can be counted is counted after its code's bits (R210). -/
theorem writeCode_counted {s : State p} (code : List Bool) (h : atMax s.cnt.enc = false) :
    writeCode code s = (writeBits code s).andThen fun t _ => .ok (countEncoded t) () := by
  rw [writeCode, h, if_neg Bool.false_ne_true]

/-- ENC of a byte that has a code (R210). -/
theorem exec_enc_code {v : Byte} {code : List Bool} {s : State} (hlive : s.flt.faulted = false)
    (hopen : s.w.isOpen = true) (hcode : cmLookup v s.mem.cm = some code) :
    exec (.enc v) s = finish (0x30#8 ++ v) (writeCode code s) := by
  rw [exec_enc v hlive, hopen, require_true, encodeByte, hcode]

/-- What encoding `n` bytes as `bits` does: the bits are written, the bytes counted, and nothing else changes. -/
structure EncodedAs (bits : List Bool) (n : Nat) (s t : State p) : Prop where
  frame : PackerFrame s t
  appended : Appended bits s t
  enc : t.cnt.enc.toNat = s.cnt.enc.toNat + n
  dec : t.cnt.dec = s.cnt.dec

theorem EncodedAs.refl (s : State p) : EncodedAs [] 0 s s := ⟨.refl s, .refl s, rfl, rfl⟩

theorem EncodedAs.trans {a b : List Bool} {m n : Nat} {s t u : State p} (h : EncodedAs a m s t)
    (k : EncodedAs b n t u) : EncodedAs (a ++ b) (m + n) s u :=
  ⟨h.frame.trans k.frame, h.appended.trans k.appended, by rw [k.enc, h.enc, Nat.add_assoc], k.dec.trans h.dec⟩

/-- A code written and counted encodes one byte. -/
theorem Wrote.countEncoded {code : List Bool} {s t : State p} (h : Wrote code s t) (hcount : atMax s.cnt.enc = false) :
    EncodedAs code 1 s (countEncoded t) where
  frame := h.frame.trans ⟨rfl, rfl, rfl, rfl, rfl, rfl, rfl, rfl, rfl, rfl⟩
  appended := ⟨h.isOpen, h.wbits, h.written, h.grown, h.attached, h.reliable⟩
  enc := by
    rw [Machine.countEncoded, State.setCnt_cnt, h.cnt]
    exact counter_succ hcount
  dec := by rw [Machine.countEncoded, State.setCnt_cnt, h.cnt]

/-- With a reliable sink and room ENC completes (R210). -/
theorem exec_enc_completes {v : Byte} {code : List Bool} {s : State} (hlive : s.flt.faulted = false)
    (hopen : s.w.isOpen = true) (hcode : cmLookup v s.mem.cm = some code) (hcount : atMax s.cnt.enc = false)
    (hrel : sinkReliable s) (hroom : writeRoom s code.length) :
    ∃ t, exec (.enc v) s = .next t ∧ EncodedAs code 1 s t := by
  obtain ⟨t, ht⟩ := writeBits_completes code hrel hroom
  refine ⟨countEncoded t, ?_, (writeBits_wrote ht).countEncoded hcount⟩
  rw [exec_enc_code hlive hopen hcode, writeCode_counted code hcount, ht, Micro.andThen_ok, finish_ok]

/-- Settles O37: the lookup finds the code, and ENC is its write and the count. -/
theorem encWritesTheCode : Obligations.EncWritesTheCode := by
  unfold Obligations.EncWritesTheCode
  intro v code s hlive hopen hcode
  refine ⟨fun hfull => ?_, fun hcount => ?_, fun hcount hrel hroom => ?_⟩
  · rw [exec_enc_code hlive hopen hcode, writeCode_uncounted code hfull, finish_raise]
  · rw [exec_enc_code hlive hopen hcode, writeCode_counted code (atMax_false (counter_room hcount))]
  · obtain ⟨t, ht, out⟩ := exec_enc_completes hlive hopen hcode (atMax_false (counter_room hcount)) hrel hroom
    exact ⟨t, ht, out.frame, out.appended.isOpen.trans hopen, out.appended.written, out.appended.wbits, out.enc,
      out.dec⟩

theorem payload_cons {t : Tree} {v : Byte} {code : List Bool} (h : codeOf t v = some code) (b : List Byte) :
    payload t (v :: b) = code ++ payload t b := by
  rw [payload, List.flatMap_cons, h, Option.getD_some, payload]

/-- One ENC per byte writes the codes one after another (R212). -/
theorem runHost_encs {t : Tree} {b : List Byte} {s : State} (hlive : s.flt.faulted = false) (hopen : s.w.isOpen = true)
    (hcodes : HoldsCodes s.mem t) (hleaves : ∀ v ∈ b, v ∈ t.leaves) (hrel : sinkReliable s)
    (hroom : writeRoom s (payload t b).length) (hcount : s.cnt.enc.toNat + b.length < 2 ^ 64) :
    ∃ u, runHost (b.map fun v => issue (.enc v)) s = some u ∧ EncodedAs (payload t b) b.length s u := by
  induction b generalizing s with
  | nil => exact ⟨s, rfl, .refl s⟩
  | cons v b ih =>
    obtain ⟨hv, hb⟩ := List.forall_mem_cons.mp hleaves
    obtain ⟨code, hcode⟩ := Option.isSome_iff_exists.mp (codeOf_isSome.mpr hv)
    rw [payload_cons hcode] at hroom ⊢
    rw [List.length_cons] at hcount ⊢
    have hcount1 : s.cnt.enc.toNat + 1 < 2 ^ 64 := by omega
    obtain ⟨s1, h1, out⟩ := exec_enc_completes hlive hopen ((hcodes v).trans hcode) (atMax_false hcount1) hrel
      (writeRoom_left hroom)
    obtain ⟨u, hu, rest⟩ := ih (by rw [out.frame.flt, hlive]) (out.appended.isOpen.trans hopen)
      (by rw [HoldsCodes, out.frame.mem]; exact hcodes) hb (out.appended.reliable hrel) (out.appended.room hroom)
      (by rw [out.enc]; omega)
    exact ⟨u, by rw [List.map_cons, runHost_issue rfl rfl h1, hu], Nat.add_comm 1 b.length ▸ out.trans rest⟩

/-- Settles O38: by induction on the bytes, each ENC adding its code and its count. -/
theorem payloadIsTheCodesInOrder : Obligations.PayloadIsTheCodesInOrder := by
  unfold Obligations.PayloadIsTheCodesInOrder
  intro t b s hlive hopen hcodes hleaves hrel hroom hcount
  obtain ⟨u, hu, out⟩ := runHost_encs hlive hopen hcodes hleaves hrel hroom hcount
  exact ⟨u, hu, by rw [out.frame.flt, hlive], out.frame, out.appended.written, out.enc⟩

end Sys2Proof.Machine
end

section
/-! COMPRESS (46_system_and_macros.md R243): the Tree Builder's tree, its header, the payload, the flush and the
count. -/

namespace Sys2Proof.Machine

/-! ### How long the output is -/

theorem ser_length_le {t : Tree} (hsize : t.size ≤ 511) : (ser t).length ≤ 2559 := by
  have := t.size_leaves
  rw [ser_length]
  omega

/-- A code is no longer than the tree is high, or the one bit of a single leaf's (R202). -/
theorem codeOf_length_le {t : Tree} {v : Byte} {code : List Bool} (hsize : t.size ≤ 511)
    (h : codeOf t v = some code) : code.length ≤ 255 := by
  cases t with
  | leaf u =>
    obtain ⟨-, rfl⟩ := Prod.mk.inj (List.mem_singleton.mp (codeOf_mem h))
    decide
  | node l r =>
    have hheight := (Tree.node l r).height_lt
    have hlen := (walk_path (codeOf_mem h)).2
    simp only [List.length_nil] at hlen
    omega

theorem payload_length_le {t : Tree} (hsize : t.size ≤ 511) (b : List Byte) :
    (payload t b).length ≤ 255 * b.length := by
  induction b with
  | nil => exact Nat.zero_le _
  | cons v b ih =>
    have hcode : ((codeOf t v).getD []).length ≤ 255 := by
      cases h : codeOf t v with
      | none => exact Nat.zero_le _
      | some code => exact codeOf_length_le hsize h
    rw [payload] at ih ⊢
    rw [List.flatMap_cons, List.length_append, List.length_cons]
    omega

/-- The bound of COMPRESS keeps WBITS in range (log 17). -/
theorem ser_append_payload_length_lt {t : Tree} {b : List Byte} (hsize : t.size ≤ 511)
    (hbound : 255 * b.length + 2560 < 2 ^ 64) : (ser t ++ payload t b).length < 2 ^ 64 := by
  have hser := ser_length_le hsize
  have hpayload := payload_length_le hsize b
  rw [List.length_append]
  omega

/-! ### The commands -/

/-- COMPRESS issues commands exactly where the Tree Builder gives a tree (R243, R272). -/
theorem compress_ok {p : Params} {b : List Byte} {is : List (HostInput p)} (h : compress b p = .ok is) :
    ∃ t, buildTree (frequencies b) = some t ∧ is = compressWith t b := by
  rw [compress] at h
  split at h
  · cases h
  · next t ht => exact ⟨t, ht, (Except.ok.inj h).symm⟩

/-- The tree that COMPRESS hands over fits TM, and its leaves are the values of the input, each once (R151 to R155). -/
theorem buildTree_frequencies {b : List Byte} {t : Tree} (h : buildTree (frequencies b) = some t) :
    t.leaves.Nodup ∧ (∀ v ∈ b, v ∈ t.leaves) ∧ t.size ≤ 511 := by
  have hb : b ≠ [] := by
    rintro rfl
    rw [frequencies_eq_nil.mpr rfl] at h
    cases h
  obtain ⟨t', ht', hnodup, hmem, hsize, -⟩ := treeBuilderCoversTheInput.1 b hb
  obtain rfl : t' = t := Option.some.inj (ht'.symm.trans h)
  exact ⟨hnodup, fun v => (hmem v).mpr, hsize⟩

/-- COMPRESS is the header, the payload, and the end of the stream (R243). -/
theorem compressWith_eq {p : Params} (t : Tree) (b : List Byte) :
    (compressWith t b : List (HostInput p)) = (issue .openw :: (loadTree t ++ [issue .ser, issue .cmap])) ++
      ((b.map fun v => issue (.enc v)) ++ [issue .closew, .readReg 5#4]) := by
  simp [compressWith]

/-- On the way through COMPRESS of the state `s`: the codes of `t` are ready, and since the OPENW the stream has gained
`bits` and `n` bytes have been encoded. -/
structure Compressing (t : Tree) (bits : List Bool) (n : Nat) (s u : State) : Prop where
  live : u.flt.faulted = false
  codes : HoldsCodes u.mem t
  appended : Appended bits (afterOpenw s) u
  enc : u.cnt.enc.toNat = n
  readData : u.env.readData = s.env.readData

theorem Compressing.isOpen {t : Tree} {bits : List Bool} {n : Nat} {s u : State} (h : Compressing t bits n s u) :
    u.w.isOpen = true := h.appended.isOpen

theorem Compressing.reliable {t : Tree} {bits : List Bool} {n : Nat} {s u : State} (h : Compressing t bits n s u)
    (hrel : sinkReliable s) : sinkReliable u := h.appended.reliable (tail_of_all hrel)

theorem Compressing.encodedAs {t : Tree} {a b : List Bool} {m n : Nat} {s u v : State} (h : Compressing t a m s u)
    (k : EncodedAs b n u v) : Compressing t (a ++ b) (m + n) s v :=
  ⟨by rw [k.frame.flt, h.live], by rw [HoldsCodes, k.frame.mem]; exact h.codes, h.appended.trans k.appended,
    by rw [k.enc, h.enc], k.frame.readData.trans h.readData⟩

/-- OPENW, LOADTREE, SER and CMAP put out the header and make the codes ready (R243, steps 4 to 7). -/
theorem runHost_header {t : Tree} {s : State} (hlive : s.flt.faulted = false) (hclosed : s.w.isOpen = false)
    (hrel : sinkReliable s) (hnodup : t.leaves.Nodup) (hsize : t.size ≤ 511) :
    ∃ u, runHost (issue .openw :: (loadTree t ++ [issue .ser, issue .cmap])) s = some u ∧
      Compressing t (ser t) 0 s u := by
  have hlive0 : (afterOpenw s).flt.faulted = false := hlive
  obtain ⟨-, s1, h1, frame1, htree1, -, -, -, hctl1⟩ := loadedTreeIsTheTree t (afterOpenw s) hlive0 hsize
  have hlive1 : s1.flt.faulted = false := by rw [frame1.flt, hlive0]
  have hvalid1 : s1.ctl.treeValid = true := by rw [hctl1]
  have hopen1 : s1.w.isOpen = true := by rw [frame1.w]; rfl
  have hroom1 : writeRoom s1 (ser t).length := by
    rw [writeRoom, frame1.w]
    simpa [afterOpenw] using ser_length_lt hsize
  obtain ⟨s2, h2⟩ := writeBits_completes (ser t) (frame1.appended.reliable (tail_of_all hrel)) hroom1
  have wrote := writeBits_wrote h2
  have hser : exec .ser s1 = .next s2 := by rw [exec_ser_holds hlive1 hopen1 hvalid1 htree1, h2, finish_ok]
  have hlive2 : s2.flt.faulted = false := by rw [wrote.frame.flt, hlive1]
  obtain ⟨u, hu, frame, hcodes, -⟩ := cmapBuildsTheCodeMap s2 t hlive2 (by rw [wrote.frame.ctl, hvalid1])
    (by rw [HoldsTree, wrote.frame.mem]; exact htree1) hsize hnodup
  refine ⟨u, ?_, by rw [frame.flt, hlive2], hcodes, ?_, ?_, ?_⟩
  · rw [runHost_issue rfl rfl (exec_openw_attached hlive hclosed (headD_of_all hrel)), runHost_append h1,
      runHost_issue rfl rfl hser, runHost_issue rfl rfl hu]
    rfl
  · simpa using (frame1.appended.trans wrote.appended).trans frame.appended
  · rw [frame.cnt, wrote.cnt, frame1.cnt]
    rfl
  · rw [frame.env, wrote.frame.readData, frame1.env]
    simp [afterOpenw]

/-- CLOSEW and the read of ENC_COUNT (R243, steps 9 and 10): what was put out is packed. -/
theorem Compressing.runHost_close {t : Tree} {bits : List Bool} {n : Nat} {s v : State}
    (h : Compressing t bits n s v) (hrel : sinkReliable s) :
    ∃ u, runHost [issue .closew, .readReg 5#4] v = some u ∧ u.flt.faulted = false ∧
      u.env.snk.data = s.env.snk.offered.getD s.env.snk.data ++ pack bits ∧ u.env.snk.attached = false ∧
      u.cnt.enc.toNat = n ∧ u.w.wbits.toNat = bits.length ∧
      u.env.readData = s.env.readData ++ [BitVec.ofNat 64 n] := by
  obtain ⟨u, hu, frame, hcnt, -, -, hwbits, -, hreleased, hdata⟩ :=
    exec_closew_completes h.live h.isOpen (.inr (headD_of_all (h.reliable hrel)))
  have henc : u.cnt.enc.toNat = n := by rw [hcnt, h.enc]
  refine ⟨readPort 5#4 u, ?_, frame.flt ▸ h.live, hdata.trans (h.appended.flushed_pack rfl), hreleased, henc, ?_,
    ?_⟩
  · rw [runHost_issue rfl rfl hu]
    rfl
  · have hempty : (afterOpenw s).w.wbits.toNat = 0 := rfl
    change u.w.wbits.toNat = _
    rw [hwbits, h.appended.wbits, hempty, Nat.zero_add]
  · change u.env.readData ++ [u.cnt.enc] = _
    rw [frame.readData, h.readData, ← henc, BitVec.ofNat_toNat, BitVec.setWidth_eq]

/-- Settles O59: the header and the payload are one stream on an empty packer, which CLOSEW makes `pack` of them. -/
theorem compressWritesHeaderAndPayload : Obligations.CompressWritesHeaderAndPayload := by
  unfold Obligations.CompressWritesHeaderAndPayload
  intro b is s his hlive hclosed hrel hbound
  obtain ⟨t, ht, rfl⟩ := compress_ok his
  obtain ⟨hnodup, hleaves, hsize⟩ := buildTree_frequencies ht
  obtain ⟨s1, h1, header⟩ := runHost_header hlive hclosed hrel hnodup hsize
  have hroom : writeRoom (afterOpenw s) (ser t ++ payload t b).length := by
    simpa [writeRoom, afterOpenw] using ser_append_payload_length_lt hsize hbound
  obtain ⟨s2, h2, out⟩ := runHost_encs header.live header.isOpen header.codes hleaves (header.reliable hrel)
    (header.appended.room hroom) (by rw [header.enc]; omega)
  obtain ⟨u, hu, hulive, hdata, hreleased, henc, hwbits, hread⟩ := (header.encodedAs out).runHost_close hrel
  rw [Nat.zero_add] at henc hread
  rw [List.length_append] at hwbits
  exact ⟨t, u, ht, by rw [compressWith_eq, runHost_append h1, runHost_append h2, hu], hulive, hdata, hreleased, henc,
    hwbits, hread⟩

end Sys2Proof.Machine
end

section
/-! DECODE as a function of the bits (45_decoder.md R222 to R225, R228, R230): one recursion for both modes, of which
`dec`, `decStop` and `endsMidTree` are the parts, and how the limit cuts it off. -/

namespace Sys2Proof.Machine

/-- The symbol that the next bit, or the sentinel (none), makes the decoder of `t` hand over at the position `c`: a `1`
is a symbol in root-leaf mode (R224); in the multi-leaf walk the pending leaf is (R222, R223). -/
def Tree.symbols : Tree → Tree → Option Bool → List Byte
  | .leaf v, _, some true => [v]
  | .leaf _, _, some false => []
  | .leaf _, _, none => []
  | .node _ _, .leaf v, _ => [v]
  | .node _ _, .node _ _, _ => []

/-- Where the bit, or the sentinel (none), leads from the position `c`: on from the root when a leaf was pending
(R222). -/
def Tree.follow : Tree → Tree → Option Bool → Tree
  | .leaf _, c, _ => c
  | .node l r, .leaf _, none => .node l r
  | .node l r, .leaf _, some b => (Tree.node l r).child b
  | .node _ _, .node l r, none => .node l r
  | .node _ _, .node l r, some b => (Tree.node l r).child b

/-- What a run of the decoder comes to. -/
structure DecodeEnd where
  /-- The symbols handed over. -/
  out : List Byte
  /-- The position it ends on. -/
  pos : Tree
  /-- The bits left unread. -/
  unread : List Bool
  /-- The sentinel has been read. -/
  eos : Bool

/-- The decoder of `t` on the bits to come, from the position `c` with `out` handed over (R222, R224): the limit is
tested before a bit is read (R228). -/
def decodeFrom (t : Tree) (lim : Option Nat) : List Bool → Tree → List Byte → DecodeEnd
  | [], c, out =>
    if lim = some out.length then ⟨out, c, [], false⟩
    else ⟨out ++ t.symbols c none, t.follow c none, [], true⟩
  | b :: s, c, out =>
    if lim = some out.length then ⟨out, c, b :: s, false⟩
    else decodeFrom t lim s (t.follow c (some b)) (out ++ t.symbols c (some b))

variable {t c : Tree} {lim : Option Nat} {out : List Byte}

theorem decodeFrom_limit (h : lim = some out.length) (s : List Bool) :
    decodeFrom t lim s c out = ⟨out, c, s, false⟩ := by
  cases s <;> exact if_pos h

theorem decodeFrom_nil (h : lim ≠ some out.length) :
    decodeFrom t lim [] c out = ⟨out ++ t.symbols c none, t.follow c none, [], true⟩ := if_neg h

theorem decodeFrom_cons (h : lim ≠ some out.length) (b : Bool) (s : List Bool) :
    decodeFrom t lim (b :: s) c out = decodeFrom t lim s (t.follow c (some b)) (out ++ t.symbols c (some b)) := if_neg h

/-! ### Symbols -/

theorem Tree.symbols_length_le (t c : Tree) (o : Option Bool) : (t.symbols c o).length ≤ 1 := by
  cases t with
  | leaf v => rcases o with _ | _ | _ <;> simp [Tree.symbols]
  | node l r => cases c <;> simp [Tree.symbols]

/-- A bit is at most one symbol, at once or pending (R222, R224). -/
theorem Tree.symbols_pending (t c : Tree) (b : Bool) :
    (t.symbols (t.follow c (some b)) none).length + (t.symbols c (some b)).length ≤ (t.symbols c none).length + 1 := by
  cases t with
  | leaf v => cases b <;> simp [Tree.symbols]
  | node l r =>
    have hnext := Tree.symbols_length_le (.node l r) ((Tree.node l r).follow c (some b)) none
    have hsame : (Tree.node l r).symbols c (some b) = (Tree.node l r).symbols c none := by cases c <;> rfl
    rw [hsame]
    omega

/-- The sentinel hands over the last symbol from a leaf, and so leaves the walk at the root (R223, R225). -/
theorem Tree.follow_sentinel (h : t.symbols c none ≠ []) : t.follow c none = t := by
  cases t with
  | leaf v => exact absurd rfl h
  | node l r => cases c with
    | leaf v => rfl
    | node l' r' => exact absurd rfl h

/-! ### The limit -/

/-- What has been handed over stays. -/
theorem decodeFrom_prefix (t : Tree) (lim : Option Nat) (s : List Bool) (c : Tree) (out : List Byte) :
    out <+: (decodeFrom t lim s c out).out := by
  induction s generalizing c out with
  | nil =>
    by_cases h : lim = some out.length
    · rw [decodeFrom_limit h]
    · rw [decodeFrom_nil h]; exact List.prefix_append _ _
  | cons b s ih =>
    by_cases h : lim = some out.length
    · rw [decodeFrom_limit h]
    · rw [decodeFrom_cons h]; exact (List.prefix_append _ _).trans (ih _ _)

/-- The limit cuts the symbols of naive decoding off (R228). -/
theorem decodeFrom_take (s : List Bool) {n : Nat} (hle : out.length ≤ n) :
    (decodeFrom t (some n) s c out).out = (decodeFrom t none s c out).out.take n := by
  induction s generalizing c out with
  | nil =>
    by_cases h : some n = some out.length
    · have hpre := decodeFrom_prefix t none [] c out
      rw [decodeFrom_limit h, Option.some.inj h, ← List.prefix_iff_eq_take.mp hpre]
    · have hone := t.symbols_length_le c none
      have hne : n ≠ out.length := fun e => h (congrArg some e)
      rw [decodeFrom_nil h, decodeFrom_nil (lim := none) nofun, List.take_of_length_le (by simp; omega)]
  | cons b s ih =>
    by_cases h : some n = some out.length
    · have hpre := decodeFrom_prefix t none (b :: s) c out
      rw [decodeFrom_limit h, Option.some.inj h, ← List.prefix_iff_eq_take.mp hpre]
    · have hone := t.symbols_length_le c (some b)
      have hne : n ≠ out.length := fun e => h (congrArg some e)
      rw [decodeFrom_cons h, decodeFrom_cons (lim := none) nofun, ih (by simp; omega)]

/-- A sentinel read at the last symbol of the limit leaves the walk at the root (R223, R225, R228). -/
theorem decodeFrom_exact_pos {s : List Bool} (hlim : lim = some (decodeFrom t lim s c out).out.length)
    (heos : (decodeFrom t lim s c out).eos = true) : (decodeFrom t lim s c out).pos = t := by
  induction s generalizing c out with
  | nil =>
    by_cases h : lim = some out.length
    · rw [decodeFrom_limit h] at heos; cases heos
    · rw [decodeFrom_nil h] at hlim ⊢
      refine Tree.follow_sentinel fun hnone => h ?_
      rw [hlim, hnone, List.append_nil]
  | cons b s ih =>
    by_cases h : lim = some out.length
    · rw [decodeFrom_limit h] at heos; cases heos
    · rw [decodeFrom_cons h] at hlim heos ⊢
      exact ih hlim heos

/-! ### Its parts -/

/-- With at least two leaves it is the walk of R230 and its stop. -/
theorem decodeFrom_node (l r : Tree) (lim : Option Nat) (s : List Bool) (c : Tree) (out : List Byte) :
    decodeFrom (.node l r) lim s c out =
      ⟨(decodeRun (.node l r) lim s c out).1, (decodeRun (.node l r) lim s c out).2,
        (walkStop (.node l r) lim s c out.length).1, (walkStop (.node l r) lim s c out.length).2⟩ := by
  induction s generalizing c out with
  | nil =>
    by_cases h : lim = some out.length
    · rw [decodeFrom_limit h]; simp [decodeRun, walkStop, h]
    · cases c <;> simp [decodeFrom_nil h, decodeRun, walkStop, h, Tree.symbols, Tree.follow]
  | cons b s ih =>
    by_cases h : lim = some out.length
    · rw [decodeFrom_limit h]; simp [decodeRun, walkStop, h]
    · cases c <;> simp [decodeFrom_cons h, decodeRun, walkStop, h, Tree.symbols, Tree.follow, ih]

/-- With a single leaf every `1` is its symbol (R224). -/
theorem decodeFrom_leaf (v : Byte) (s : List Bool) (c : Tree) (out : List Byte) :
    (decodeFrom (.leaf v) none s c out).out = out ++ List.replicate (s.count true) v := by
  induction s generalizing out with
  | nil => rfl
  | cons b s ih =>
    rw [decodeFrom_cons (lim := none) nofun]
    cases b <;> simp [Tree.symbols, Tree.follow, ih, List.replicate_succ]

theorem decodeFrom_leaf_stop (v : Byte) (lim : Option Nat) (s : List Bool) (c : Tree) (out : List Byte) :
    (decodeFrom (.leaf v) lim s c out).pos = c ∧
      ((decodeFrom (.leaf v) lim s c out).unread, (decodeFrom (.leaf v) lim s c out).eos) =
        onesStop lim s out.length := by
  induction s generalizing out with
  | nil =>
    by_cases h : lim = some out.length
    · rw [decodeFrom_limit h]; simp [onesStop, h]
    · simp [decodeFrom_nil h, onesStop, h, Tree.follow]
  | cons b s ih =>
    by_cases h : lim = some out.length
    · rw [decodeFrom_limit h]; simp [onesStop, h]
    · rw [decodeFrom_cons h, onesStop, if_neg h]
      cases b with
      | false => simpa [Tree.symbols, Tree.follow] using ih out
      | true => simpa [Tree.symbols, Tree.follow] using ih (out ++ [v])

/-- R230: from the root it hands over `dec(t, s, lim)`. -/
theorem decodeFrom_out (t : Tree) (s : List Bool) (lim : Option Nat) : (decodeFrom t lim s t []).out = dec t s lim := by
  cases t with
  | node l r => rw [decodeFrom_node, dec]
  | leaf v => cases lim with
    | none => simp [decodeFrom_leaf, dec]
    | some n => simp [decodeFrom_take s (out := []) (Nat.zero_le n), decodeFrom_leaf, dec, List.take_replicate]

/-- What it leaves unread, and whether it reads the sentinel (R222, R224, R228). -/
theorem decodeFrom_stop (t : Tree) (s : List Bool) (lim : Option Nat) :
    ((decodeFrom t lim s t []).unread, (decodeFrom t lim s t []).eos) = decStop t s lim := by
  cases t with
  | node l r => rw [decodeFrom_node]; rfl
  | leaf v => exact (decodeFrom_leaf_stop v lim s _ []).2

/-- Whether naive decoding ends inside a code (R225). -/
theorem decodeFrom_midTree (t : Tree) (s : List Bool) : ((decodeFrom t none s t []).pos != t) = endsMidTree t s := by
  cases t with
  | node l r => rw [decodeFrom_node]; rfl
  | leaf v => simp [(decodeFrom_leaf_stop v none s _ []).1, endsMidTree]

/-- Naive decoding reads to the sentinel (R222, R224). -/
theorem decodeFrom_naive_stop (t : Tree) (s : List Bool) (c : Tree) (out : List Byte) :
    (decodeFrom t none s c out).unread = [] ∧ (decodeFrom t none s c out).eos = true := by
  induction s generalizing c out with
  | nil => exact ⟨rfl, rfl⟩
  | cons b s ih => rw [decodeFrom_cons (lim := none) nofun]; exact ih _ _

/-- R228: the limit gives the first symbols of naive decoding. -/
theorem dec_limit (t : Tree) (s : List Bool) (n : Nat) : dec t s (some n) = (dec t s none).take n := by
  rw [← decodeFrom_out, ← decodeFrom_out, decodeFrom_take s (Nat.zero_le n)]

theorem dec_length_le_limit (t : Tree) (s : List Bool) (n : Nat) : (dec t s (some n)).length ≤ n := by
  rw [dec_limit]
  exact List.length_take_le n _

end Sys2Proof.Machine
end

section
/-! DECODE's loop (45_decoder.md R221 to R229; 60_exceptions.md R276): whatever the channels answer, it follows
`decodeFrom`, and a fault stops it with the symbols handed over so far. -/

namespace Sys2Proof.Machine

variable {p : Params}

/-! ### One symbol -/

/-- The symbols `es` have been handed over; of the rest only the cursor and the trace differ. -/
structure HandsOver (es : List Byte) (s u : State p) : Prop where
  frame : DecodeFrame s u
  r : u.r = s.r
  src : u.env.src = s.env.src
  midtree : u.ctl.midtree = s.ctl.midtree
  data : u.env.sym.data = s.env.sym.data ++ es
  dec : u.cnt.dec.toNat = s.cnt.dec.toNat + es.length
  reliable : symReliable s → symReliable u

theorem DecodeFrame.refl (s : State p) : DecodeFrame s s := ⟨rfl, rfl, rfl, rfl, rfl, rfl, rfl, rfl, rfl, rfl⟩

theorem DecodeFrame.trans {s t u : State p} (h : DecodeFrame s t) (k : DecodeFrame t u) : DecodeFrame s u :=
  ⟨k.w.trans h.w, k.res.trans h.res, k.mem.trans h.mem, k.enc.trans h.enc, k.cfg.trans h.cfg, k.flt.trans h.flt,
    by rw [k.ctl, h.ctl], k.snk.trans h.snk, k.inputs.trans h.inputs, k.readData.trans h.readData⟩

theorem HandsOver.refl (s : State p) : HandsOver [] s s :=
  ⟨.refl s, rfl, rfl, rfl, (List.append_nil _).symm, rfl, id⟩

theorem Emitted.handsOver {b : Byte} {s u : State p} (h : Emitted b s u) : HandsOver [b] s u :=
  ⟨h.decodeFrame, h.r, h.src, by rw [h.ctl], h.data, h.dec, h.reliable⟩

theorem HandsOver.setCur {es : List Byte} {s u : State p} (h : HandsOver es s u) (x : Index p) :
    HandsOver es s (setCur x u) :=
  ⟨h.frame.setCur x, h.r, h.src, h.midtree, h.data, h.dec, h.reliable⟩

/-- A symbol has not been handed over: it was refused, or DEC_COUNT is at its last value (R65). -/
structure Withheld (x : FaultCode) (s u : State p) : Prop where
  frame : DecodeFrame s u
  midtree : u.ctl.midtree = s.ctl.midtree
  data : u.env.sym.data = s.env.sym.data
  dec : u.cnt.dec = s.cnt.dec
  cause : (x = .ioSym ∧ ¬ symReliable s) ∨ (x = .countOvf ∧ atMax s.cnt.dec = true)

theorem symEmit_ends (v : Byte) (s : State p) : (symEmit v s).Ends (HandsOver [v] s) fun x => Withheld x s := by
  rcases symEmit_cases v s with ⟨hfull, e⟩ | ⟨-, -, e⟩ | ⟨-, ha, e⟩
  · rw [e]; exact ⟨.refl s, rfl, rfl, rfl, .inr ⟨rfl, hfull⟩⟩
  · rw [e]; exact (symEmit_emitted e).handsOver
  · rw [e]
    refine ⟨⟨rfl, rfl, rfl, rfl, rfl, rfl, rfl, ?_, ?_, ?_⟩, rfl, ?_, rfl, .inl ⟨rfl, fun hrel => ?_⟩⟩
    · simp
    · simp
    · simp
    · simp
    · exact Bool.false_ne_true (ha.symm.trans (headD_of_all hrel))

/-! ### One step of the walk -/

/-- Descending from an internal node leads to its child (R222). -/
theorem descend_child {s : State p} {l r : Tree} (b : Bool) (hcap : s.mem.tm.length ≤ p.nodeCap)
    (h : SubtreeAt s.mem.tm s.ctl.cur.toNat (.node l r)) :
    ∃ x, descend b s = setCur x s ∧ SubtreeAt s.mem.tm x.toNat ((Tree.node l r).child b) := by
  obtain ⟨x, hwalk, hchild⟩ := walkStep_node b hcap h
  rw [walkStep_internal b h.node.1] at hwalk
  injection hwalk with hdescend
  exact ⟨x, hdescend, hchild⟩

/-- The state `u` follows `s` with the symbols `es` handed over and the cursor on the subtree `c`. -/
def MovedTo (c : Tree) (es : List Byte) (s u : State p) : Prop :=
  HandsOver es s u ∧ SubtreeAt u.mem.tm u.ctl.cur.toNat c

/-- One symbol was due, and has not been handed over. -/
def Blocked (es : List Byte) (s : State p) (x : FaultCode) (u : State p) : Prop := es.length = 1 ∧ Withheld x s u

/-- The leaf test of the multi-leaf walk (R222). -/
theorem emitPending_ends {s : State p} {l r c : Tree} (htree : HoldsTree s.mem (.node l r))
    (hpos : SubtreeAt s.mem.tm s.ctl.cur.toNat c) :
    (emitPending s).Ends (MovedTo ((Tree.node l r).follow c none) ((Tree.node l r).symbols c none) s)
      (Blocked ((Tree.node l r).symbols c none) s) := by
  rw [emitPending]
  cases c with
  | leaf v =>
    rw [readNode_written hpos.leaf]
    dsimp only
    have hemit := symEmit_ends v s
    cases he : symEmit v s with
    | raise x u => rw [he] at hemit; exact ⟨rfl, hemit⟩
    | ok u a =>
      rw [he] at hemit
      have hroot : HoldsTree u.mem (.node l r) := by rw [HoldsTree, (HandsOver.frame hemit).mem]; exact htree
      exact ⟨HandsOver.setCur hemit 0#p.idxW, by simpa [setCur, Tree.follow] using SubtreeAt.root hroot⟩
  | node l' r' =>
    rw [readNode_written hpos.node.1]
    exact ⟨.refl s, hpos⟩

/-- After the leaf test the walk is at an internal node, from which the bit descends (R222). -/
theorem Tree.follow_bit (l r c : Tree) (b : Bool) : ∃ l' r', (Tree.node l r).follow c none = .node l' r' ∧
    (Tree.node l r).follow c (some b) = (Tree.node l' r').child b := by
  cases c with
  | leaf v => exact ⟨l, r, rfl, rfl⟩
  | node l' r' => exact ⟨l', r', rfl, rfl⟩

/-- A payload bit hands over its symbol, if any, and moves on (R222, R224). -/
theorem payloadStep_ends {s : State p} {t c : Tree} (b : Bool) (hcap : t.size ≤ p.nodeCap) (htree : HoldsTree s.mem t)
    (hpos : SubtreeAt s.mem.tm s.ctl.cur.toNat c) :
    (payloadStep b s).Ends (MovedTo (t.follow c (some b)) (t.symbols c (some b)) s)
      (Blocked (t.symbols c (some b)) s) := by
  cases t with
  | leaf v =>
    rw [payloadStep_rootLeaf b htree]
    cases b with
    | false => exact ⟨.refl s, hpos⟩
    | true =>
      have hemit := symEmit_ends v s
      cases he : symEmit v s with
      | raise x u => rw [he] at hemit; exact ⟨rfl, hemit⟩
      | ok u a =>
        rw [he] at hemit
        exact ⟨hemit, by rw [(symEmit_emitted he).mem, (symEmit_emitted he).ctl]; exact hpos⟩
  | node l r =>
    rw [payloadStep_node b htree, walkStep]
    obtain ⟨l', r', hnode, hchild⟩ := Tree.follow_bit l r c b
    have hsame : (Tree.node l r).symbols c (some b) = (Tree.node l r).symbols c none := by cases c <;> rfl
    have hemit := emitPending_ends htree hpos
    rw [hchild, hsame]
    cases he : emitPending s with
    | raise x u => rw [he] at hemit; exact hemit
    | ok u a =>
      rw [he, hnode] at hemit
      obtain ⟨hover, hat⟩ := hemit
      have htm : u.mem.tm.length ≤ p.nodeCap := by rw [hover.frame.mem, htree, layout_length]; exact hcap
      obtain ⟨x, hdescend, hx⟩ := descend_child b htm hat
      rw [Micro.andThen_ok, hdescend]
      exact ⟨hover.setCur x, hx⟩

/-- The symbol handed over at the sentinel, if any (R222 to R224). -/
def emitLast (s : State p) : Micro p Unit := if rootIsLeaf s then .ok s () else emitPending s

theorem payloadEnd_eq (s : State p) : payloadEnd s = (emitLast s).andThen fun u _ => stopAtEos u := by
  rw [payloadEnd, emitLast]
  split <;> rfl

theorem emitLast_ends {s : State p} {t c : Tree} (htree : HoldsTree s.mem t)
    (hpos : SubtreeAt s.mem.tm s.ctl.cur.toNat c) :
    (emitLast s).Ends (MovedTo (t.follow c none) (t.symbols c none) s) (Blocked (t.symbols c none) s) := by
  rw [emitLast]
  cases t with
  | leaf v => rw [(rootIsLeaf_leaf htree).1, if_pos rfl]; exact ⟨.refl s, hpos⟩
  | node l r => rw [rootIsLeaf_node htree, if_neg Bool.false_ne_true]; exact emitPending_ends htree hpos

/-- The cursor is at the root exactly when the walk is (R38, R225). -/
theorem cur_eq_zero_iff {m : Memory p} {t c : Tree} {x : Index p} (hcap : t.size ≤ p.nodeCap) (htree : HoldsTree m t)
    (hpos : SubtreeAt m.tm x.toNat c) : x = 0#p.idxW ↔ c = t := by
  have hlen : m.tm.length = t.size := by rw [htree, layout_length]
  have hsize := hpos.size_le
  constructor
  · rintro rfl
    have hroot : treeAt m.tm (c.height + t.height + 1) 0 = some t :=
      treeAt_subtree (by omega) (SubtreeAt.root htree) (by omega)
    have hc : treeAt m.tm (c.height + t.height + 1) 0 = some c :=
      treeAt_subtree (by omega) (by simpa using hpos) (by omega)
    exact Option.some.inj (hc.symm.trans hroot)
  · rintro rfl
    exact BitVec.eq_of_toNat_eq (by simp; omega)

/-! ### The loop -/

/-- Since DECODE started in `s0` the symbols `out` have been handed over. -/
structure Handed (out : List Byte) (s0 s : State p) : Prop where
  frame : DecodeFrame s0 s
  data : s.env.sym.data = s0.env.sym.data ++ out
  dec : s.cnt.dec.toNat = out.length

/-- In the middle of DECODE, started in `s0`: the cursor is on the subtree `c`, `out` is handed over, and the bits read
can still be `due` symbols. -/
structure Decoding (c : Tree) (out : List Byte) (due : Nat) (s0 s : State p) : Prop where
  handed : Handed out s0 s
  midtree : s.ctl.midtree = false
  pos : SubtreeAt s.mem.tm s.ctl.cur.toNat c
  isOpen : s.r.isOpen = s0.r.isOpen
  count : s.r.rbits.toNat + (remainingBits s).length = s0.r.rbits.toNat + (remainingBits s0).length
  paid : s0.r.rbits.toNat + out.length + due ≤ s.r.rbits.toNat
  source : sourceReliable s0 → sourceReliable s
  sym : symReliable s0 → symReliable s

/-- DECODE, started in `s0`, has completed as `e` says, with at least the symbols of the limit. -/
structure Decoded (t : Tree) (e : DecodeEnd) (s0 u : State p) : Prop where
  handed : Handed e.out s0 u
  midtree : u.ctl.midtree = (e.eos && e.pos != t)
  isOpen : u.r.isOpen = s0.r.isOpen
  remaining : remainingBits u = e.unread
  eos : u.r.eos = (s0.r.eos || e.eos)
  count : u.r.rbits.toNat + (remainingBits u).length = s0.r.rbits.toNat + (remainingBits s0).length
  enough : ∀ n, decodeLimit s0 = some n → n ≤ e.out.length

/-- Why DECODE, started in `s0`, faults with `out` handed over: a channel refused, a counter was full, or the stream of
`e` has too few symbols (R222, R229). -/
def Interrupts (e : DecodeEnd) (out : List Byte) (s0 : State p) (x : FaultCode) : Prop :=
  (x = .ioSource ∧ ¬ sourceReliable s0) ∨ (x = .ioSym ∧ ¬ symReliable s0) ∨
    (x = .countOvf ∧ ¬ readRoom s0 (remainingBits s0).length) ∨
    (x = .payloadShort ∧ out = e.out ∧ ∃ n, decodeLimit s0 = some n ∧ e.out.length < n)

/-- DECODE, started in `s0`, has faulted with a beginning of the symbols handed over (R276). -/
structure Interrupted (e : DecodeEnd) (s0 : State p) (x : FaultCode) (out : List Byte) (u : State p) : Prop where
  handed : Handed out s0 u
  midtree : u.ctl.midtree = false
  isPrefix : out <+: e.out
  cause : Interrupts e out s0 x

section
variable {t c c' : Tree} {e : DecodeEnd} {out es : List Byte} {due due' : Nat} {s0 s u : State p} {x : FaultCode}

theorem Decoding.holdsTree (h : Decoding c out due s0 s) (htree : HoldsTree s0.mem t) : HoldsTree s.mem t := by
  rw [HoldsTree, h.handed.frame.mem]; exact htree

theorem decodeLimit_eq (h : Handed out s0 s) : decodeLimit s = decodeLimit s0 := by
  rw [decodeLimit, decodeLimit, h.frame.cfg]

theorem limitReached_iff (h : Handed out s0 s) : limitReached s = true ↔ decodeLimit s0 = some out.length := by
  rw [← decodeLimit_eq h, decodeLimit, limitReached, Bool.and_eq_true, beq_iff_eq, ← BitVec.toNat_inj, h.dec]
  cases s.cfg.limitEn <;> simp [eq_comm]

theorem payloadIsShort_iff (h : Handed out s0 s) :
    payloadIsShort s = true ↔ ∃ n, decodeLimit s0 = some n ∧ out.length < n := by
  rw [← decodeLimit_eq h, decodeLimit, payloadIsShort, Bool.and_eq_true, BitVec.ult, h.dec]
  cases s.cfg.limitEn <;> simp

/-- Nothing but the stream is touched by a read. -/
theorem UnpackerFrame.decodeFrame (h : UnpackerFrame s u) (hres : u.res = s.res) : DecodeFrame s u :=
  ⟨h.w, hres, h.mem, by rw [h.cnt], h.cfg, h.flt, by rw [h.ctl], h.snk, h.inputs, h.readData⟩

theorem Handed.read (h : Handed out s0 s) (k : UnpackerFrame s u) (hres : u.res = s.res) : Handed out s0 u :=
  ⟨h.frame.trans (k.decodeFrame hres), by rw [k.sym, h.data], by rw [k.cnt, h.dec]⟩

theorem Decoding.read {bits : List Bool} (h : Decoding c out due s0 s) (k : Took bits s u) :
    Decoding c out (due + bits.length) s0 u where
  handed := h.handed.read k.frame k.res
  midtree := by rw [k.frame.ctl, h.midtree]
  pos := by rw [k.frame.mem, k.frame.ctl]; exact h.pos
  isOpen := k.isOpen.trans h.isOpen
  count := by
    have hcount := h.count
    rw [k.remaining, List.length_append] at hcount
    rw [k.rbits]
    omega
  paid := by
    have hpaid := h.paid
    rw [k.rbits]
    omega
  source := k.reliable ∘ h.source
  sym hrel := by rw [symReliable, k.frame.sym]; exact h.sym hrel

theorem Decoding.handOver (h : Decoding c out due s0 s) (k : MovedTo c' es s u) (hdue : due' + es.length ≤ due) :
    Decoding c' (out ++ es) due' s0 u where
  handed := ⟨h.handed.frame.trans k.1.frame, by rw [k.1.data, h.handed.data, List.append_assoc],
    by rw [k.1.dec, h.handed.dec, List.length_append]⟩
  midtree := k.1.midtree.trans h.midtree
  pos := k.2
  isOpen := by rw [k.1.r, h.isOpen]
  count := by rw [remainingBits, k.1.r, k.1.src]; exact h.count
  paid := by
    have hpaid := h.paid
    rw [k.1.r, List.length_append]
    omega
  source hrel := by rw [sourceReliable, k.1.src]; exact h.source hrel
  sym := k.1.reliable ∘ h.sym

/-- A symbol due that is not handed over faults DECODE (R222, R276): there is a bit read for every symbol, so DEC_COUNT
is full only if RBITS cannot count the stream. -/
theorem Decoding.blocked (h : Decoding c out due s0 s) (k : Blocked es s x u) (hdue : es.length ≤ due)
    (hpre : out <+: e.out) : Interrupted e s0 x out u := by
  obtain ⟨hone, frame, midtree, data, dec, cause⟩ := k
  refine ⟨⟨h.handed.frame.trans frame, by rw [data, h.handed.data], by rw [dec, h.handed.dec]⟩,
    midtree.trans h.midtree, hpre, ?_⟩
  rcases cause with ⟨rfl, hrel⟩ | ⟨rfl, hfull⟩
  · exact .inr (.inl ⟨rfl, fun hs0 => hrel (h.sym hs0)⟩)
  · refine .inr (.inr (.inl ⟨rfl, fun hroom => ?_⟩))
    have hmax := (atMax_iff _).mp hfull
    have hpaid := h.paid
    have hcount := h.count
    rw [h.handed.dec] at hmax
    rw [readRoom] at hroom
    omega

/-- A read that faults was refused its byte, or RBITS cannot count the bit that is there (R127, R276). -/
theorem readBit_interrupted (h : readBit s = .raise x u) : UnpackerFrame s u ∧ u.res = s.res ∧
    ((x = .ioSource ∧ ¬ sourceReliable s) ∨ (x = .countOvf ∧ ¬ readRoom s (remainingBits s).length)) := by
  have hfull (hmax : atMax s.r.rbits = true) (hbits : remainingBits s ≠ []) :
      ¬ readRoom s (remainingBits s).length := by
    have hlen := List.length_pos_iff.mpr hbits
    rw [atMax_iff] at hmax
    rw [readRoom]
    omega
  rcases readBit_cases s with ⟨_, e⟩ | ⟨heos, hrem, e⟩ | ⟨_, _, ha, e⟩ | ⟨_, _, _, e⟩ | ⟨b, heos, _, ha, e⟩ <;>
    rw [e] at h
  · cases h
  · rcases deliverBit_cases s with ⟨hmax, e'⟩ | ⟨_, e'⟩ <;> rw [e'] at h <;> cases h
    exact ⟨.refl s, rfl, .inr ⟨rfl, hfull hmax (by simp [remainingBits, heos, undeliveredBits_cons _ hrem])⟩⟩
  · cases h
    refine ⟨⟨rfl, rfl, rfl, rfl, rfl, rfl, by simp, by simp, by simp, by simp⟩, rfl, .inl ⟨rfl, fun hrel => ?_⟩⟩
    rw [fetchAnswer_reliable hrel] at ha
    split at ha <;> cases ha
  · cases h
  · rcases deliverBit_cases ((s.port (.srcFetch (.byte b))).setR { s.r with buf := b, rem := 8 }) with
      ⟨hmax, e'⟩ | ⟨_, e'⟩ <;> rw [e'] at h <;> cases h
    exact ⟨⟨rfl, rfl, rfl, rfl, rfl, rfl, by simp, by simp, by simp, by simp⟩, rfl,
      .inr ⟨rfl, hfull hmax (by simp [remainingBits, heos, drop_pos (fetchAnswer_byte ha), bits8])⟩⟩

theorem Decoding.readFails (h : Decoding c out due s0 s) (k : readBit s = .raise x u) (hpre : out <+: e.out) :
    Interrupted e s0 x out u := by
  obtain ⟨frame, hres, cause⟩ := readBit_interrupted k
  refine ⟨h.handed.read frame hres, by rw [frame.ctl, h.midtree], hpre, ?_⟩
  rcases cause with ⟨rfl, hrel⟩ | ⟨rfl, hroom⟩
  · exact .inl ⟨rfl, fun hs0 => hrel (h.source hs0)⟩
  · refine .inr (.inr (.inl ⟨rfl, fun hs0 => hroom ?_⟩))
    have hcount := h.count
    rw [readRoom] at hs0 ⊢
    omega

/-- MIDTREE is no part of what has been handed over. -/
theorem Handed.setMidtree (h : Handed out s0 s) (b : Bool) : Handed out s0 (s.setCtl { s.ctl with midtree := b }) := by
  obtain ⟨⟨w, res, mem, enc, cfg, flt, ctl, snk, inputs, readData⟩, data, dec⟩ := h
  exact ⟨⟨w, res, mem, enc, cfg, flt, by rw [State.setCtl_ctl, ctl], snk, inputs, readData⟩, data, dec⟩

/-- The end of the stream (R225, R229). -/
theorem Decoding.stopAtEos_ends (h : Decoding c out due s0 s) (hcap : t.size ≤ p.nodeCap) (htree : HoldsTree s0.mem t)
    (hnil : remainingBits s = []) (heos : s.r.eos = true) :
    (stopAtEos s).Ends (Decoded t ⟨out, c, [], true⟩ s0)
      fun x u => ∃ o, Interrupted ⟨out, c, [], true⟩ s0 x o u := by
  have hshort := payloadIsShort_iff h.handed
  have hroot := cur_eq_zero_iff hcap (h.holdsTree htree) h.pos
  rw [stopAtEos]
  by_cases hs : payloadIsShort s = true
  · rw [if_pos hs]
    exact ⟨out, h.handed, h.midtree, List.prefix_rfl, .inr (.inr (.inr ⟨rfl, rfl, hshort.mp hs⟩))⟩
  · have hmid : midtreeAtEos s = (c != t) := by
      rw [midtreeAtEos, Bool.eq_iff_iff]
      simpa using not_congr hroot
    rw [if_neg hs]
    exact ⟨h.handed.setMidtree _, hmid, h.isOpen, hnil, heos.trans (Bool.or_true _).symm, h.count,
      fun n hn => Nat.le_of_not_lt fun hlt => hs (hshort.mpr ⟨n, hn, hlt⟩)⟩

/-- The sentinel hands over the last symbol, and then the stream is at its end (R222 to R225). -/
theorem Decoding.payloadEnd_ends (h : Decoding c out (t.symbols c none).length s0 s) (hcap : t.size ≤ p.nodeCap)
    (htree : HoldsTree s0.mem t) (heos : s.r.eos = true) :
    (payloadEnd s).Ends (Decoded t ⟨out ++ t.symbols c none, t.follow c none, [], true⟩ s0)
      fun x u => ∃ o, Interrupted ⟨out ++ t.symbols c none, t.follow c none, [], true⟩ s0 x o u := by
  have hlast := emitLast_ends (h.holdsTree htree) h.pos
  rw [payloadEnd_eq]
  cases hl : emitLast s with
  | raise x u => rw [hl] at hlast; exact ⟨out, h.blocked hlast (Nat.le_refl _) (List.prefix_append _ _)⟩
  | ok u a =>
    rw [hl] at hlast
    have heos' : u.r.eos = true := by rw [hlast.1.r, heos]
    exact (h.handOver (due' := 0) hlast (by simp)).stopAtEos_ends hcap htree (by rw [remainingBits, if_pos heos']) heos'

/-- The limit (R225, R228). -/
theorem Decoding.stopAtLimit_decoded (h : Decoding c out due s0 s) (hlim : decodeLimit s0 = some out.length)
    (heos : s.r.eos = s0.r.eos) :
    Decoded t ⟨out, c, remainingBits s, false⟩ s0 (s.setCtl { s.ctl with midtree := false }) :=
  ⟨h.handed.setMidtree false, rfl, h.isOpen, rfl, heos.trans (Bool.or_false _).symm, h.count,
    fun _ hn => (Option.some.inj (hn.symm.trans hlim)).le⟩

end

/-- A read that delivers a bit leaves the sentinel unread (R127). -/
theorem readBit_some_eos {b : Bool} {s t : State p} (h : readBit s = .ok t (some b)) : t.r.eos = s.r.eos := by
  rcases readBit_cases s with ⟨_, e⟩ | ⟨_, _, e⟩ | ⟨_, _, _, e⟩ | ⟨_, _, _, e⟩ | ⟨x, _, _, _, e⟩ <;> rw [e] at h
  · cases h
  · rcases deliverBit_cases s with ⟨_, e'⟩ | ⟨_, e'⟩ <;> rw [e'] at h <;> cases h
    rfl
  · cases h
  · cases h
  · rcases deliverBit_cases ((s.port (.srcFetch (.byte x))).setR { s.r with buf := x, rem := 8 }) with
      ⟨_, e'⟩ | ⟨_, e'⟩ <;> rw [e'] at h <;> cases h
    rfl

/-- DECODE's loop follows `decodeFrom` to its end, or faults on the way (R222 to R229). -/
theorem decodeLoop_ends {t : Tree} {s0 : State p} (hcap : t.size ≤ p.nodeCap) (htree : HoldsTree s0.mem t) (n : Nat)
    {s : State p} {c : Tree} {out : List Byte} (h : Decoding c out (t.symbols c none).length s0 s)
    (heos : s.r.eos = s0.r.eos) (hn : (remainingBits s).length < n) :
    (decodeLoop n s).Ends (Decoded t (decodeFrom t (decodeLimit s0) (remainingBits s) c out) s0)
      fun x u => ∃ o, Interrupted (decodeFrom t (decodeLimit s0) (remainingBits s) c out) s0 x o u := by
  induction n generalizing s c out with
  | zero => omega
  | succ n ih =>
    have hpre := decodeFrom_prefix t (decodeLimit s0) (remainingBits s) c out
    rw [decodeLoop]
    by_cases hlim : decodeLimit s0 = some out.length
    · rw [if_pos ((limitReached_iff h.handed).mpr hlim), decodeFrom_limit hlim]
      exact h.stopAtLimit_decoded hlim heos
    rw [if_neg (mt (limitReached_iff h.handed).mp hlim)]
    cases hread : readBit s with
    | raise x u => exact ⟨out, h.readFails hread hpre⟩
    | ok s1 o =>
      rw [Micro.andThen_ok]
      cases o with
      | none =>
        obtain ⟨took, hnil, heos1, -⟩ := readBit_eos hread
        rw [hnil, decodeFrom_nil hlim]
        exact (h.read took).payloadEnd_ends hcap htree heos1
      | some b =>
        have took := readBit_took hread
        have h1 := h.read took
        have hdue := t.symbols_pending c b
        rw [took.remaining, List.singleton_append, decodeFrom_cons hlim] at hpre ⊢
        have hstep := payloadStep_ends b hcap (h1.holdsTree htree) h1.pos
        dsimp only
        cases hp : payloadStep b s1 with
        | raise x u => rw [hp] at hstep; exact ⟨out, h1.blocked hstep (by simp; omega) hpre⟩
        | ok u a =>
          rw [hp] at hstep
          have hrest : remainingBits u = remainingBits s1 := by
            rw [remainingBits, hstep.1.r, hstep.1.src, remainingBits]
          have hlt := readBit_remaining_lt hread
          rw [Micro.andThen_ok, ← hrest]
          exact ih (h1.handOver hstep (by simpa using hdue)) (by rw [hstep.1.r, readBit_some_eos hread, heos])
            (by rw [hrest]; omega)

/-- The run of DECODE from `s` on the tree `t`, as a function of the bits to come. -/
def decodeEnd (t : Tree) (s : State p) : DecodeEnd := decodeFrom t (decodeLimit s) (remainingBits s) t []

/-- DECODE from a state that holds the tree `t` (R221). -/
theorem runDecoder_ends {s : State p} {t : Tree} (hcap : t.size ≤ p.nodeCap) (htree : HoldsTree s.mem t) :
    (runDecoder s).Ends (Decoded t (decodeEnd t s) s) fun x u => ∃ o, Interrupted (decodeEnd t s) s x o u := by
  have hnone : t.symbols t none = [] := by cases t <;> rfl
  refine decodeLoop_ends (s := beginDecode s) hcap htree (bitsLeft s + 1) ?_ rfl
    (Nat.lt_succ_of_le (remainingBits_le s))
  rw [hnone]
  exact ⟨⟨⟨rfl, rfl, rfl, rfl, rfl, rfl, rfl, rfl, rfl, rfl⟩, (List.append_nil _).symm, by simp [beginDecode]⟩, rfl,
    by simpa [beginDecode] using SubtreeAt.root htree, rfl, rfl, Nat.le_refl _, id, id⟩

end Sys2Proof.Machine
end

section
/-! DECODE as a command (45_decoder.md R221 to R230): what `exec` answers when the loop completes and when it faults. -/

namespace Sys2Proof.Machine

theorem exec_decode_runs {s : State} (hlive : s.flt.faulted = false) (hopen : s.r.isOpen = true)
    (hvalid : s.ctl.treeValid = true) : exec .decode s = finish 0x3800#16 (runDecoder s) := by
  rw [exec_decode hlive, decodeChecked_runs hopen hvalid]

theorem decodeEnd_out (t : Tree) (s : State) : (decodeEnd t s).out = dec t (remainingBits s) (decodeLimit s) :=
  decodeFrom_out _ _ _

/-- DECODE completes, or enters the fault that interrupts it (R275, R276). -/
theorem exec_decode_cases {s : State} {t : Tree} (hlive : s.flt.faulted = false) (hopen : s.r.isOpen = true)
    (hvalid : s.ctl.treeValid = true) (htree : HoldsTree s.mem t) (hsize : t.size ≤ 511) :
    (∃ u, exec .decode s = .next u ∧ Decoded t (decodeEnd t s) s u) ∨
    (∃ x out u, exec .decode s = .next (raiseFault x 0x3800#16 u) ∧ Interrupted (decodeEnd t s) s x out u) := by
  have hrun := runDecoder_ends hsize htree
  rw [exec_decode_runs hlive hopen hvalid]
  cases hm : runDecoder s with
  | ok u a => rw [hm] at hrun; exact .inl ⟨u, rfl, hrun⟩
  | raise x u =>
    rw [hm] at hrun
    obtain ⟨out, hout⟩ := hrun
    exact .inr ⟨x, out, u, rfl, hout⟩

/-- With channels that refuse nothing and room to count, only a short payload interrupts DECODE (R229). -/
theorem Interrupts.short {e : DecodeEnd} {out : List Byte} {s : State} {x : FaultCode} (h : Interrupts e out s x)
    (hsource : sourceReliable s) (hsym : symReliable s) (hroom : readRoom s (remainingBits s).length) :
    x = .payloadShort ∧ out = e.out ∧ ∃ n, decodeLimit s = some n ∧ e.out.length < n := by
  rcases h with ⟨-, hno⟩ | ⟨-, hno⟩ | ⟨-, hno⟩ | h
  · exact absurd hsource hno
  · exact absurd hsym hno
  · exact absurd hroom hno
  · exact h

theorem decodeLimit_naive {s : State} (h : s.cfg.limitEn = false) : decodeLimit s = none := by simp [decodeLimit, h]

theorem decodeLimit_limited {s : State} (h : s.cfg.limitEn = true) : decodeLimit s = some s.cfg.decLimit.toNat := by
  simp [decodeLimit, h]

/-- Where the stream holds the symbols of the limit, DECODE completes (R222, R224, R228). -/
theorem exec_decode_completes {s : State} {t : Tree} (hlive : s.flt.faulted = false) (hopen : s.r.isOpen = true)
    (hvalid : s.ctl.treeValid = true) (htree : HoldsTree s.mem t) (hsize : t.size ≤ 511) (hsource : sourceReliable s)
    (hsym : symReliable s) (hroom : readRoom s (remainingBits s).length)
    (henough : s.cfg.limitEn = true → s.cfg.decLimit.toNat ≤ (dec t (remainingBits s) (decodeLimit s)).length) :
    ∃ u, exec .decode s = .next u ∧ Decoded t (decodeEnd t s) s u := by
  rcases exec_decode_cases hlive hopen hvalid htree hsize with h | ⟨x, out, u, -, h⟩
  · exact h
  · obtain ⟨-, -, n, hlim, hshort⟩ := h.cause.short hsource hsym hroom
    rw [decodeEnd_out] at hshort
    cases hen : s.cfg.limitEn with
    | false => rw [decodeLimit_naive hen] at hlim; cases hlim
    | true =>
      have hle := henough hen
      have hn := Option.some.inj ((decodeLimit_limited hen).symm.trans hlim)
      omega

/-- With DEC_LIMIT = 0 nothing is read (R228). -/
theorem exec_decode_zero {s u : State} (hlive : s.flt.faulted = false) (hopen : s.r.isOpen = true)
    (hvalid : s.ctl.treeValid = true) (hlim : s.cfg.limitEn = true) (hzero : s.cfg.decLimit = 0#64)
    (h : exec .decode s = .next u) : u.r = s.r ∧ u.env = s.env := by
  have hreached : limitReached (beginDecode s) = true := by simp [limitReached, beginDecode, hlim, hzero]
  rw [exec_decode_runs hlive hopen hvalid, runDecoder, decodeLoop, if_pos hreached] at h
  cases h
  exact ⟨rfl, rfl⟩

/-- Settles O39: DECODE's loop follows `decodeFrom`, whose parts are `dec`, `decStop` and `endsMidTree`. -/
theorem decodeEmitsDec : Obligations.DecodeEmitsDec := by
  unfold Obligations.DecodeEmitsDec
  intro s t hlive hopen hvalid htree hsize hsource hsym hroom henough
  obtain ⟨u, hu, done⟩ := exec_decode_completes hlive hopen hvalid htree hsize hsource hsym hroom henough
  have hout := decodeEnd_out t s
  have hstop : ((decodeEnd t s).unread, (decodeEnd t s).eos) = decStop t (remainingBits s) (decodeLimit s) :=
    decodeFrom_stop _ _ _
  refine ⟨u, hu, done.handed.frame, done.isOpen.trans hopen, hout ▸ done.handed.data, hout ▸ done.handed.dec,
    by rw [← hstop, done.remaining], by rw [← hstop, done.eos], done.count,
    fun hlim hzero => exec_decode_zero hlive hopen hvalid hlim hzero hu, fun hnaive => ?_, fun hlim => ?_⟩
  · have hend := decodeFrom_naive_stop t (remainingBits s) t []
    have hmid := decodeFrom_midTree t (remainingBits s)
    rw [← decodeLimit_naive hnaive] at hend hmid
    obtain ⟨hunread, heos⟩ := hend
    exact ⟨done.remaining.trans hunread, by rw [done.eos, decodeEnd, heos, Bool.or_true],
      by rw [done.midtree, decodeEnd, heos, Bool.true_and, hmid]⟩
  · have hn := decodeLimit_limited hlim
    have hle := dec_length_le_limit t (remainingBits s) s.cfg.decLimit.toNat
    rw [← hn, ← hout] at hle
    have hexact : (decodeEnd t s).out.length = s.cfg.decLimit.toNat := Nat.le_antisymm hle (done.enough _ hn)
    refine ⟨BitVec.eq_of_toNat_eq (done.handed.dec.trans hexact), ?_⟩
    have hpos : (decodeEnd t s).eos = true → (decodeEnd t s).pos = t := 
      decodeFrom_exact_pos (hn.trans (congrArg some hexact.symm))
    rw [done.midtree]
    cases heos : (decodeEnd t s).eos with
    | false => rfl
    | true => simp [hpos heos]

/-- Settles O40: the loop cannot complete below the limit, and a limit that is not reached cuts nothing off. -/
theorem shortPayloadFaults : Obligations.ShortPayloadFaults := by
  unfold Obligations.ShortPayloadFaults
  intro s t hlive hopen hvalid htree hsize hsource hsym hroom hlim hshort
  have hn := decodeLimit_limited hlim
  have hout : (decodeEnd t s).out = dec t (remainingBits s) none := by
    rw [decodeEnd_out, hn, dec_limit, List.take_of_length_le hshort.le]
  rcases exec_decode_cases hlive hopen hvalid htree hsize with ⟨u, -, done⟩ | ⟨x, out, u, hu, stop⟩
  · have henough := done.enough _ hn
    rw [hout] at henough
    omega
  · obtain ⟨rfl, rfl, -⟩ := stop.cause.short hsource hsym hroom
    rw [hout] at stop
    exact ⟨_, hu, raiseFault_flt _ _ _, by rw [raiseFault_sym, stop.handed.data],
      by rw [raiseFault_cnt, stop.handed.dec], by rw [raiseFault_ctl]; exact stop.midtree⟩

/-- Settles O41: where DECODE completes it has handed over all of `dec(T, s, lim)`, and where it faults a beginning. -/
theorem decodeFaultsArePrecise : Obligations.DecodeFaultsArePrecise := by
  unfold Obligations.DecodeFaultsArePrecise
  intro s u t hlive hopen hvalid htree hsize hu
  have hout := decodeEnd_out t s
  rcases exec_decode_cases hlive hopen hvalid htree hsize with ⟨u', hu', done⟩ | ⟨x, out, u', hu', stop⟩ <;>
    rw [hu'] at hu <;> cases hu
  · obtain ⟨frame, data, hdec⟩ := done.handed
    refine ⟨(decodeEnd t s).out, by rw [hout], data, hdec, frame.mem, frame.res, frame.enc, fun hfault => ?_⟩
    rw [frame.flt, hlive] at hfault
    cases hfault
  · obtain ⟨frame, data, hdec⟩ := stop.handed
    refine ⟨out, hout ▸ stop.isPrefix, by rw [raiseFault_sym, data], by rw [raiseFault_cnt, hdec],
      by rw [raiseFault_mem, frame.mem], by rw [raiseFault_res, frame.res], by rw [raiseFault_cnt, frame.enc],
      fun _ => ?_⟩
    rw [raiseFault_flt]
    refine ⟨rfl, ?_⟩
    rcases stop.cause with ⟨rfl, -⟩ | ⟨rfl, -⟩ | ⟨rfl, -⟩ | ⟨rfl, -⟩
    · exact .inl rfl
    · exact .inr (.inl rfl)
    · exact .inr (.inr (.inr rfl))
    · exact .inr (.inr (.inl rfl))

end Sys2Proof.Machine
end

section
/-! Decoding a payload and its pad (45_decoder.md R226 to R228): a code leads the walk to its leaf, and the pad zeros
down the left edge of the tree. -/

namespace Sys2Proof.Machine

/-- A code leads naive decoding from its node to its leaf (R200, R222). -/
theorem decodeRun_code (t : Tree) {c : Tree} {path code : List Bool} {v : Byte} (h : (v, code) ∈ walk c path) :
    ∃ q, code = path ++ q ∧ ∀ s out, decodeRun t none (q ++ s) c out = decodeRun t none s (.leaf v) out := by
  induction c generalizing path with
  | leaf w =>
    obtain ⟨rfl, rfl⟩ := Prod.mk.inj (List.mem_singleton.mp h)
    exact ⟨[], (List.append_nil _).symm, fun _ _ => rfl⟩
  | node l r hl hr =>
    rcases List.mem_append.mp h with h | h
    · obtain ⟨q, rfl, e⟩ := hl h
      exact ⟨false :: q, by simp, fun s out => by simp [decodeRun, Tree.child, e]⟩
    · obtain ⟨q, rfl, e⟩ := hr h
      exact ⟨true :: q, by simp, fun s out => by simp [decodeRun, Tree.child, e]⟩

/-- From a pending leaf naive decoding goes on as from the root with one symbol more (R222, R223). -/
theorem decodeRun_pending (l r : Tree) (v : Byte) (s : List Bool) (out : List Byte) :
    decodeRun (.node l r) none s (.leaf v) out = decodeRun (.node l r) none s (.node l r) (out ++ [v]) := by
  cases s <;> simp [decodeRun]

/-- Naive decoding of a payload gives its bytes and goes on from the root (R212, R226). -/
theorem decodeRun_payload {l r : Tree} {b : List Byte} (hb : ∀ v ∈ b, v ∈ (Tree.node l r).leaves) (s : List Bool)
    (out : List Byte) :
    decodeRun (.node l r) none (payload (.node l r) b ++ s) (.node l r) out =
      decodeRun (.node l r) none s (.node l r) (out ++ b) := by
  induction b generalizing out with
  | nil => simp [payload]
  | cons v b ih =>
    obtain ⟨hv, hb⟩ := List.forall_mem_cons.mp hb
    obtain ⟨code, hcode, hwalk⟩ := code_of_leaf hv
    obtain ⟨q, hq, e⟩ := decodeRun_code (.node l r) hwalk
    obtain rfl : code = q := hq
    rw [payload_cons hcode, List.append_assoc, e, decodeRun_pending, ih hb, List.append_assoc, List.singleton_append]

/-- Zeros that do not reach the leftmost leaf leave the walk as many nodes down the left edge (R226). -/
theorem decodeRun_zeros_short (t : Tree) {n : Nat} {c : Tree} (h : n < c.depthL) (out : List Byte) :
    ∃ d, decodeRun t none (List.replicate n false) c out = (out, d) ∧ d.depthL + n = c.depthL := by
  induction n generalizing c with
  | zero => cases c with
    | leaf v => cases h
    | node l r => exact ⟨.node l r, by simp [decodeRun], rfl⟩
  | succ n ih => cases c with
    | leaf v => cases h
    | node l r =>
      rw [Tree.depthL] at h
      obtain ⟨d, hd, hdepth⟩ := ih (c := l) (by omega)
      exact ⟨d, by simp [decodeRun, List.replicate_succ, Tree.child, hd], by rw [Tree.depthL]; omega⟩

/-- As many zeros as the leftmost leaf is deep lead to it (R226). -/
theorem decodeRun_zeros_leftmost (t c : Tree) (s : List Bool) (out : List Byte) :
    decodeRun t none (List.replicate c.depthL false ++ s) c out = decodeRun t none s (.leaf c.leftmost) out := by
  induction c with
  | leaf v => rfl
  | node l r hl _ =>
    rw [Tree.depthL, Nat.add_comm, List.replicate_succ]
    simp [decodeRun, Tree.child, Tree.leftmost, hl]

/-- Naive decoding of pad zeros: a symbol each time the leftmost leaf is reached, and what is left over goes into
another code (R226, R227). -/
theorem decodeRun_zeros (l r : Tree) (n : Nat) (out : List Byte) :
    (decodeRun (.node l r) none (List.replicate n false) (.node l r) out).1 =
        out ++ List.replicate (n / (Tree.node l r).depthL) (Tree.node l r).leftmost ∧
      ((decodeRun (.node l r) none (List.replicate n false) (.node l r) out).2 != .node l r) =
        decide (n % (Tree.node l r).depthL ≠ 0) := by
  have hpos : 0 < (Tree.node l r).depthL := by rw [Tree.depthL]; omega
  induction n using Nat.strong_induction_on generalizing out with
  | h n ih =>
    by_cases hlt : n < (Tree.node l r).depthL
    · rw [Nat.div_eq_of_lt hlt, Nat.mod_eq_of_lt hlt]
      rcases Nat.eq_zero_or_pos n with rfl | hn
      · simp [decodeRun]
      · obtain ⟨d, hd, hdepth⟩ := decodeRun_zeros_short (.node l r) hlt out
        have hne : d ≠ .node l r := by rintro rfl; omega
        rw [hd]
        simp [hne, hn.ne']
    · obtain ⟨m, rfl⟩ := Nat.exists_eq_add_of_le (Nat.le_of_not_lt hlt)
      rw [List.replicate_add, decodeRun_zeros_leftmost, decodeRun_pending, Nat.add_div_left m hpos, Nat.add_mod_left]
      obtain ⟨hout, hend⟩ := ih m (by omega) (out ++ [(Tree.node l r).leftmost])
      exact ⟨by rw [hout, List.append_assoc, List.singleton_append, ← List.replicate_succ], hend⟩

/-- The payload of a single-leaf tree is one `1` per byte (R202, R212). -/
theorem payload_leaf {v : Byte} {b : List Byte} (hb : ∀ x ∈ b, x = v) :
    payload (.leaf v) b = List.replicate b.length true := by
  induction b with
  | nil => rfl
  | cons x b ih =>
    obtain ⟨rfl, hb⟩ := List.forall_mem_cons.mp hb
    have hcode : codeOf (.leaf x) x = some [true] := by simp [codeOf, codes]
    rw [payload_cons hcode, ih hb]
    rfl

/-- In root-leaf mode pad zeros are no symbols (R224, R226). -/
theorem dec_leaf_payload {v : Byte} {b : List Byte} (hb : ∀ x ∈ b, x ∈ (Tree.leaf v).leaves) (n : Nat) :
    dec (.leaf v) (payload (.leaf v) b ++ List.replicate n false) none = b := by
  have hv : ∀ x ∈ b, x = v := fun x hx => List.mem_singleton.mp (hb x hx)
  rw [dec, payload_leaf hv, List.count_append, List.count_replicate_self, List.count_replicate]
  exact (List.eq_replicate_iff.mpr ⟨rfl, hv⟩).symm

/-- R226: naive decoding gives the payload's bytes and then the pad's symbols. -/
theorem dec_node_payload {l r : Tree} {b : List Byte} (hb : ∀ v ∈ b, v ∈ (Tree.node l r).leaves) (n : Nat) :
    dec (.node l r) (payload (.node l r) b ++ List.replicate n false) none =
      b ++ List.replicate (n / (Tree.node l r).depthL) (Tree.node l r).leftmost := by
  rw [dec, decodeRun_payload hb]
  exact (decodeRun_zeros l r n b).1

/-- Settles O43: the payload brings the walk back to the root, and the pad zeros go down the left edge. -/
theorem naiveDecodingAppendsPadSymbols : Obligations.NaiveDecodingAppendsPadSymbols := by
  unfold Obligations.NaiveDecodingAppendsPadSymbols
  intro t b n _ hb _
  refine ⟨fun v ht => ?_, fun l r ht => ?_⟩
  · subst ht; exact dec_leaf_payload hb n
  · subst ht
    have hpos : 0 < (Tree.node l r).depthL := by rw [Tree.depthL]; omega
    refine ⟨dec_node_payload hb n, ?_, ?_⟩
    · rw [endsMidTree, decodeRun_payload hb]
      exact (decodeRun_zeros l r n b).2
    · rw [dec_node_payload hb, List.append_right_eq_self, List.replicate_eq_nil_iff, Nat.div_eq_zero_iff]
      omega

/-- Settles O44: naive decoding starts with the bytes, and the limit cuts off what the pad adds. -/
theorem limitDecodingIsExact : Obligations.LimitDecodingIsExact := by
  unfold Obligations.LimitDecodingIsExact
  intro t b n _ hb
  rw [dec_limit]
  cases t with
  | leaf v => rw [dec_leaf_payload hb, List.take_length]
  | node l r => rw [dec_node_payload hb, List.take_left]

end Sys2Proof.Machine
end

section
/-! DECOMPRESS (46_system_and_macros.md R244, R245): the source holds the header, which DESER takes, then the payload
and the pad, which DECODE takes. -/

namespace Sys2Proof.Machine

/-- What a host that decompresses `f` with the limit `n` has done before it opens the source (R244). -/
def limitedTo (f : List Byte) (n : Counter) (d : State) : State :=
  (d.setEnv { d.env with src := { d.env.src with offered := f } }).setCfg { limitEn := true, decLimit := n }

theorem runHost_decompress (f : List Byte) (n : Counter) (d : State) :
    runHost (decompress f (some n)) d =
      runHost [issue .openr, issue .deser, issue .decode, issue .closer] (limitedTo f n d) := rfl

/-- OPENR and DESER on a source that starts with a header leave what comes after it to be read (R126, R177). -/
theorem exec_openr_deser {d : State} {t : Tree} {rest : List Bool} (hlive : d.flt.faulted = false)
    (hclosed : d.r.isOpen = false) (hrel : sourceReliable d) (hsize : t.size ≤ 511)
    (hoffered : unpack d.env.src.offered = ser t ++ rest) :
    ∃ a, exec .openr d = .next (afterOpenr d) ∧ exec .deser (afterOpenr d) = .next a ∧
      Consumed (ser t) (afterOpenr d) a ∧ remainingBits a = rest ∧ HoldsTree a.mem t ∧ a.ctl.treeValid = true := by
  have hlen := ser_length_lt hsize
  have hbits := (remainingBits_afterOpenr d).trans hoffered
  obtain ⟨a, ha, consumed, hmem, hctl⟩ := exec_deser_header (s := afterOpenr d) hlive rfl (tail_of_all hrel) hbits hsize
    (by simpa [readRoom, afterOpenr] using hlen)
  exact ⟨a, exec_openr_attached hlive hclosed (headD_of_all hrel), ha, consumed, consumed.rest hbits,
    by rw [HoldsTree, hmem], by rw [hctl]⟩

/-- The bound of DECOMPRESS keeps RBITS in range, the pad included (log 17). -/
theorem packed_length_lt {t : Tree} {b : List Byte} (hsize : t.size ≤ 511) (hbound : 255 * b.length + 2568 < 2 ^ 64)
    (n : Nat) : (ser t).length + (payload t b ++ List.replicate (padCount n) false).length < 2 ^ 64 := by
  have hser := ser_length_le hsize
  have hpayload := payload_length_le hsize b
  have hpad := padCount_le n
  rw [List.length_append, List.length_replicate]
  omega

/-- R245 from the reader's side: DECOMPRESS with the limit |b| of a source that holds the header, the payload of `b` and
a pad hands over `b`. -/
theorem runHost_decompress_payload {d : State} {t : Tree} {b f : List Byte} {n : Nat} (hlive : d.flt.faulted = false)
    (hclosed : d.r.isOpen = false) (hsource : sourceReliable d) (hsym : symReliable d) (hnodup : t.leaves.Nodup)
    (hb : ∀ v ∈ b, v ∈ t.leaves) (hsize : t.size ≤ 511) (hbound : 255 * b.length + 2568 < 2 ^ 64)
    (hf : unpack f = ser t ++ (payload t b ++ List.replicate (padCount n) false)) :
    ∃ v, runHost (decompress f (some (BitVec.ofNat 64 b.length))) d = some v ∧ v.flt.faulted = false ∧
      v.env.sym.data = d.env.sym.data ++ b := by
  obtain ⟨a, hopenr, hdeser, consumed, hbits, htree, hvalid⟩ :=
    exec_openr_deser (d := limitedTo f (BitVec.ofNat 64 b.length) d) hlive hclosed hsource hsize hf
  have hcfg : a.cfg = { limitEn := true, decLimit := BitVec.ofNat 64 b.length } := consumed.frame.cfg
  have hlimit : a.cfg.decLimit.toNat = b.length := by
    rw [hcfg, BitVec.toNat_ofNat, Params.default_cntW, Nat.mod_eq_of_lt (by omega)]
  have hdec : dec t (remainingBits a) (decodeLimit a) = b := by
    rw [decodeLimit_limited (by rw [hcfg]), hlimit, hbits]
    exact limitDecodingIsExact t b _ hnodup hb
  have halive : a.flt.faulted = false := by rw [consumed.frame.flt]; exact hlive
  have hasym : a.env.sym = d.env.sym := by rw [consumed.frame.sym]; simp [afterOpenr, limitedTo]
  have haopen : a.r.isOpen = true := consumed.isOpen
  have hroom : readRoom a (remainingBits a).length := by
    have hlen := packed_length_lt hsize hbound n
    have hread : a.r.rbits.toNat = 0 + (ser t).length := consumed.rbits
    rw [readRoom, hread, hbits, Params.default_cntW]
    omega
  obtain ⟨v, hdecode, done⟩ := exec_decode_completes halive haopen hvalid htree hsize
    (consumed.reliable (tail_of_all hsource)) (by rw [symReliable, hasym]; exact hsym) hroom
    fun _ => by rw [hdec, hlimit]
  have hvlive : v.flt.faulted = false := by rw [done.handed.frame.flt, halive]
  have hcloser : exec .closer v = .next (releaseSource v) := by
    rw [exec_closer hvlive, done.isOpen, haopen, require_true, finish_ok]
  refine ⟨releaseSource v, ?_, hvlive, ?_⟩
  · rw [runHost_decompress, runHost_issue rfl rfl hopenr, runHost_issue rfl rfl hdeser, runHost_issue rfl rfl hdecode,
      runHost_issue rfl rfl hcloser]
    rfl
  · have hreleased : (releaseSource v).env.sym = v.env.sym := by simp [releaseSource]
    rw [hreleased, done.handed.data, decodeEnd_out, hdec, hasym]

/-- Settles O60: COMPRESS leaves `pack` of the header and the payload, which DESER and DECODE read back, and the limit
keeps the pad out. -/
theorem decompressInvertsCompress : Obligations.DecompressInvertsCompress := by
  unfold Obligations.DecompressInvertsCompress
  intro b is s d _ his hbound hlive hwclosed hsink hoffered hdlive hclosed hsource hsym
  obtain ⟨t, u, ht, hu, -, hdata, -⟩ := compressWritesHeaderAndPayload b is s his hlive hwclosed hsink (by omega)
  obtain ⟨hnodup, hb, hsize⟩ := buildTree_frequencies ht
  have hbits : unpack u.env.snk.data =
      ser t ++ (payload t b ++ List.replicate (padCount (ser t ++ payload t b).length) false) := by
    rw [hdata, hoffered, Option.getD_some, List.nil_append, unpack_pack, List.append_assoc]
  obtain ⟨v, hv, hvlive, hvdata⟩ := runHost_decompress_payload hdlive hclosed hsource hsym hnodup hb hsize hbound hbits
  exact ⟨u, v, hu, hv, hvlive, hvdata⟩

end Sys2Proof.Machine
end

section
/-! The register port's writes (10_state.md R33, R40, R44, R45; 46_system_and_macros.md R242). -/

namespace Sys2Proof.Machine

theorem writeReg_cfg {p : Params} (s : State p) (value : Counter p) :
    writeReg s 3#4 value = s.setCfg { s.cfg with limitEn := value.getLsbD 0 } := rfl

theorem writeReg_decLimit {p : Params} (s : State p) (value : Counter p) :
    writeReg s 4#4 value = s.setCfg { s.cfg with decLimit := value } := rfl

/-- CFG and DEC_LIMIT are the only registers a write reaches (R40, R242). -/
theorem writeReg_ignored {p : Params} {reg : BitVec 4} (s : State p) (value : Counter p) (hcfg : reg ≠ 3#4)
    (hlimit : reg ≠ 4#4) : writeReg s reg value = s := by
  unfold writeReg
  split
  next h => exact absurd (BitVec.eq_of_toNat_eq h) hcfg
  next h => exact absurd (BitVec.eq_of_toNat_eq h) hlimit
  next => rfl

/-- Settles O49: a register write sets the configuration only, by the register's own rule. -/
theorem registerWriteSetsTheConfiguration : Obligations.RegisterWriteSetsTheConfiguration := by
  unfold Obligations.RegisterWriteSetsTheConfiguration
  intro reg v s rest hin
  obtain ⟨c, hwrite⟩ := writeReg_cases (s.setEnv { s.env with inputs := rest }) reg v
  have hstep : step s = .next (writeReg (s.setEnv { s.env with inputs := rest }) reg v) := step_take hin
  have hc : c = (writeReg (s.setEnv { s.env with inputs := rest }) reg v).cfg := by rw [hwrite, State.setCfg_cfg]
  refine ⟨(s.setEnv { s.env with inputs := rest }).setCfg c, by rw [hstep, hwrite], rfl, rfl, rfl, rfl, rfl, rfl, rfl,
    rfl, ?_, ?_, fun hcfg hlimit => ?_⟩
  · rintro rfl; simp [hc, writeReg_cfg]
  · rintro rfl; simp [hc, writeReg_decLimit]
  · simp [hc, writeReg_ignored _ v hcfg hlimit]

end Sys2Proof.Machine
end

section
/-! Fault entry and the checks before it (60_exceptions.md R265 to R267, R270, R274, R275). -/

namespace Sys2Proof.Machine

/-- A command whose check fails enters its fault with nothing done (R120, R274). -/
theorem finish_require_failed {p : Params} {c : Bool} {w : CmdWord} {x : FaultCode}
    {body : State p → Micro p Unit} {s : State p} (h : c = false) :
    finish w (require c x body s) = .next (raiseFault x w s) := by rw [h, require_false, finish_raise]

/-- ENC of a byte that has no code (R210, R267). -/
theorem exec_enc_noCode {v : Byte} {s : State} (hlive : s.flt.faulted = false) (hopen : s.w.isOpen = true)
    (hcode : cmLookup v s.mem.cm = none) : exec (.enc v) s = .next (raiseFault .noCode (0x30#8 ++ v) s) := by
  rw [exec_enc v hlive, hopen, require_true, encodeByte, hcode, finish_raise]

/-- SER with its stream open and no valid tree: the stream's check comes first (R274 (4), (5)). -/
theorem exec_ser_noTree {s : State} (hlive : s.flt.faulted = false) (hopen : s.w.isOpen = true)
    (hnone : s.ctl.treeValid = false) : exec .ser s = .next (raiseFault .noTree 0x2300#16 s) := by
  rw [exec_ser hlive, hopen, require_true, finish_require_failed hnone]

/-- Settles O8: a check that fails is the first thing its command does. -/
theorem failedPreconditionRaisesItsFault : Obligations.FailedPreconditionRaisesItsFault := by
  unfold Obligations.FailedPreconditionRaisesItsFault
  intro s hlive
  refine ⟨fun hopen => ?_, fun hopen => ?_, fun hload => ?_, fun hclosed => ?_, fun hclosed => ?_, fun hnone => ?_,
    fun v hopen hcode => exec_enc_noCode hlive hopen hcode⟩
  · exact (exec_openw hlive).trans (finish_require_failed (by rw [hopen, Bool.not_true]))
  · exact (exec_openr hlive).trans (finish_require_failed (by rw [hopen, Bool.not_true]))
  · exact ⟨(exec_tnode hlive).trans (finish_require_failed hload),
      fun v => (exec_tleaf v hlive).trans (finish_require_failed hload)⟩
  · exact ⟨fun v => (exec_wbit v hlive).trans (finish_require_failed hclosed),
      fun v => (exec_wbyte v hlive).trans (finish_require_failed hclosed),
      (exec_flush hlive).trans (finish_require_failed hclosed),
      (exec_closew hlive).trans (finish_require_failed hclosed),
      (exec_ser hlive).trans (finish_require_failed hclosed),
      fun v => (exec_enc v hlive).trans (finish_require_failed hclosed)⟩
  · exact ⟨(exec_rbit hlive).trans (finish_require_failed hclosed),
      (exec_rbyte hlive).trans (finish_require_failed hclosed),
      (exec_closer hlive).trans (finish_require_failed hclosed),
      (exec_deser hlive).trans (finish_require_failed hclosed),
      by rw [exec_decode hlive, decodeChecked_closed hclosed, finish_raise]⟩
  · exact ⟨fun hopen => exec_ser_noTree hlive hopen hnone,
      (exec_cmap hlive).trans (finish_require_failed hnone),
      fun hopen => by rw [exec_decode hlive, decodeChecked_noTree hopen hnone, finish_raise]⟩

/-- Whether fault entry leaves the sink attached is decided by the packer: an open one releases it (R275, step 2). -/
theorem raiseFault_snk_attached {p : Params} (x : FaultCode) (w : CmdWord) (s : State p) :
    (raiseFault x w s).env.snk.attached = if s.w.isOpen then false else s.env.snk.attached := by
  cases hopen : s.w.isOpen with
  | true => exact raiseFault_attached hopen
  | false => rw [(raiseFault_closed hopen).2, if_neg Bool.false_ne_true]

/-- Settles O50: fault entry by its parts, and the sink's bytes by whether the best-effort flush happens. -/
theorem faultEntryClosesAndRecords : Obligations.FaultEntryClosesAndRecords := by
  unfold Obligations.FaultEntryClosesAndRecords
  intro x w s
  exact ⟨raiseFault_flt x w s, raiseFault_ctl x w s, raiseFault_isOpen x w s, raiseFault_wbits x w s,
    raiseFault_r x w s, raiseFault_res x w s, raiseFault_mem x w s, raiseFault_cnt x w s, raiseFault_cfg x w s,
    raiseFault_sym x w s, raiseFault_src x w s, raiseFault_inputs x w s, raiseFault_readData x w s,
    raiseFault_snk_attached x w s, raiseFault_flushed, raiseFault_unflushed⟩

end Sys2Proof.Machine
end

section
/-! The transfers each instruction may make (20_memory.md R66): what those transfers keep, the instruction keeps, also
when it faults. -/

namespace Sys2Proof.Machine

variable {p : Params} {α β : Type} {i : Instr} {P : Env p → Prop}

/-- Every transfer that the instruction may make keeps `P`. -/
def KeptIn (i : Instr) (P : Env p → Prop) : Prop :=
  ∀ (e : Env p) (ev : PortEvent), ev.AllowedIn i → P e → P (e.apply ev)

/-- `P` holds of the channels after these micro-steps if it did before, also when they fault. -/
def KeepsEnv (P : Env p → Prop) (f : State p → Micro p α) : Prop :=
  Keeps (fun s => P s.env) (fun _ s => P s.env) f

theorem KeepsEnv.andThen {f : State p → Micro p α} {g : State p → α → Micro p β} (hf : KeepsEnv P f)
    (hg : ∀ a, KeepsEnv P fun s => g s a) : KeepsEnv P fun s => (f s).andThen g :=
  fun s h => (hf s h).andThen hg

theorem KeepsEnv.require {body : State p → Micro p Unit} {c : State p → Bool} {x : FaultCode}
    (h : KeepsEnv P body) : KeepsEnv P fun s => require (c s) x body s :=
  fun s hs => .require hs fun _ => h s hs

/-! ### What makes no transfer -/

theorem accept_keepsEnv (tok : Token) : KeepsEnv P (accept (p := p) tok) := fun s h => by
  cases ha : accept tok s with
  | ok t a => rw [Micro.ends_ok, (accept_memoryFrame ha).env]; exact h
  | raise x t => rw [Micro.ends_raise, (accept_raise ha).2]; exact h

theorem acceptUnlessDone_keepsEnv (tok : Token) :
    KeepsEnv P fun s : State p => if s.ctl.treeValid then .ok s () else accept tok s := fun s h => by
  dsimp only
  split
  · exact h
  · exact accept_keepsEnv tok s h

theorem cmapLeaf_keepsEnv (v : Byte) : KeepsEnv P (cmapLeaf (p := p) v) := fun s h => by
  rcases cmapLeaf_cases v s with ⟨_, _, eq⟩ | ⟨_, _, eq⟩ | ⟨_, _, _, _, eq⟩ <;> rw [eq] <;> exact h

theorem buildCodes_keepsEnv : KeepsEnv P (buildCodes (p := p)) := fun s h => by
  unfold buildCodes
  split
  · exact h
  · exact Keeps.cmapScan (fun _ h => h) cmapLeaf_keepsEnv _ (beginWalk s) h

theorem buildCodeMap_keepsEnv : KeepsEnv P (buildCodeMap (p := p)) := fun s h =>
  (buildCodes_keepsEnv (clearCodeMap s) h).andThen fun _ _ h => h

theorem deliverBit_keepsEnv : KeepsEnv P (deliverBit (p := p)) := fun s h => by
  rcases deliverBit_cases s with ⟨_, eq⟩ | ⟨_, eq⟩ <;> rw [eq] <;> exact h

/-! ### The transfers -/

theorem KeptIn.event (hP : KeptIn i P) {e : Env p} (h : P e) {ev : PortEvent}
    (hev : ev.AllowedIn i := by simp [PortEvent.AllowedIn]) : P (e.apply ev) := hP e ev hev h

section
variable (hP : KeptIn i P)
include hP

theorem writeBit_keepsEnv (b : Bool) : KeepsEnv P (writeBit b) := fun s h => by
  rcases writeBit_cases b s with ⟨_, eq⟩ | ⟨_, _, eq⟩ | ⟨_, _, _, eq⟩ | ⟨_, _, _, eq⟩ <;> rw [eq]
  · exact h
  · exact h
  · exact hP.event h
  · exact hP.event h

theorem writeBits_keepsEnv (bs : List Bool) : KeepsEnv P (writeBits bs) := .writeBits (writeBit_keepsEnv hP) bs

theorem encodeByte_keepsEnv (v : Byte) : KeepsEnv P (encodeByte v) := fun s h => by
  unfold encodeByte
  split
  · exact h
  · unfold writeCode
    split
    · exact h
    · exact (writeBits_keepsEnv hP _ s h).andThen fun _ _ h => h

theorem flushPacker_keepsEnv : KeepsEnv P flushPacker := fun s h => by
  rcases flushPacker_cases s with ⟨_, eq⟩ | ⟨_, _, eq⟩ | ⟨_, _, eq⟩ <;> rw [eq]
  · exact h
  · exact hP.event h
  · exact hP.event h

theorem flushAndRelease_keepsEnv : KeepsEnv P flushAndRelease :=
  (flushPacker_keepsEnv hP).andThen fun _ _ h => hP.event (ev := .snkRelease) h

theorem releaseSource_keepsEnv : KeepsEnv P fun s : State p => .ok (releaseSource s) () := fun _ h =>
  hP.event (ev := .srcRelease) h

theorem readBit_keepsEnv : KeepsEnv P readBit := fun s h => by
  rcases readBit_cases s with ⟨_, eq⟩ | ⟨_, _, eq⟩ | ⟨_, _, _, eq⟩ | ⟨_, _, _, eq⟩ | ⟨b, _, _, _, eq⟩ <;> rw [eq]
  · exact h
  · exact deliverBit_keepsEnv s h
  · exact hP.event h
  · exact hP.event h
  · exact deliverBit_keepsEnv _ (hP.event h)

theorem readBitToRes_keepsEnv : KeepsEnv P readBitToRes := (readBit_keepsEnv hP).andThen fun _ _ h => h

theorem readByteToRes_keepsEnv : KeepsEnv P readByteToRes :=
  KeepsEnv.andThen (.readByte (readBit_keepsEnv hP)) fun _ _ h => h

theorem deserTree_keepsEnv (n : Nat) : KeepsEnv P fun s : State p => deserLoop n (beginDeser s) := fun s h =>
  Keeps.deserLoop (readBit_keepsEnv hP) accept_keepsEnv (fun _ h => h) n (beginDeser s) h

theorem symEmit_keepsEnv (b : Byte) : KeepsEnv P (symEmit b) := fun s h => by
  rcases symEmit_cases b s with ⟨_, eq⟩ | ⟨_, _, eq⟩ | ⟨_, _, eq⟩ <;> rw [eq]
  · exact h
  · exact hP.event h
  · exact hP.event h

theorem payloadStep_keepsEnv (b : Bool) : KeepsEnv P (payloadStep b) :=
  .payloadStep (symEmit_keepsEnv hP) (fun _ _ h => h) b

theorem runDecoder_keepsEnv : KeepsEnv P runDecoder := fun s h =>
  Keeps.decodeLoop (readBit_keepsEnv hP) (symEmit_keepsEnv hP) (fun _ _ h => h) (fun _ _ h => h) (fun _ h => h) _
    (beginDecode s) h

/-! ### Whole commands -/

theorem flushBestEffort_keepsEnv {s : State p} (h : P s.env) : P (flushBestEffort s).env := by
  have k := flushPacker_keepsEnv hP s h
  unfold flushBestEffort
  cases hf : flushPacker s with
  | ok t a => rw [hf] at k; exact k
  | raise x t => rw [hf] at k; exact k

theorem closeSinkOnFault_keepsEnv {s : State p} (x : FaultCode) (h : P s.env) : P (closeSinkOnFault x s).env := by
  unfold closeSinkOnFault
  split
  · refine hP.event (ev := .snkRelease) ?_
    split
    · exact h
    · exact flushBestEffort_keepsEnv hP h
  · exact h

/-- Fault entry opens nothing, whatever the instruction (R275). -/
theorem raiseFault_keepsEnv {s : State p} (x : FaultCode) (w : CmdWord) (h : P s.env) : P (raiseFault x w s).env := by
  have k := closeSinkOnFault_keepsEnv hP x h
  rw [raiseFault_eq]
  split
  · exact hP.event (ev := .srcRelease) k
  · exact k

/-- Reset releases what is attached (R240, R300). -/
theorem resetBlock_keepsEnv {s : State p} (h : P s.env) : P (resetBlock s).env := by
  have release (c : Bool) (t : State p) {ev : PortEvent} (hev : ev.AllowedIn i) (ht : P t.env) :
      P (if c then t.port ev else t).env := by
    cases c with
    | true => exact hP.event ht hev
    | false => exact ht
  exact release _ _ (ev := .srcRelease) (by simp [PortEvent.AllowedIn])
    (release s.env.snk.attached s (ev := .snkRelease) (by simp [PortEvent.AllowedIn]) h)

theorem command_keepsEnv {body : State p → Micro p Unit} {s t : State p} (h : command i body s = .next t)
    (hb : KeepsEnv P body) (hs : P s.env) : P t.env :=
  command_ends (P := fun t => P t.env) h (fun _ => hs) fun _ =>
    (hb s hs).mono (fun _ k => k) fun x _ k => raiseFault_keepsEnv hP x i.cmdWord k

end

theorem openSink_keepsEnv (hP : KeptIn .openw P) : KeepsEnv P openSink := fun s h => by
  unfold openSink
  split
  · exact hP.event h
  · exact hP.event h

theorem openSource_keepsEnv (hP : KeptIn .openr P) : KeepsEnv P openSource := fun s h => by
  unfold openSource
  split
  · exact hP.event h
  · exact hP.event h

/-- What an instruction's transfers keep, the instruction keeps (R66, R75). -/
theorem exec_keepsEnv {P : Env Params.default → Prop} (hP : KeptIn i P) {s t : State} (h : exec i s = .next t)
    (hs : P s.env) : P t.env := by
  cases i with
  | reset => cases h; exact resetBlock_keepsEnv hP hs
  | openw => exact command_keepsEnv hP h (openSink_keepsEnv hP).require hs
  | wbit opd => exact command_keepsEnv hP h (writeBit_keepsEnv hP _).require hs
  | wbyte v => exact command_keepsEnv hP h (writeBits_keepsEnv hP _).require hs
  | flush => exact command_keepsEnv hP h (flushPacker_keepsEnv hP).require hs
  | closew => exact command_keepsEnv hP h (flushAndRelease_keepsEnv hP).require hs
  | openr => exact command_keepsEnv hP h (openSource_keepsEnv hP).require hs
  | rbit => exact command_keepsEnv hP h (readBitToRes_keepsEnv hP).require hs
  | rbyte => exact command_keepsEnv hP h (readByteToRes_keepsEnv hP).require hs
  | closer => exact command_keepsEnv hP h (releaseSource_keepsEnv hP).require hs
  | tbegin =>
    exact command_keepsEnv hP (i := .tbegin) (body := fun s => .ok (beginLoad s) ()) h (fun _ h => h) hs
  | tnode => exact command_keepsEnv hP h (accept_keepsEnv _).require hs
  | tleaf v => exact command_keepsEnv hP h (accept_keepsEnv _).require hs
  | ser =>
    have hser : KeepsEnv P fun s : State => serScan s.mem.tm s := .serTree (writeBit_keepsEnv hP)
    exact command_keepsEnv hP h hser.require.require hs
  | deser => exact command_keepsEnv hP h (deserTree_keepsEnv hP _).require hs
  | cmap => exact command_keepsEnv hP h buildCodeMap_keepsEnv.require hs
  | enc v => exact command_keepsEnv hP h (encodeByte_keepsEnv hP v).require hs
  | decode => exact command_keepsEnv hP h (runDecoder_keepsEnv hP).require.require hs
  | leaf v => exact command_keepsEnv hP h (acceptUnlessDone_keepsEnv _).require hs
  | internal => exact command_keepsEnv hP h (acceptUnlessDone_keepsEnv _).require hs
  | left => exact command_keepsEnv hP h (payloadStep_keepsEnv hP _).require.require hs
  | right => exact command_keepsEnv hP h (payloadStep_keepsEnv hP _).require.require hs

end Sys2Proof.Machine
end

section
/-! The reset input in the middle of a command (70_reset_and_hazards.md R300, R302): some of the command's transfers,
the first ones, have happened. -/

namespace Sys2Proof.Machine

variable {p : Params} {i : Instr}

/-- `e'` is what some transfers that the instruction may make, in their order, make of `e`. -/
def AllowedTransfers (i : Instr) (e e' : Env p) : Prop :=
  ∃ evs : List PortEvent, e' = evs.foldl Env.apply e ∧ ∀ ev ∈ evs, ev.AllowedIn i

theorem AllowedTransfers.refl (i : Instr) (e : Env p) : AllowedTransfers i e e := ⟨[], rfl, by simp⟩

/-- One transfer more is one more in the list. -/
theorem allowedTransfers_kept (i : Instr) (e : Env p) : KeptIn i (AllowedTransfers i e) := by
  rintro _ ev hev ⟨evs, rfl, h⟩
  refine ⟨evs ++ [ev], by simp, fun x hx => ?_⟩
  rcases List.mem_append.mp hx with hx | hx
  · exact h x hx
  · rw [List.mem_singleton.mp hx]; exact hev

/-- Transfers that the instruction may make take nothing back (R63 to R66). -/
theorem AllowedTransfers.grows {e e' : Env p} (h : AllowedTransfers i e e') : Grows i e e' := by
  obtain ⟨evs, rfl, h⟩ := h
  induction evs generalizing e with
  | nil => exact .refl i e
  | cons ev evs ih =>
    exact ((Grows.refl i e).event (h ev List.mem_cons_self)).trans (ih fun x hx => h x (List.mem_cons_of_mem ev hx))

/-- The first `k` transfers that the trace has seen since, and then the others. -/
theorem AllowedTransfers.take {e e' : Env p} (h : AllowedTransfers i e e') (k : Nat) :
    AllowedTransfers i e (((eventsSince e e').take k).foldl Env.apply e) ∧
      AllowedTransfers i (((eventsSince e e').take k).foldl Env.apply e) e' := by
  obtain ⟨evs, rfl, h⟩ := h
  have hevs : eventsSince e (evs.foldl Env.apply e) = evs := by simp [eventsSince]
  rw [hevs]
  refine ⟨⟨evs.take k, rfl, fun x hx => h x (List.mem_of_mem_take hx)⟩,
    evs.drop k, ?_, fun x hx => h x (List.mem_of_mem_drop hx)⟩
  rw [← List.foldl_append, List.take_append_drop]

/-- A word other than OPENW's makes the transfers of an instruction that starts no other sink (R66, R92). -/
theorem takeWord_allowedTransfers {w : CmdWord} {s t : State} (hw : w ≠ 0x1000#16) (h : takeWord w s = .next t) :
    ∃ i, i ≠ .openw ∧ AllowedTransfers i s.env t.env := by
  rcases takeWord_cases w s with ⟨_, e⟩ | ⟨i, hd, e⟩ | ⟨_, e⟩ <;> rw [e] at h
  · cases h; exact ⟨.flush, by decide, .refl _ _⟩
  · refine ⟨i, ?_, exec_keepsEnv (allowedTransfers_kept i s.env) h (.refl i s.env)⟩
    rintro rfl
    obtain ⟨-, -, -, hword⟩ := decodeCommand_ok hd
    exact hw hword.symm
  · cases h
    exact ⟨.flush, by decide, raiseFault_keepsEnv (allowedTransfers_kept _ _) .illegalCmd w (.refl _ _)⟩

/-- Settles O46: the first transfers take nothing back, and the others only add to what they leave. -/
theorem resetInputKeepsATransferPrefix : Obligations.ResetInputKeepsATransferPrefix := by
  unfold Obligations.ResetInputKeepsATransferPrefix
  refine ⟨fun _ => rfl, fun w k s hw => ?_⟩
  obtain ⟨t, ht, hreset⟩ := resetDuring_eq w k s
  obtain ⟨i, hi, htransfers⟩ := takeWord_allowedTransfers hw ht
  obtain ⟨hbefore, hafter⟩ := htransfers.take k
  obtain ⟨hsnk, hsrc, hsym, _, _⟩ :=
    resetBlock_env (s.setEnv (((eventsSince s.env t.env).take k).foldl Env.apply s.env))
  refine ⟨t, _, ht, hreset, rfl, by rw [hsnk], by rw [hsrc], ?_, ?_, ?_, ?_, fun hall => ?_⟩
  · rw [hsnk]; exact hbefore.grows.snk hi
  · rw [hsnk]; exact hafter.grows.snk hi
  · rw [hsym]; exact hbefore.grows.sym
  · rw [hsym]; exact hafter.grows.sym
  · rw [hsnk, hsrc, hsym, State.setEnv_env, List.take_of_length_le hall, ← (takeWord_transfers ht).replay]
    exact ⟨rfl, rfl, rfl⟩

end Sys2Proof.Machine
end
